-- ==== Sys2Proof/Word.lean ====
section
/-! DEFINITION. The machine's word types and the texel record the block decompressor passes around. -/

namespace Sys2Proof

/-- One byte of the memory space (10_state R42: the unit of memory is the 8-bit byte). -/
abbrev Byte := BitVec 8

/-- One register (00_scope R6: `REG_W` = 32; 10_state R22: every register is 32 bits wide). -/
abbrev Word := BitVec 32

/-- A decoded texel, the `RGBA8` element BCD writes (00_scope R12, 30_encoding R122). -/
structure Texel where
  r : Byte
  g : Byte
  b : Byte
  a : Byte
  deriving DecidableEq, Repr

end Sys2Proof
end

