-- ==== Sys2Proof/Machine/Bits.lean ====
section
/-! DEFINITION. Bit numbering, little-endian assembly and field packing (00_scope R7, R8; 30_encoding R112, R116). -/

namespace Sys2Proof.Machine

/-- `LE(B, 0, len B)` of 00_scope R8: byte 0 is the least significant. -/
def leNat : List Byte → Nat
  | [] => 0
  | b :: bs => b.toNat + 256 * leNat bs

/-- The `n` bytes of a value, least significant first (20_memory R70). -/
def leBytes : Nat → Nat → List Byte
  | 0, _ => []
  | n + 1, v => BitVec.ofNat 8 v :: leBytes n (v / 256)

/-- `LE(B, i, n)` of 00_scope R8. -/
def leAt (bs : List Byte) (i n : Nat) : Nat := leNat ((bs.drop i).take n)

/-- The big-endian value of a byte string: the zlib trailer's `BE` (45_zpf_inflate R326). -/
def beNat (bs : List Byte) : Nat := leNat bs.reverse

/-- `v[hi:lo]` of 00_scope R7. -/
def slice (v hi lo : Nat) : Nat := (v >>> lo) % 2 ^ (hi + 1 - lo)

/-- Bit `i` of a value (00_scope R7). -/
def bitAt (v i : Nat) : Nat := (v >>> i) % 2

/-- Ceiling division by a positive number. -/
def ceilDiv (a b : Nat) : Nat := (a + b - 1) / b

/-- Read consecutive fields of the given widths, the first in the lowest bits: the field reader `Get` of 42_bcd_bc7
R224, applied in order. -/
def unpack : List Nat → Nat → List Nat
  | [], _ => []
  | w :: ws, v => v % 2 ^ w :: unpack ws (v / 2 ^ w)

/-- Place consecutive `(width, value)` fields with no padding, the first in the lowest bits (30_encoding R112). -/
def pack : List (Nat × Nat) → Nat
  | [] => 0
  | (w, v) :: fs => v % 2 ^ w + 2 ^ w * pack fs

end Sys2Proof.Machine
end

