-- ==== Sys2Proof/Machine/Bc7Tables.lean ====
section
/-! DEFINITION. The BC7 mode parameters (30_encoding R112) and the constant tables of 43_bcd_bc7_tables R260 to R265,
the parameters `BC7_P2`, `BC7_P3`, `BC7_A2`, `BC7_A3A`, `BC7_A3B`, `BC7_W2`, `BC7_W3`, `BC7_W4` of 00_scope R6 (log 13). -/

namespace Sys2Proof.Machine

/-- The parameters of one BC7 mode, with the column names of 30_encoding R112. -/
structure Bc7Params where
  ns : Nat
  pb : Nat
  rb : Nat
  isb : Nat
  cb : Nat
  ab : Nat
  epb : Nat
  spb : Nat
  ib : Nat
  ib2 : Nat
  deriving DecidableEq, Repr

/-- The table of 30_encoding R112; a number above 7 names no mode and gets mode 7's row. -/
def bc7Params : Nat → Bc7Params
  | 0 => ⟨3, 4, 0, 0, 4, 0, 1, 0, 3, 0⟩
  | 1 => ⟨2, 6, 0, 0, 6, 0, 0, 1, 3, 0⟩
  | 2 => ⟨3, 6, 0, 0, 5, 0, 0, 0, 2, 0⟩
  | 3 => ⟨2, 6, 0, 0, 7, 0, 1, 0, 2, 0⟩
  | 4 => ⟨1, 0, 2, 1, 5, 6, 0, 0, 2, 3⟩
  | 5 => ⟨1, 0, 2, 0, 7, 8, 0, 0, 2, 2⟩
  | 6 => ⟨1, 0, 0, 0, 7, 7, 1, 0, 4, 0⟩
  | _ => ⟨2, 6, 0, 0, 5, 5, 1, 0, 2, 0⟩

/-- `NE`, the number of endpoints (R112). -/
def bc7NumEndpoints (p : Bc7Params) : Nat := 2 * p.ns

/-- The number of alpha fields: none where `AB` = 0 (R112). -/
def bc7NumAlpha (p : Bc7Params) : Nat := if p.ab = 0 then 0 else bc7NumEndpoints p

/-- The number of p-bits: one per endpoint, one per subset, or none (R112). -/
def bc7NumPbits (p : Bc7Params) : Nat :=
  if p.epb = 1 then bc7NumEndpoints p else if p.spb = 1 then p.ns else 0

/-- The width of the first index set, `16·IB - NS` (R114). -/
def bc7Idx1Width (p : Bc7Params) : Nat := 16 * p.ib - p.ns

/-- The width of the second index set, `16·IB2 - 1`, or 0 where there is none (R114). -/
def bc7Idx2Width (p : Bc7Params) : Nat := if p.ib2 = 0 then 0 else 16 * p.ib2 - 1

/-- `BC7_P2` (R260). A row is written as the spec prints it: sixteen digits, texel 0 first, one hexadecimal digit each. -/
def bc7P2rows : List Nat :=
  [0x0011001100110011, 0x0001000100010001, 0x0111011101110111, 0x0001001100110111,
   0x0000000100010011, 0x0011011101111111, 0x0001001101111111, 0x0000000100110111,
   0x0000000000010011, 0x0011011111111111, 0x0000000101111111, 0x0000000000010111,
   0x0001011111111111, 0x0000000011111111, 0x0000111111111111, 0x0000000000001111] ++
  [0x0000100011101111, 0x0111000100000000, 0x0000000010001110, 0x0111001100010000,
   0x0011000100000000, 0x0000100011001110, 0x0000000010001100, 0x0111001100110001,
   0x0011000100010000, 0x0000100010001100, 0x0110011001100110, 0x0011011001101100,
   0x0001011111101000, 0x0000111111110000, 0x0111000110001110, 0x0011100110011100] ++
  [0x0101010101010101, 0x0000111100001111, 0x0101101001011010, 0x0011001111001100,
   0x0011110000111100, 0x0101010110101010, 0x0110100101101001, 0x0101101010100101,
   0x0111001111001110, 0x0001001111001000, 0x0011001001001100, 0x0011101111011100,
   0x0110100110010110, 0x0011110011000011, 0x0110011010011001, 0x0000011001100000] ++
  [0x0100111001000000, 0x0010011100100000, 0x0000001001110010, 0x0000010011100100,
   0x0110110010010011, 0x0011011011001001, 0x0110001110011100, 0x0011100111000110,
   0x0110110011001001, 0x0110001100111001, 0x0111111010000001, 0x0001100011100111,
   0x0000111100110011, 0x0011001111110000, 0x0010001011101110, 0x0100010001110111]

/-- `BC7_P3` (R261), written as `bc7P2rows` is. -/
def bc7P3rows : List Nat :=
  [0x0011001102212222, 0x0001001122112221, 0x0000200122112211, 0x0222002200110111,
   0x0000000011221122, 0x0011001100220022, 0x0022002211111111, 0x0011001122112211,
   0x0000000011112222, 0x0000111111112222, 0x0000111122222222, 0x0012001200120012,
   0x0112011201120112, 0x0122012201220122, 0x0011011211221222, 0x0011200122002220] ++
  [0x0001001101121122, 0x0111001120012200, 0x0000112211221122, 0x0022002200221111,
   0x0111011102220222, 0x0001000122212221, 0x0000001101220122, 0x0000110022102210,
   0x0122012200110000, 0x0012001211222222, 0x0110122112210110, 0x0000011012211221,
   0x0022110211020022, 0x0110011020022222, 0x0011012201220011, 0x0000200022112221] ++
  [0x0000000211221222, 0x0222002200120011, 0x0011001200220222, 0x0120012001200120,
   0x0000111122220000, 0x0120120120120120, 0x0120201212010120, 0x0011220011220011,
   0x0011112222000011, 0x0101010122222222, 0x0000000021212121, 0x0022112200221122,
   0x0022001100220011, 0x0220122102201221, 0x0101222222220101, 0x0000212121212121] ++
  [0x0101010101012222, 0x0222011102220111, 0x0002111200021112, 0x0000211221122112,
   0x0222011101110222, 0x0002111211120002, 0x0110011001102222, 0x0000000021122112,
   0x0110011022222222, 0x0022001100110022, 0x0022112211220022, 0x0000000000002112,
   0x0002000100020001, 0x0222122202221222, 0x0101222222222222, 0x0111201122012220]

/-- `BC7_A2` (R262): the anchor texel of subset 1 under a two-subset partition. -/
def bc7A2 : List Nat :=
  [15, 15, 15, 15, 15, 15, 15, 15, 15, 15, 15, 15, 15, 15, 15, 15] ++
  [15, 2, 8, 2, 2, 8, 8, 15, 2, 8, 2, 2, 8, 8, 2, 2] ++
  [15, 15, 6, 8, 2, 8, 15, 15, 2, 8, 2, 2, 2, 15, 15, 6] ++
  [6, 2, 6, 8, 15, 15, 2, 2, 15, 15, 15, 15, 15, 2, 2, 15]

/-- `BC7_A3A` (R263): the anchor texel of subset 1 under a three-subset partition. -/
def bc7A3A : List Nat :=
  [3, 3, 15, 15, 8, 3, 15, 15, 8, 8, 6, 6, 6, 5, 3, 3] ++
  [3, 3, 8, 15, 3, 3, 6, 10, 5, 8, 8, 6, 8, 5, 15, 15] ++
  [8, 15, 3, 5, 6, 10, 8, 15, 15, 3, 15, 5, 15, 15, 15, 15] ++
  [3, 15, 5, 5, 5, 8, 5, 10, 5, 10, 8, 13, 15, 12, 3, 3]

/-- `BC7_A3B` (R264): the anchor texel of subset 2 under a three-subset partition. -/
def bc7A3B : List Nat :=
  [15, 8, 8, 3, 15, 15, 3, 8, 15, 15, 15, 15, 15, 15, 15, 8] ++
  [15, 8, 15, 3, 15, 8, 15, 8, 3, 15, 6, 10, 15, 15, 10, 8] ++
  [15, 3, 15, 10, 10, 8, 9, 10, 6, 15, 8, 15, 3, 6, 6, 8] ++
  [15, 3, 15, 15, 15, 15, 15, 15, 15, 15, 15, 15, 3, 15, 15, 8]

/-- Digit `i` (texel `i`) of a partition row. -/
def bc7RowDigit (row i : Nat) : Nat := (row >>> (4 * (15 - i))) % 16

/-- `P2[part][i]` (R260). -/
def bc7P2 (part i : Nat) : Nat := bc7RowDigit (bc7P2rows.getD part 0) i

/-- `P3[part][i]` (R261). -/
def bc7P3 (part i : Nat) : Nat := bc7RowDigit (bc7P3rows.getD part 0) i

/-- The weight tables `W2`, `W3`, `W4` by index width (R265). -/
def bc7Weights : Nat → List Nat
  | 2 => [0, 21, 43, 64]
  | 3 => [0, 9, 18, 27, 37, 46, 55, 64]
  | _ => [0, 4, 9, 13, 17, 21, 26, 30, 34, 38, 43, 47, 51, 55, 60, 64]

end Sys2Proof.Machine
end

