-- ==== Sys2Proof/Syntax.lean ====
section
/-! DEFINITION. The instructions: one constructor per row of spec/opcode_table.json. Nineteen rows are the commands a
host writes to `CMD` (30_encoding R101). Thirteen rows are, one level down, the block formats the commands decode
(00_scope R2): the eight BC7 block modes and the reserved mode (R111 to R115), and the four DEFLATE block headers
(R117). -/

namespace Sys2Proof

/-- The fields of a BC7 block above its mode prefix, as 30_encoding R112 and R113 lay them out: the partition,
rotation and index-selection fields (0 where the mode has none); the raw red, green, blue and alpha fields of the
endpoints in endpoint order (`a` empty where the mode has no alpha); the p-bits; and the two packed index sets
(`idx2` 0 where the mode has one index set). The widths depend on the mode, so `wellFormed` checks them. -/
structure Bc7Fields where
  part : Nat
  rot : Nat
  isel : Nat
  r : List Nat
  g : List Nat
  b : List Nat
  a : List Nat
  p : List Nat
  idx1 : Nat
  idx2 : Nat
  deriving DecidableEq, Repr

/-- One constructor per row of spec/opcode_table.json. -/
inductive Instr where
  -- system commands
  | nop
  | clr
  -- BCD commands
  | bcdBc1
  | bcdBc2
  | bcdBc3
  | bcdBc4
  | bcdBc5
  | bcdBc7
  | bcdBc7s
  -- ZPF commands
  | zpfRecon
  | zpfIntlv
  | zpfReord
  | zpfDecon
  | zpfInflate
  | zpfUnzip
  | zpfFilt
  -- NRM commands
  | nrmF32
  | nrmF16
  | nrmU32
  -- BC7 blocks, by mode; `bc7Reserved` keeps the 120 bits the format ignores (R115)
  | bc7Mode0 (f : Bc7Fields)
  | bc7Mode1 (f : Bc7Fields)
  | bc7Mode2 (f : Bc7Fields)
  | bc7Mode3 (f : Bc7Fields)
  | bc7Mode4 (f : Bc7Fields)
  | bc7Mode5 (f : Bc7Fields)
  | bc7Mode6 (f : Bc7Fields)
  | bc7Mode7 (f : Bc7Fields)
  | bc7Reserved (ignored : BitVec 120)
  -- DEFLATE block headers, with the field BFINAL
  | deflateStored (bfinal : Bool)
  | deflateFixed (bfinal : Bool)
  | deflateDynamic (bfinal : Bool)
  | deflateReserved (bfinal : Bool)
  deriving DecidableEq, Repr

/-- The three places an instruction is read from, each with its own bit layout (30_encoding R100, R111, R117): a
word written to `CMD`, a 16-byte BC7 block of the source stream, and the three stream bits of a DEFLATE block
header. -/
inductive Format where
  | command
  | bc7Block
  | deflateHeader
  deriving DecidableEq, Repr

end Sys2Proof
end

