-- ==== Sys2Proof/WellFormed.lean ====
section
/-! DEFINITION. Which instructions are well formed: every field of a BC7 block row fits the width its mode gives it
(30_encoding R112, R114). The commands have no operand field (R100), the reserved BC7 block and the DEFLATE headers
hold fields of fixed width, so they are always well formed. -/

namespace Sys2Proof

open Machine

/-- A list of fields has the number of entries the mode asks for, each below `2 ^ width`. -/
def fieldsFit (count width : Nat) (vs : List Nat) : Bool :=
  vs.length == count && vs.all fun v => decide (v < 2 ^ width)

/-- The partition, rotation and index-selection fields fit `PB`, `RB`, `ISB` (R112). -/
def bc7HeaderFits (p : Bc7Params) (f : Bc7Fields) : Bool :=
  decide (f.part < 2 ^ p.pb) && decide (f.rot < 2 ^ p.rb) && decide (f.isel < 2 ^ p.isb)

/-- The colour, alpha and p-bit fields have the mode's number and width (R112). -/
def bc7EndpointsFit (p : Bc7Params) (f : Bc7Fields) : Bool :=
  fieldsFit (bc7NumEndpoints p) p.cb f.r && fieldsFit (bc7NumEndpoints p) p.cb f.g &&
  fieldsFit (bc7NumEndpoints p) p.cb f.b && fieldsFit (bc7NumAlpha p) p.ab f.a &&
  fieldsFit (bc7NumPbits p) 1 f.p

/-- The packed index sets fit their widths (R114). -/
def bc7IndicesFit (p : Bc7Params) (f : Bc7Fields) : Bool :=
  decide (f.idx1 < 2 ^ bc7Idx1Width p) && decide (f.idx2 < 2 ^ bc7Idx2Width p)

/-- The fields of a mode-`m` block are well formed. -/
def bc7FieldsOk (m : Nat) (f : Bc7Fields) : Bool :=
  bc7HeaderFits (bc7Params m) f && bc7EndpointsFit (bc7Params m) f && bc7IndicesFit (bc7Params m) f

/-- The well-formed instructions. -/
def wellFormed : Instr → Bool
  | .nop => true
  | .clr => true
  | .bcdBc1 => true
  | .bcdBc2 => true
  | .bcdBc3 => true
  | .bcdBc4 => true
  | .bcdBc5 => true
  | .bcdBc7 => true
  | .bcdBc7s => true
  | .zpfRecon => true
  | .zpfIntlv => true
  | .zpfReord => true
  | .zpfDecon => true
  | .zpfInflate => true
  | .zpfUnzip => true
  | .zpfFilt => true
  | .nrmF32 => true
  | .nrmF16 => true
  | .nrmU32 => true
  | .bc7Mode0 f => bc7FieldsOk 0 f
  | .bc7Mode1 f => bc7FieldsOk 1 f
  | .bc7Mode2 f => bc7FieldsOk 2 f
  | .bc7Mode3 f => bc7FieldsOk 3 f
  | .bc7Mode4 f => bc7FieldsOk 4 f
  | .bc7Mode5 f => bc7FieldsOk 5 f
  | .bc7Mode6 f => bc7FieldsOk 6 f
  | .bc7Mode7 f => bc7FieldsOk 7 f
  | .bc7Reserved _ => true
  | .deflateStored _ => true
  | .deflateFixed _ => true
  | .deflateDynamic _ => true
  | .deflateReserved _ => true

end Sys2Proof
end

