-- ==== Sys2Proof/Decode.lean ====
section
/-! DEFINITION. The decoder, total on any bytes and rejecting by name, and the encoder, both written from
30_encoding: the `CMD` word (R100 to R103), the BC7 block (R111 to R115), the DEFLATE block header (R116, R117). -/

namespace Sys2Proof

open Machine

/-- Why bytes are no instruction. -/
inductive DecodeError where
  /-- Fewer bytes than the format needs. -/
  | shortInput
  /-- A `CMD` word that is no command: `ZERO` is not 0 or `OP` is not in the opcode map (R102). -/
  | illegalCommand (w : Nat)
  deriving DecidableEq, Repr

/-! ## Commands -/

/-- The opcode map of R101, as `CMD` words (`ZERO` = 0). -/
def commandTable : List (Nat × Instr) :=
  [(0x00, .nop), (0x01, .clr),
   (0x10, .bcdBc1), (0x11, .bcdBc2), (0x12, .bcdBc3), (0x13, .bcdBc4), (0x14, .bcdBc5), (0x15, .bcdBc7),
   (0x16, .bcdBc7s),
   (0x20, .zpfRecon), (0x21, .zpfIntlv), (0x22, .zpfReord), (0x23, .zpfDecon), (0x24, .zpfInflate),
   (0x25, .zpfUnzip), (0x26, .zpfFilt),
   (0x30, .nrmF32), (0x31, .nrmF16), (0x32, .nrmU32)]

/-- The command a `CMD` word stands for. Every other word is illegal (R102): the bits above `OP` count, so that
`0x00000100` is not `NOP` (47_system_commands R404). -/
def decodeCommand (w : Nat) : Except DecodeError Instr :=
  match commandTable.find? fun row => row.1 == w with
  | some row => .ok row.2
  | none => .error (.illegalCommand w)

/-! ## BC7 blocks -/

/-- The field widths of a mode-`m` block, from bit 0 upward (R112): mode prefix, partition, rotation, index
selection, the red, green, blue and alpha fields of the endpoints, the p-bits, the two index sets. -/
def bc7Widths (m : Nat) : List Nat :=
  let p := bc7Params m
  [m + 1, p.pb, p.rb, p.isb] ++ List.replicate (bc7NumEndpoints p) p.cb ++
    List.replicate (bc7NumEndpoints p) p.cb ++ List.replicate (bc7NumEndpoints p) p.cb ++
    List.replicate (bc7NumAlpha p) p.ab ++ List.replicate (bc7NumPbits p) 1 ++
    [bc7Idx1Width p, bc7Idx2Width p]

/-- The values of those fields, in the same order; the mode prefix is `1 << m` (R111). -/
def bc7Values (m : Nat) (f : Bc7Fields) : List Nat :=
  [2 ^ m, f.part, f.rot, f.isel] ++ f.r ++ f.g ++ f.b ++ f.a ++ f.p ++ [f.idx1, f.idx2]

/-- The fields read from a mode-`m` block value (42_bcd_bc7 R224 to R227). -/
def bc7FieldsOf (m v : Nat) : Bc7Fields :=
  let p := bc7Params m
  let ne := bc7NumEndpoints p
  let na := bc7NumAlpha p
  let np := bc7NumPbits p
  let vs := unpack (bc7Widths m) v
  { part := vs.getD 1 0
    rot := vs.getD 2 0
    isel := vs.getD 3 0
    r := (vs.drop 4).take ne
    g := (vs.drop (4 + ne)).take ne
    b := (vs.drop (4 + 2 * ne)).take ne
    a := (vs.drop (4 + 3 * ne)).take na
    p := (vs.drop (4 + 3 * ne + na)).take np
    idx1 := vs.getD (4 + 3 * ne + na + np) 0
    idx2 := vs.getD (5 + 3 * ne + na + np) 0 }

/-- The mode of a block: the least set bit of byte 0, none where byte 0 is 0 (42_bcd_bc7 R221, R222). -/
def bc7ModeOf (v : Nat) : Option Nat := (List.range 8).find? fun m => bitAt v m == 1

/-- The row of a mode. -/
def bc7Instr : Nat → Bc7Fields → Instr
  | 0, f => .bc7Mode0 f
  | 1, f => .bc7Mode1 f
  | 2, f => .bc7Mode2 f
  | 3, f => .bc7Mode3 f
  | 4, f => .bc7Mode4 f
  | 5, f => .bc7Mode5 f
  | 6, f => .bc7Mode6 f
  | _, f => .bc7Mode7 f

/-- The row a 128-bit block value stands for; every block stands for one (R111, R115, 42_bcd_bc7 R239). -/
def decodeBc7 (v : Nat) : Instr :=
  match bc7ModeOf v with
  | some m => bc7Instr m (bc7FieldsOf m v)
  | none => .bc7Reserved (BitVec.ofNat 120 (v / 256))

/-- The 128-bit value of a mode-`m` block. -/
def encodeBc7 (m : Nat) (f : Bc7Fields) : Nat := pack ((bc7Widths m).zip (bc7Values m f))

/-! ## DEFLATE block headers -/

/-- The row three stream bits stand for: bit 0 is `BFINAL`, bits 2:1 are `BTYPE` (R117). -/
def decodeDeflate (v : Nat) : Instr :=
  let bfinal := bitAt v 0 == 1
  match slice v 2 1 with
  | 0 => .deflateStored bfinal
  | 1 => .deflateFixed bfinal
  | 2 => .deflateDynamic bfinal
  | _ => .deflateReserved bfinal

/-- The three stream bits of a header. -/
def encodeDeflate (btype : Nat) (bfinal : Bool) : Nat := bfinal.toNat + 2 * btype

/-! ## All formats -/

/-- The decoder. A `CMD` word is given as its four bytes, a BC7 block as its sixteen, a DEFLATE header in the low
three bits of one byte (the bits above belong to what follows in the stream). -/
def decode (fmt : Format) (bs : List Byte) : Except DecodeError Instr :=
  match fmt with
  | .command => if bs.length < 4 then .error .shortInput else decodeCommand (leAt bs 0 4)
  | .bc7Block => if bs.length < 16 then .error .shortInput else .ok (decodeBc7 (leAt bs 0 16))
  | .deflateHeader => if bs.length < 1 then .error .shortInput else .ok (decodeDeflate (leAt bs 0 1))

/-- The format an instruction is read from. -/
def formatOf : Instr → Format
  | .bc7Mode0 _ | .bc7Mode1 _ | .bc7Mode2 _ | .bc7Mode3 _ => .bc7Block
  | .bc7Mode4 _ | .bc7Mode5 _ | .bc7Mode6 _ | .bc7Mode7 _ => .bc7Block
  | .bc7Reserved _ => .bc7Block
  | .deflateStored _ | .deflateFixed _ | .deflateDynamic _ | .deflateReserved _ => .deflateHeader
  | .nop | .clr | .bcdBc1 | .bcdBc2 | .bcdBc3 | .bcdBc4 | .bcdBc5 | .bcdBc7 | .bcdBc7s => .command
  | .zpfRecon | .zpfIntlv | .zpfReord | .zpfDecon | .zpfInflate | .zpfUnzip | .zpfFilt => .command
  | .nrmF32 | .nrmF16 | .nrmU32 => .command

/-- The number of bits a format has (R100, R111, R117). -/
def formatBits : Format → Nat
  | .command => 32
  | .bc7Block => 128
  | .deflateHeader => 3

/-- The number of whole bytes a format is given in. -/
def formatBytes : Format → Nat
  | .command => 4
  | .bc7Block => 16
  | .deflateHeader => 1

/-- The bits of an instruction as one number, bit 0 the first (00_scope R7). -/
def encodeValue : Instr → Nat
  | .nop => 0x00
  | .clr => 0x01
  | .bcdBc1 => 0x10
  | .bcdBc2 => 0x11
  | .bcdBc3 => 0x12
  | .bcdBc4 => 0x13
  | .bcdBc5 => 0x14
  | .bcdBc7 => 0x15
  | .bcdBc7s => 0x16
  | .zpfRecon => 0x20
  | .zpfIntlv => 0x21
  | .zpfReord => 0x22
  | .zpfDecon => 0x23
  | .zpfInflate => 0x24
  | .zpfUnzip => 0x25
  | .zpfFilt => 0x26
  | .nrmF32 => 0x30
  | .nrmF16 => 0x31
  | .nrmU32 => 0x32
  | .bc7Mode0 f => encodeBc7 0 f
  | .bc7Mode1 f => encodeBc7 1 f
  | .bc7Mode2 f => encodeBc7 2 f
  | .bc7Mode3 f => encodeBc7 3 f
  | .bc7Mode4 f => encodeBc7 4 f
  | .bc7Mode5 f => encodeBc7 5 f
  | .bc7Mode6 f => encodeBc7 6 f
  | .bc7Mode7 f => encodeBc7 7 f
  | .bc7Reserved x => 256 * x.toNat
  | .deflateStored fin => encodeDeflate 0 fin
  | .deflateFixed fin => encodeDeflate 1 fin
  | .deflateDynamic fin => encodeDeflate 2 fin
  | .deflateReserved fin => encodeDeflate 3 fin

/-- The bytes of an instruction, lowest address first. -/
def encode (i : Instr) : List Byte := leBytes (formatBytes (formatOf i)) (encodeValue i)

/-! ## The opcode table's words -/

/-- The words the table gives its BC7 rows: a mode prefix alone (the rows list no field), 0 for the reserved row. -/
def bc7TableWords : List Nat := [0x01, 0x02, 0x04, 0x08, 0x10, 0x20, 0x40, 0x80, 0x00]

/-- Which format a word of the opcode table is read in (log 16). A 32-bit word is a command. The table gives the BC7
rows and the DEFLATE rows one byte each and no way to tell them apart, so an 8-bit word that a BC7 row shows is
that row's, another of at most three bits is a DEFLATE header, and the rest is byte 0 of a BC7 block. -/
def tableFormat (nbits w : Nat) : Format :=
  if nbits < 8 then .deflateHeader
  else if nbits = 32 then .command
  else if nbits = 8 ∧ bc7TableWords.contains w = false ∧ w < 8 then .deflateHeader
  else .bc7Block

/-- What the decoder reads from an instruction whose bits are `w`, every bit above `nbits` being 0. -/
def decodeTableWord (nbits w : Nat) : Option Instr :=
  (decode (tableFormat nbits w) (leBytes (formatBytes (tableFormat nbits w)) w)).toOption

end Sys2Proof
end

