-- ==== Sys2Proof/Config.lean ====
section
/-! DEFINITION. What the spec fixes of the implementation as plain numbers, and the FREE VALUES: what the spec
leaves open, as opaque constants with no body. A parameter of 00_scope R6 that has a default rule
(`BC_EXPAND`, `BC_INTERP`, `BC3_COLOR_MODE`, `Bc5Third`, the BC7 tables, `NRM_QUANT`, `NRM_NAN`) is a definition
beside the rule that uses it, under Sys2Proof/Machine. The two OPEN parameters `REG_BASE` and `MemValid` are plain
data in `State` (`regBase`, `memMap`), so that every statement about every state holds for every value of them. -/

namespace Sys2Proof.Config

/-- The number of byte addresses, `2^ADDR_W` with `ADDR_W` = 32 (00_scope R6, 20_memory R79). -/
def addrSpace : Nat := 2 ^ 32

/-- `INFLATE_MAX_DIST` (00_scope R6, 45_zpf_inflate R322): the largest distance the tables can express. -/
def inflateMaxDist : Nat := 32768

/-- FREE VALUE (log 5). The byte that an address of an entitled destination or scratch set holds after a fault met
while running, after a composite command, or after a reset that abandoned a command (60_exceptions R435,
44_zpf_filters R291 and R292, 70_reset_and_hazards R473), and the byte a host reads there while a command is
pending (R481). The first argument is the count of such events, the second the address. -/
opaque freeByte : Nat → Nat → Byte

/-- FREE VALUE (log 6). How many host accesses are served while a command is pending before it ends: any finite
number, zero included (70_reset_and_hazards R487, 93_implementation_defined U9). -/
opaque busyFor : Nat → Nat

/-- FREE VALUE (log 7). Whether a command is carried out as one application of its function or block by block
through its working state: the grouping and order of accesses are the implementation's (20_memory R85, U8). -/
opaque byBlock : Nat → Bool

/-- FREE VALUE (log 8). The invalid address that `BUS_ERROR` may name instead of the written-order outcome, when the
command's entitled set holds an invalid address (60_exceptions R429, U3). -/
opaque busAddr : Nat → Nat

end Sys2Proof.Config
end

