-- ==== Sys2Proof/Machine/State.lean ====
section
/-! DEFINITION. The state of the CDU and of what surrounds it, as plain data (10_state R20 to R46), the reasons a step
can stop, and the state after reset (10_state R45, 70_reset_and_hazards R471). -/

namespace Sys2Proof.Machine

/-- The memory space as `(address, byte)` pairs, addresses strictly rising, no entry equal to what an unlisted
address reads as (10_state R42; log 2). -/
abbrev Memory := List Host.Cell

/-- One region of backed memory: the `size` addresses from `base` on (20_memory R78; log 3). -/
structure Region where
  base : Nat
  size : Nat
  deriving DecidableEq, Repr

/-- A half-open range of byte addresses (20_memory R77). -/
structure Range where
  base : Nat
  len : Nat
  deriving DecidableEq, Repr

/-- The twelve operand registers (10_state R28); a snapshot of them is what a pending command runs on (R39). -/
structure Operands where
  /-- `MODE` (R27) -/
  mode : Word
  /-- `SRC_BASE` (R29) -/
  srcBase : Word
  /-- `SRC_LEN` (R29) -/
  srcLen : Word
  /-- `SRC_POS`, the source cursor (R29, R30) -/
  srcPos : Word
  /-- `DST_BASE` (R31) -/
  dstBase : Word
  /-- `DST_LEN` (R31) -/
  dstLen : Word
  /-- `DST_STRIDE` (R31) -/
  dstStride : Word
  /-- `WIDTH` (R33) -/
  width : Word
  /-- `HEIGHT` (R33) -/
  height : Word
  /-- `COUNT` (R34) -/
  count : Word
  /-- `TMP_BASE` (R35) -/
  tmpBase : Word
  /-- `TMP_LEN` (R35) -/
  tmpLen : Word
  deriving DecidableEq, Repr

/-- The working state of an inflating command at a block boundary (10_state R43, 45_zpf_inflate R310, R311). -/
structure InflateWork where
  /-- the bit position `q` in the stream -/
  q : Nat
  /-- how many bytes have been emitted; they stand in the output window, which is the LZ77 history (R323) -/
  len : Nat
  /-- the last-block flag -/
  last : Bool
  /-- the running Adler-32 sums (R327) -/
  adlerA : Nat
  adlerB : Nat
  deriving DecidableEq, Repr

/-- The hidden working state of a pending command (10_state R43). -/
inductive Work where
  /-- The command has been accepted and nothing of it has been done. -/
  | notBegun
  /-- A BCD command between tiles: the tile number and the tile buffer, empty or sixteen texels (R43, R153). -/
  | bcd (tileNo : Nat) (tile : List Texel)
  /-- `ZPF.INFLATE` or `ZPF.UNZIP` between blocks. -/
  | inflate (w : InflateWork)
  deriving DecidableEq, Repr

/-- The pending command (10_state R39): the accepted word and the operand snapshot; its working state (R43); and two
fields of the model: how many host accesses may come before the command's turn (log 6), and whether it runs block
by block (log 7). -/
structure Pending where
  word : Word
  ops : Operands
  work : Work
  left : Nat
  byBlock : Bool
  deriving DecidableEq, Repr

/-- The phase (10_state R39). -/
inductive Phase where
  | idle
  | busy (p : Pending)
  deriving DecidableEq, Repr

/-- The width of a host access to the register block (93_implementation_defined U1). -/
inductive BusWidth where
  | w8
  | w16
  | w32
  | w64
  | burst
  deriving DecidableEq, Repr

/-- What the outside world does to the CDU and its memory (log 1). -/
inductive HostAct where
  /-- a read of the register block at a bus address (10_state R21) -/
  | regRead (addr : Nat) (width : BusWidth)
  /-- a write of the register block at a bus address -/
  | regWrite (addr : Nat) (width : BusWidth) (v : Word)
  /-- a host read of one byte of memory -/
  | memRead (addr : Nat)
  /-- a host write of one byte of memory -/
  | memWrite (addr : Nat) (b : Byte)
  /-- the platform asserts `rst` (70_reset_and_hazards R470) -/
  | assertRst
  /-- the platform releases `rst` -/
  | releaseRst
  deriving DecidableEq, Repr

/-- The whole state. -/
structure State where
  /-- the twelve operand registers -/
  regs : Operands
  /-- `IRQ_EN` (10_state R26) -/
  irqEn : Word
  /-- `STATUS.DONE` (R24) -/
  done : Bool
  /-- `STATUS.ERR` (R24) -/
  err : Bool
  /-- `STATUS.OVR` (R24, R38) -/
  ovr : Bool
  /-- `STATUS.ECODE` (R24) -/
  ecode : Byte
  /-- `EINFO` (R25) -/
  einfo : Word
  /-- `DST_POS` (R32) -/
  dstPos : Word
  /-- `TILE` (R36) -/
  tile : Word
  /-- the phase, with the pending command while it is BUSY (R39); `STATUS.BUSY` is a view of it -/
  phase : Phase
  /-- the windows the host may not write yet: those of every command that has been started and whose end no read of
  `STATUS` has shown since (70_reset_and_hazards R480) -/
  held : List Range
  /-- the memory space (R42) -/
  mem : Memory
  /-- which addresses are backed by memory: the parameter `MemValid` (20_memory R78; log 3) -/
  memMap : List Region
  /-- the bus address of the register block: the parameter `REG_BASE` (20_memory R81; log 4) -/
  regBase : Nat
  /-- the level of the reset input (70_reset_and_hazards R470) -/
  rst : Bool
  /-- model: what the outside world does next, oldest first (log 1) -/
  hostIn : List HostAct
  /-- model: what the last host read returned (log 19) -/
  busData : Word
  /-- model: how many free values have been taken (log 19) -/
  freeCtr : Nat
  deriving DecidableEq, Repr

/-- Why the machine stops. The CDU's own faults are not here: they are exceptions it takes (`Trap`), with a next
state. -/
inductive Fault where
  /-- Raised by a HOST memory access to an address that is no memory: outside the memory space, or with `MemValid`
  false (20_memory R78 speaks of the CDU's accesses only; log 18). Safe: the model stops where a host would see its
  own bus error. -/
  | hostAddress (addr : Nat)
  deriving DecidableEq, Repr

/-- Why a step has no meaning. -/
inductive Refusal where
  /-- Raised by an arm of `exec` whose instruction has no meaning yet. Safe: nothing is claimed of it. -/
  | notModelled (mnemonic : String)
  /-- Raised by a HOST access to the register block that is not an aligned 32-bit access at an offset 0x00..0xFC:
  the spec gives it treatment `refuse` (93_implementation_defined U1; log 10). Safe. -/
  | badRegisterAccess (addr : Nat)
  /-- Raised by a HOST register access while `rst` is asserted: outside the spec (70_reset_and_hazards R470; log 10).
  Safe. -/
  | registerAccessInReset
  /-- Raised by a HOST write to a byte of a window of a command, from the `CMD` write that starts it until a `STATUS`
  read shows `BUSY` = 0: the spec gives it treatment `refuse` (R480, U4; log 9). Safe. -/
  | hostWroteWindow (addr : Nat)
  /-- Raised by a block row that is offered while no pending command parses blocks of its kind: the formats have a
  meaning only inside the commands that decode them (00_scope R2; log 12). Safe; no run reaches it. -/
  | noBlockExpected
  deriving DecidableEq, Repr

/-- All operand registers 0 (10_state R45). -/
def Operands.reset : Operands where
  mode := 0
  srcBase := 0
  srcLen := 0
  srcPos := 0
  dstBase := 0
  dstLen := 0
  dstStride := 0
  width := 0
  height := 0
  count := 0
  tmpBase := 0
  tmpLen := 0

/-- The machine right after reset (10_state R45, 70_reset_and_hazards R471, R472), `rst` released, in a platform
whose whole memory space is backed (log 3) and whose register block stands at bus address 0 (log 4). -/
def State.reset : State where
  regs := Operands.reset
  irqEn := 0
  done := false
  err := false
  ovr := false
  ecode := 0
  einfo := 0
  dstPos := 0
  tile := 0
  phase := .idle
  held := []
  mem := []
  memMap := [⟨0, 2 ^ 32⟩]
  regBase := 0
  rst := false
  hostIn := []
  busData := 0
  freeCtr := 0

end Sys2Proof.Machine
end

