-- ==== Sys2Proof/Machine/Ops.lean ====
section
/-! DEFINITION. The named operations every meaning is written over: memory, the faults the CDU takes and the return
from one, completion, and the one way a command runs and ends. -/

namespace Sys2Proof.Machine

/-! ## Memory -/

/-- What an address that memory does not list reads as (log 2). -/
def memDefault : Byte := 0

/-- The byte at an address. -/
def memGet : Memory → Nat → Byte
  | [], _ => memDefault
  | (k, v) :: t, a => if a = k then v else memGet t a

/-- Store a byte, keeping the canonical form: writing `memDefault` removes the entry. -/
def memPut : Memory → Nat → Byte → Memory
  | [], a, b => if b = memDefault then [] else [(a, b)]
  | (k, v) :: t, a, b =>
    if a < k then (if b = memDefault then (k, v) :: t else (a, b) :: (k, v) :: t)
    else if a = k then (if b = memDefault then t else (a, b) :: t)
    else (k, v) :: memPut t a b

/-- The canonical form: addresses strictly rising and inside the memory space, no entry at `memDefault`. -/
abbrev Memory.wf (m : Memory) : Prop :=
  m.Pairwise (fun x y => x.1 < y.1) ∧ ∀ c ∈ m, c.2 ≠ memDefault ∧ c.1 < Config.addrSpace

/-- `MemValid(addr)` (00_scope R6, 20_memory R78): the address is in the memory space and some region backs it. -/
def memValid (mm : List Region) (a : Nat) : Bool :=
  decide (a < Config.addrSpace) && mm.any fun r => decide (r.base ≤ a) && decide (a < r.base + r.size)

/-- The address lies in the range. -/
def inRange (r : Range) (a : Nat) : Bool := decide (r.base ≤ a) && decide (a < r.base + r.len)

/-- Two ranges share a byte; an empty range shares none (20_memory R80). -/
def rangesOverlap (x y : Range) : Bool :=
  decide (0 < x.len) && decide (0 < y.len) &&
  decide (x.base < y.base + y.len) && decide (y.base < x.base + x.len)

/-- One region backs the whole range, so that every address of it is valid. -/
def rangeCovered (mm : List Region) (r : Range) : Bool :=
  decide (r.len = 0) ||
  (decide (r.base + r.len ≤ Config.addrSpace) &&
    mm.any fun g => decide (g.base ≤ r.base) && decide (r.base + r.len ≤ g.base + g.size))

/-! ## The faults of the CDU -/

/-- A fault with its information (60_exceptions R421). -/
inductive Trap where
  | illegalOp (w : Nat)
  | unsupportedFormat (op : Nat)
  | resourceLimit (sub : Nat)
  | overlap
  | truncated (off : Nat)
  | malformedStream (sub : Nat)
  | outputOverflow (limit : Nat)
  | busError (addr : Nat)
  | badMode (gray : Nat)
  deriving DecidableEq, Repr

/-- The fault code (R421). -/
def trapCode : Trap → Byte
  | .illegalOp _ => 0x01
  | .unsupportedFormat _ => 0x02
  | .resourceLimit _ => 0x03
  | .overlap => 0x04
  | .truncated _ => 0x05
  | .malformedStream _ => 0x06
  | .outputOverflow _ => 0x07
  | .busError _ => 0x08
  | .badMode _ => 0x09

/-- The information word (R421, R431; 45_zpf_inflate R329). -/
def trapInfo : Trap → Word
  | .illegalOp w => BitVec.ofNat 32 w
  | .unsupportedFormat op => BitVec.ofNat 32 op
  | .resourceLimit sub => BitVec.ofNat 32 sub
  | .overlap => 0
  | .truncated off => BitVec.ofNat 32 off
  | .malformedStream sub => BitVec.ofNat 32 sub
  | .outputOverflow limit => BitVec.ofNat 32 limit
  | .busError addr => BitVec.ofNat 32 addr
  | .badMode gray => BitVec.ofNat 32 gray

/-- Fault entry (60_exceptions R430), one indivisible step: the phase returns to IDLE, the fault is recorded, the
result registers are zeroed; `SRC_POS`, every operand register, `OVR`, `DONE` and `IRQ_EN` keep their values. -/
def takeFault (t : Trap) (s : State) : State :=
  { s with
    phase := .idle
    err := true
    ecode := trapCode t
    einfo := trapInfo t
    dstPos := 0
    tile := 0 }

/-- Return from a fault: what `CLR` clears (47_system_commands R401, 60_exceptions R436). Nothing is restored,
because nothing was saved. -/
def acknowledge (s : State) : State :=
  { s with
    done := false
    err := false
    ovr := false
    ecode := 0
    einfo := 0
    dstPos := 0
    tile := 0 }

/-- A host write is dropped and `OVR` set (10_state R38). -/
def dropWrite (s : State) : State := { s with ovr := true }

/-- The first fault of an ordered list of checks (60_exceptions R433). -/
def firstTrap : List (Bool × Trap) → Option Trap
  | [] => none
  | (c, t) :: rest => if c then some t else firstTrap rest

/-! ## Memory accesses of a command -/

/-- Read one byte; an invalid address faults `BUS_ERROR` (20_memory R78). -/
def readByte (mm : List Region) (m : Memory) (a : Nat) : Except Trap Byte :=
  if memValid mm a then .ok (memGet m a) else .error (.busError a)

/-- `MemRead(addr, n)` (00_scope R9). -/
def readBytes (mm : List Region) (m : Memory) : Nat → Nat → Except Trap (List Byte)
  | _, 0 => .ok []
  | a, n + 1 => do
    let b ← readByte mm m a
    let bs ← readBytes mm m (a + 1) n
    return b :: bs

/-- Store one byte; an invalid address faults `BUS_ERROR` and is not written (20_memory R78). -/
def storeByte (mm : List Region) (m : Memory) (a : Nat) (b : Byte) : Except Trap Memory :=
  if memValid mm a then .ok (memPut m a b) else .error (.busError a)

/-- `MemWrite(addr, n, B)` (00_scope R9). -/
def storeBytes (mm : List Region) : Memory → Nat → List Byte → Except Trap Memory
  | m, _, [] => .ok m
  | m, a, b :: bs => do
    let m' ← storeByte mm m a b
    storeBytes mm m' (a + 1) bs

/-- The `n` bytes from an address on, as memory holds them: what the CDU wrote there itself (45_zpf_inflate R323). -/
def peekBytes (m : Memory) : Nat → Nat → List Byte
  | _, 0 => []
  | a, n + 1 => memGet m a :: peekBytes m (a + 1) n

/-! ## Unspecified bytes -/

/-- Every valid byte of `n` addresses from `a` on takes a free value (log 5). -/
def fillFree (mm : List Region) (ctr : Nat) : Nat → Nat → Memory → Memory
  | _, 0, m => m
  | a, n + 1, m =>
    fillFree mm ctr (a + 1) n (if memValid mm a then memPut m a (Config.freeByte ctr a) else m)

/-- Every valid byte of each range takes a free value. -/
def fillFreeRanges (mm : List Region) (ctr : Nat) : List Range → Memory → Memory
  | [], m => m
  | r :: rs, m => fillFreeRanges mm ctr rs (fillFree mm ctr r.base r.len m)

/-- The bytes of the ranges become unspecified (60_exceptions R435): "havoc on exactly those bytes". -/
def havoc (rs : List Range) (s : State) : State :=
  match rs with
  | [] => s
  | _ => { s with mem := fillFreeRanges s.memMap s.freeCtr rs s.mem, freeCtr := s.freeCtr + 1 }

/-! ## How a command runs and ends -/

/-- What a command that completes leaves: the memory, the source bytes it consumed, and the result registers; `tile`
is `none` where the command leaves `TILE` alone (10_state R32, R36). -/
structure Finished where
  mem : Memory
  used : Nat
  dstPos : Nat
  tile : Option Nat
  deriving DecidableEq, Repr

/-- Completion (10_state R39, 40_bcd_common_bc1 R157), one indivisible step. -/
def complete (o : Operands) (f : Finished) (s : State) : State :=
  { s with
    phase := .idle
    done := true
    mem := f.mem
    regs := { s.regs with srcPos := BitVec.ofNat 32 (o.srcPos.toNat + f.used) }
    dstPos := BitVec.ofNat 32 f.dstPos
    tile := match f.tile with
      | some n => BitVec.ofNat 32 n
      | none => s.tile }

/-- The rule of a command, as a function of the operand snapshot: the windows it uses (20_memory R77), its start
checks (60_exceptions R433 stages 2 to 6), the source addresses and the destination and scratch ranges it is
entitled to (R429), the ranges left unspecified by completion (44_zpf_filters R291, R292), and its computation in
the written order. -/
structure Rule where
  windows : Operands → List Range
  check : Operands → Option Trap
  source : Operands → Range
  outputs : Operands → List Range
  scratch : Operands → List Range
  run : List Region → Operands → Memory → Except Trap Finished

/-- The invalid address that `BUS_ERROR` reports instead of the written-order outcome: any invalid address of the
entitled set may be chosen, and only one (60_exceptions R429; log 8). -/
def busChoice (r : Rule) (o : Operands) (s : State) : Option Nat :=
  let entitled := r.source o :: r.outputs o
  if entitled.all (rangeCovered s.memMap) then none
  else
    let a := Config.busAddr s.freeCtr
    if entitled.any (fun x => inRange x a) && !memValid s.memMap a then some a else none

/-- A fault met while running: the entitled destination and scratch bytes become unspecified, then fault entry
(60_exceptions R430, R435). -/
def faultRunning (r : Rule) (o : Operands) (t : Trap) (s : State) : State :=
  takeFault t (havoc (r.outputs o) s)

/-- The end of a command whose computation finished: completion, with the scratch bytes unspecified. -/
def finishCommand (r : Rule) (o : Operands) (f : Finished) (s : State) : State :=
  havoc (r.scratch o) (complete o f s)

/-- Evaluate a command's rule against a snapshot and end it (10_state R39; 60_exceptions R433): the start checks, then
the run, with `BUS_ERROR` as R429 allows it. -/
def endCommand (r : Rule) (o : Operands) (s : State) : State :=
  match r.check o with
  | some t => takeFault t s
  | none =>
    match busChoice r o s with
    | some a => faultRunning r o (.busError a) s
    | none =>
      match r.run s.memMap o s.mem with
      | .error t => faultRunning r o t s
      | .ok f => finishCommand r o f s

/-- The meaning of a command over its rule. While the phase is BUSY it is the pending command's end, on the snapshot
(10_state R39). In IDLE it is the command word written to `CMD` and carried out with no time spent BUSY (R487): the
write is dropped while a fault is recorded (47_system_commands R405), else `DONE` is cleared, the command's windows are
held from then on (R480), and it runs on the live registers, which are what acceptance snapshots (log 12). -/
def runRule (r : Rule) (s : State) : Host.Outcome State Fault Refusal :=
  match s.phase with
  | .busy p => .next (endCommand r p.ops s)
  | .idle =>
    if s.err then .next (dropWrite s)
    else .next (endCommand r s.regs { s with done := false, held := r.windows s.regs ++ s.held })

end Sys2Proof.Machine
end

