-- ==== Sys2Proof/Machine/Operands.lean ====
section
/-! DEFINITION. What commands read from the operand snapshot (10_state R27 to R35), the start checks they share
(20_memory R79, R80), and the register block as the host reads and writes it (10_state R21, R22). -/

namespace Sys2Proof.Machine

/-! ## Fields of the operand registers -/

/-- `MODE.GRAY` (10_state R27). -/
def grayOf (o : Operands) : Nat := slice o.mode.toNat 2 0

/-- `MODE.ZLIB` (10_state R27). -/
def zlibOf (o : Operands) : Bool := bitAt o.mode.toNat 8 == 1

/-- `W = sext_32(x[WIDTH])` (10_state R33). -/
def planeW (o : Operands) : Int := o.width.toInt

/-- `H = sext_32(x[HEIGHT])` (10_state R33). -/
def planeH (o : Operands) : Int := o.height.toInt

/-- `n = COUNT` (10_state R34). -/
def countOf (o : Operands) : Nat := o.count.toNat

/-- The source window (10_state R29, 20_memory R77). -/
def srcWindow (o : Operands) : Range := ⟨o.srcBase.toNat, o.srcLen.toNat⟩

/-- The destination window (10_state R31). -/
def dstWindow (o : Operands) : Range := ⟨o.dstBase.toNat, o.dstLen.toNat⟩

/-- The scratch window (10_state R35). -/
def tmpWindow (o : Operands) : Range := ⟨o.tmpBase.toNat, o.tmpLen.toNat⟩

/-! ## Start checks -/

/-- The window would pass the end of the memory space (20_memory R79). -/
def wraps (w : Range) : Bool := decide (w.base + w.len > Config.addrSpace)

/-- Two of the windows share a byte (20_memory R80). -/
def anyOverlap : List Range → Bool
  | [] => false
  | w :: ws => ws.any (rangesOverlap w) || anyOverlap ws

/-- The `used` source bytes from the cursor on, clipped to the source window: the source part of the entitled set
(60_exceptions R429). -/
def sourceFrom (o : Operands) (used : Nat) : Range :=
  ⟨o.srcBase.toNat + o.srcPos.toNat, min used (o.srcLen.toNat - o.srcPos.toNat)⟩

/-! ## The register block -/

/-- The registers by name, and the reserved offsets (10_state R22, R37). -/
inductive Reg where
  | cmd
  | status
  | einfo
  | irqEn
  | mode
  | srcBase
  | srcLen
  | srcPos
  | dstBase
  | dstLen
  | dstStride
  | dstPos
  | width
  | height
  | count
  | tmpBase
  | tmpLen
  | tile
  | reserved
  deriving DecidableEq, Repr

/-- The register at an offset (10_state R22). -/
def regAt : Nat → Reg
  | 0x00 => .cmd
  | 0x04 => .status
  | 0x08 => .einfo
  | 0x0C => .irqEn
  | 0x10 => .mode
  | 0x14 => .srcBase
  | 0x18 => .srcLen
  | 0x1C => .srcPos
  | 0x20 => .dstBase
  | 0x24 => .dstLen
  | 0x28 => .dstStride
  | 0x2C => .dstPos
  | 0x30 => .width
  | 0x34 => .height
  | 0x38 => .count
  | 0x3C => .tmpBase
  | 0x40 => .tmpLen
  | 0x44 => .tile
  | _ => .reserved

/-- The offset of an access the register block takes: 32 bits wide, aligned, inside the 256 bytes at `REG_BASE`
(10_state R21, 20_memory R74). -/
def regOffset (regBase addr : Nat) (width : BusWidth) : Option Nat :=
  if width = .w32 ∧ regBase ≤ addr ∧ addr < regBase + 256 ∧ (addr - regBase) % 4 = 0 then some (addr - regBase)
  else none

/-- The bits of `MODE` that exist: `GRAY` and `ZLIB` (10_state R27). -/
def modeMask : Word := 0x107

/-- The bits of `IRQ_EN` that exist (10_state R26). -/
def irqEnMask : Word := 0x3

/-- Store into an operand register (47_system_commands R403); `none` where the register is no operand register. -/
def writeOperand (r : Reg) (v : Word) (o : Operands) : Option Operands :=
  match r with
  | .mode => some { o with mode := v &&& modeMask }
  | .srcBase => some { o with srcBase := v }
  | .srcLen => some { o with srcLen := v }
  | .srcPos => some { o with srcPos := v }
  | .dstBase => some { o with dstBase := v }
  | .dstLen => some { o with dstLen := v }
  | .dstStride => some { o with dstStride := v }
  | .width => some { o with width := v }
  | .height => some { o with height := v }
  | .count => some { o with count := v }
  | .tmpBase => some { o with tmpBase := v }
  | .tmpLen => some { o with tmpLen := v }
  | .cmd | .status | .einfo | .irqEn | .dstPos | .tile | .reserved => none

end Sys2Proof.Machine
end

