-- ==== Sys2Proof/Machine/Flags.lean ====
section
/-! DEFINITION. The flags: `STATUS` as a word, the interrupt output, and what a host read of a register returns
(10_state R24, R38, R44; 47_system_commands R402). The CDU has no condition codes (R38). -/

namespace Sys2Proof.Machine

/-- `STATUS.BUSY`: 1 while the phase is BUSY (10_state R24). -/
def busyFlag (s : State) : Bool :=
  match s.phase with
  | .idle => false
  | .busy _ => true

/-- `STATUS` as a word: `BUSY` bit 0, `DONE` 1, `ERR` 2, `OVR` 3, `ECODE` 15:8, the rest 0 (10_state R24). -/
def statusWord (s : State) : Word :=
  BitVec.ofNat 32
    ((busyFlag s).toNat + 2 * s.done.toNat + 4 * s.err.toNat + 8 * s.ovr.toNat + 256 * s.ecode.toNat)

/-- The interrupt output, a level (10_state R44, 60_exceptions R440); 0 while `rst` is asserted
(70_reset_and_hazards R470). -/
def irq (s : State) : Bool :=
  !s.rst && ((s.done && s.irqEn.getLsbD 0) || (s.err && s.irqEn.getLsbD 1))

/-- What a host read of a register returns (47_system_commands R402): `CMD` and the reserved offsets read 0, reserved
bits read 0. -/
def readReg (r : Reg) (s : State) : Word :=
  match r with
  | .cmd => 0
  | .status => statusWord s
  | .einfo => s.einfo
  | .irqEn => s.irqEn &&& irqEnMask
  | .mode => s.regs.mode &&& modeMask
  | .srcBase => s.regs.srcBase
  | .srcLen => s.regs.srcLen
  | .srcPos => s.regs.srcPos
  | .dstBase => s.regs.dstBase
  | .dstLen => s.regs.dstLen
  | .dstStride => s.regs.dstStride
  | .dstPos => s.dstPos
  | .width => s.regs.width
  | .height => s.regs.height
  | .count => s.regs.count
  | .tmpBase => s.regs.tmpBase
  | .tmpLen => s.regs.tmpLen
  | .tile => s.tile
  | .reserved => 0

end Sys2Proof.Machine
end

