-- ==== Sys2Proof/Machine/Bcd.lean ====
section
/-! DEFINITION. The block decompressor: the plane loop every BCD command shares (40_bcd_common_bc1 R150 to R159), the
BC1 block (R160 to R164), the alpha block and the BC3, BC4 and BC5 blocks (41_bcd_bc3_bc4_bc5 R190 to R211), the two
rejected formats (R214, R215), and the meanings of the BCD commands but BCD.BC7, whose block is in Bc7.lean. -/

namespace Sys2Proof.Machine

/-! ## BC1 -/

/-- Three 8-bit channels as integers. -/
structure Rgb where
  r : Nat
  g : Nat
  b : Nat
  deriving DecidableEq, Repr

/-- A texel from four channel values below 256. -/
def mkTexel (r g b a : Nat) : Texel :=
  ⟨BitVec.ofNat 8 r, BitVec.ofNat 8 g, BitVec.ofNat 8 b, BitVec.ofNat 8 a⟩

/-- `BC_EXPAND` for a 5-bit field: its top three bits repeated below (R161; log 11). -/
def expand5 (v : Nat) : Nat := (v <<< 3) ||| (v >>> 2)

/-- `BC_EXPAND` for a 6-bit field: its top two bits repeated below (R161; log 11). -/
def expand6 (v : Nat) : Nat := (v <<< 2) ||| (v >>> 4)

/-- `Expand565(c)` (R160, R161): red in bits 15:11, green in 10:5, blue in 4:0 (30_encoding R106). -/
def expand565 (c : Nat) : Rgb := ⟨expand5 (slice c 15 11), expand6 (slice c 10 5), expand5 (slice c 4 0)⟩

/-- `BC_INTERP`: the rounding of the palette interpolation, floor division (00_scope R6; log 11). -/
def bcInterp (num den : Nat) : Nat := num / den

/-- One weighted palette entry, channel by channel: `(wx·x + wy·y) div den`, opaque. -/
def bc1Mix (wx wy den : Nat) (x y : Rgb) : Texel :=
  mkTexel (bcInterp (wx * x.r + wy * y.r) den) (bcInterp (wx * x.g + wy * y.g) den)
    (bcInterp (wx * x.b + wy * y.b) den) 255

/-- The four-colour palette (R162). -/
def bc1Four (e0 e1 : Rgb) : List Texel :=
  [mkTexel e0.r e0.g e0.b 255, mkTexel e1.r e1.g e1.b 255, bc1Mix 2 1 3 e0 e1, bc1Mix 1 2 3 e0 e1]

/-- The three-colour palette with transparent black (R163). -/
def bc1Three (e0 e1 : Rgb) : List Texel :=
  [mkTexel e0.r e0.g e0.b 255, mkTexel e1.r e1.g e1.b 255, bc1Mix 1 1 2 e0 e1, mkTexel 0 0 0 0]

/-- The palette of a colour block; `allow3 = false` is BC3's reading (R164; `BC3_COLOR_MODE`, log 11). -/
def bc1Palette (c0 c1 : Nat) (allow3 : Bool) : List Texel :=
  if c0 > c1 ∨ allow3 = false then bc1Four (expand565 c0) (expand565 c1)
  else bc1Three (expand565 c0) (expand565 c1)

/-- A texel outside every palette; no index reaches it, since the palettes have as many entries as indices. -/
def noTexel : Texel := mkTexel 0 0 0 0

/-- `Bc1Color(B, allow3)` (R164): texel `i` is the palette entry of index `idx[2i+1:2i]`. -/
def bc1Color (bs : List Byte) (allow3 : Bool) : List Texel :=
  let pal := bc1Palette (leAt bs 0 2) (leAt bs 2 2) allow3
  let idx := leAt bs 4 4
  (List.range 16).map fun i => pal.getD (slice idx (2 * i + 1) (2 * i)) noTexel

/-- `Bc1Block(B)` (R164). -/
def bc1Block (bs : List Byte) : List Texel := bc1Color bs true

/-! ## The alpha block, BC3, BC4, BC5 -/

/-- The eight-entry table, for `a0 > a1` (41_bcd_bc3_bc4_bc5 R192). -/
def alphaEight (a0 a1 : Nat) : List Nat :=
  [a0, a1] ++ [2, 3, 4, 5, 6, 7].map fun k => bcInterp ((8 - k) * a0 + (k - 1) * a1) 7

/-- The six-entry table with the constants 0 and 255, for `a0 ≤ a1` (R193). -/
def alphaSix (a0 a1 : Nat) : List Nat :=
  [a0, a1] ++ ([2, 3, 4, 5].map fun k => bcInterp ((6 - k) * a0 + (k - 1) * a1) 5) ++ [0, 255]

/-- `AlphaBlock(B)` (R190, R191, R194). -/
def alphaBlock (bs : List Byte) : List Nat :=
  let a0 := leAt bs 0 1
  let a1 := leAt bs 1 1
  let tab := if a0 > a1 then alphaEight a0 a1 else alphaSix a0 a1
  let aidx := leAt bs 2 6
  (List.range 16).map fun i => tab.getD (slice aidx (3 * i + 2) (3 * i)) 0

/-- `Bc3Block(B)` (R200, R201): the alpha half first, the colour half always four-colour. -/
def bc3Block (bs : List Byte) : List Texel :=
  (bc1Color (bs.drop 8) false).zipWith (fun t a => { t with a := BitVec.ofNat 8 a }) (alphaBlock (bs.take 8))

/-- `Bc4Block(B)` (R205). -/
def bc4Block (bs : List Byte) : List Texel := (alphaBlock bs).map fun v => mkTexel v v v 255

/-- `Bc5Third(r, g)`, the third channel of a BC5 texel: the constant 0 (R211; log 11). -/
def bc5Third (_r _g : Nat) : Nat := 0

/-- `Bc5Block(B)` (R210): the red half first. -/
def bc5Block (bs : List Byte) : List Texel :=
  (alphaBlock (bs.take 8)).zipWith (fun r g => mkTexel r g (bc5Third r g) 255) (alphaBlock ((bs.drop 8).take 8))

/-! ## The plane loop -/

/-- `W` as a natural number; the start checks refuse a negative one (R152). -/
def planeWidth (o : Operands) : Nat := (planeW o).toNat

/-- `H` as a natural number. -/
def planeHeight (o : Operands) : Nat := (planeH o).toNat

/-- `TX = ceil(W / 4)` (R153). -/
def tilesX (o : Operands) : Nat := ceilDiv (planeWidth o) 4

/-- `N = TX · TY` (R153). -/
def tileCount (o : Operands) : Nat := tilesX o * ceilDiv (planeHeight o) 4

/-- `Extent` (R152 step 5): the bytes from `DST_BASE` to the end of the last texel; 0 for an empty plane. -/
def planeExtent (o : Operands) : Nat :=
  if planeW o > 0 ∧ planeH o > 0 then (planeHeight o - 1) * o.dstStride.toNat + 4 * planeWidth o else 0

/-- The start checks of a BCD decode command, in the order of R152. -/
def bcdCheck (o : Operands) : Option Trap :=
  firstTrap
    [(decide (planeW o < 0), .resourceLimit 1),
     (decide (planeH o < 0), .resourceLimit 2),
     (wraps (srcWindow o), .resourceLimit 3),
     (wraps (dstWindow o), .resourceLimit 4),
     (decide (planeW o > 0 ∧ planeH o > 0 ∧ o.dstStride.toNat < 4 * planeWidth o), .resourceLimit 6),
     (decide (planeExtent o > o.dstLen.toNat), .resourceLimit 7),
     (anyOverlap [srcWindow o, dstWindow o], .overlap)]

/-- The source offset of tile `k`'s block (R153). -/
def blockOffset (size : Nat) (o : Operands) (k : Nat) : Nat := o.srcPos.toNat + k * size

/-- Read tile `k`'s block; too few bytes fault `TRUNCATED` with the offset the block would start at (R153, R154). -/
def fetchBlock (size : Nat) (mm : List Region) (o : Operands) (k : Nat) (m : Memory) :
    Except Trap (List Byte) :=
  if blockOffset size o k + size > o.srcLen.toNat then .error (.truncated (blockOffset size o k))
  else readBytes mm m (o.srcBase.toNat + blockOffset size o k) size

/-- The column of texel `i` of tile `k` in the plane (R155). -/
def texelX (o : Operands) (k i : Nat) : Nat := 4 * (k % tilesX o) + i % 4

/-- The row of texel `i` of tile `k` in the plane (R155). -/
def texelY (o : Operands) (k i : Nat) : Nat := 4 * (k / tilesX o) + i / 4

/-- The address of the texel at column `x`, row `y` (R155). -/
def texelAddr (o : Operands) (x y : Nat) : Nat := o.dstBase.toNat + y * o.dstStride.toNat + 4 * x

/-- Store the texels of tile `k` from texel `i` on, dropping those outside the plane (R155, R156). -/
def storeTile (mm : List Region) (o : Operands) (k : Nat) : Nat → List Texel → Memory → Except Trap Memory
  | _, [], m => .ok m
  | i, t :: ts, m =>
    if texelX o k i < planeWidth o ∧ texelY o k i < planeHeight o then do
      let m' ← storeBytes mm m (texelAddr o (texelX o k i) (texelY o k i)) [t.r, t.g, t.b, t.a]
      storeTile mm o k (i + 1) ts m'
    else storeTile mm o k (i + 1) ts m

/-- One iteration of the tile loop of R153. -/
def bcdTile (block : List Byte → List Texel) (size : Nat) (mm : List Region) (o : Operands) (k : Nat)
    (m : Memory) : Except Trap Memory := do
  let bs ← fetchBlock size mm o k m
  storeTile mm o k 0 (block bs) m

/-- The tile loop from tile `k` on, `n` tiles long (R153): tile `k` is at `(k mod TX, k div TX)`. -/
def bcdLoop (block : List Byte → List Texel) (size : Nat) (mm : List Region) (o : Operands) :
    Nat → Nat → Memory → Except Trap Memory
  | 0, _, m => .ok m
  | n + 1, k, m => do
    let m' ← bcdTile block size mm o k m
    bcdLoop block size mm o n (k + 1) m'

/-- What a completed BCD decode command leaves (R157). -/
def bcdFinished (size : Nat) (o : Operands) (m : Memory) : Finished where
  mem := m
  used := tileCount o * size
  dstPos := planeExtent o
  tile := some (tileCount o)

/-- The rule of a BCD decode command with block function `block` and block size `size` (R150 to R159). -/
def bcdRule (block : List Byte → List Texel) (size : Nat) : Rule where
  windows o := [srcWindow o, dstWindow o]
  check := bcdCheck
  source o := sourceFrom o (tileCount o * size)
  outputs o := [⟨o.dstBase.toNat, planeExtent o⟩]
  scratch _ := []
  run mm o m := (bcdLoop block size mm o (tileCount o) 0 m).map (bcdFinished size o)

/-- The rule of a recognised, unimplemented format: `UNSUPPORTED_FORMAT` before any operand is looked at
(60_exceptions R423). -/
def unsupportedRule (op : Nat) : Rule where
  windows _ := []
  check _ := some (.unsupportedFormat op)
  source _ := ⟨0, 0⟩
  outputs _ := []
  scratch _ := []
  run _ _ _ := .error (.unsupportedFormat op)

/-! ## The meanings -/

/-- `BCD.BC1` (40_bcd_common_bc1 R165). -/
def execBcdBc1 (s : State) : Host.Outcome State Fault Refusal := runRule (bcdRule bc1Block 8) s

/-- `BCD.BC2` (41_bcd_bc3_bc4_bc5 R214): always `UNSUPPORTED_FORMAT`. -/
def execBcdBc2 (s : State) : Host.Outcome State Fault Refusal := runRule (unsupportedRule 0x11) s

/-- `BCD.BC3` (R202). -/
def execBcdBc3 (s : State) : Host.Outcome State Fault Refusal := runRule (bcdRule bc3Block 16) s

/-- `BCD.BC4` (R206). -/
def execBcdBc4 (s : State) : Host.Outcome State Fault Refusal := runRule (bcdRule bc4Block 8) s

/-- `BCD.BC5` (R212). -/
def execBcdBc5 (s : State) : Host.Outcome State Fault Refusal := runRule (bcdRule bc5Block 16) s

/-- `BCD.BC7S` (R215): always `UNSUPPORTED_FORMAT`. -/
def execBcdBc7s (s : State) : Host.Outcome State Fault Refusal := runRule (unsupportedRule 0x16) s

end Sys2Proof.Machine
end

