-- ==== Sys2Proof/Machine/Bc7.lean ====
section
/-! DEFINITION. The BC7 block (42_bcd_bc7 R220 to R237, the tables of 43_bcd_bc7_tables), the command BCD.BC7 (R238),
and the meanings of the nine BC7 block rows: what decoding one block at the tile cursor does. -/

namespace Sys2Proof.Machine

/-! ## Endpoints -/

/-- The mode has p-bits (R227). -/
def bc7HasP (p : Bc7Params) : Bool := p.epb == 1 || p.spb == 1

/-- The p-bit of endpoint `e`: its own, or its subset's (R227). -/
def bc7Pbit (p : Bc7Params) (f : Bc7Fields) (e : Nat) : Nat :=
  if p.epb = 1 then f.p.getD e 0 else f.p.getD (e / 2) 0

/-- The width of a channel after the p-bit step: `cprec`, `aprec` (R227). -/
def bc7Prec (p : Bc7Params) (w : Nat) : Nat := if bc7HasP p then w + 1 else w

/-- A raw endpoint channel with its p-bit appended where the mode has p-bits (R226, R227). -/
def bc7Raw (p : Bc7Params) (f : Bc7Fields) (ch : List Nat) (e : Nat) : Nat :=
  if bc7HasP p then 2 * ch.getD e 0 + bc7Pbit p f e else ch.getD e 0

/-- `Unq(v, w)`: a `w`-bit value widened to 8 bits (R228). -/
def bc7Unq (v w : Nat) : Nat := (v <<< (8 - w)) ||| (v >>> (2 * w - 8))

/-- A colour channel of endpoint `e`, widened (R228). -/
def bc7Colour (p : Bc7Params) (f : Bc7Fields) (ch : List Nat) (e : Nat) : Nat :=
  bc7Unq (bc7Raw p f ch e) (bc7Prec p p.cb)

/-- The alpha of endpoint `e`, widened; 255 in a mode without alpha (R228, R229). -/
def bc7Alpha (p : Bc7Params) (f : Bc7Fields) (e : Nat) : Nat :=
  if p.ab = 0 then 255 else bc7Unq (bc7Raw p f f.a e) (bc7Prec p p.ab)

/-! ## Subsets, anchors, indices -/

/-- `sub(i)`: the subset of texel `i` (R230). -/
def bc7Subset (p : Bc7Params) (part i : Nat) : Nat :=
  if p.ns = 1 then 0 else if p.ns = 2 then bc7P2 part i else bc7P3 part i

/-- The anchor texels (R231). -/
def bc7Anchors (p : Bc7Params) (part : Nat) : List Nat :=
  if p.ns = 1 then [0]
  else if p.ns = 2 then [0, bc7A2.getD part 0]
  else [0, bc7A3A.getD part 0, bc7A3B.getD part 0]

/-- An index set of `ib`-bit indices, one bit fewer at the anchors, in texel order (R232, R233). -/
def bc7Indices (ib : Nat) (anchors : List Nat) (v : Nat) : List Nat :=
  unpack ((List.range 16).map fun i => if anchors.contains i then ib - 1 else ib) v

/-- The indices that drive colour, with their width (R234). -/
def bc7ColourIndices (p : Bc7Params) (f : Bc7Fields) : Nat × List Nat :=
  if p.ib2 = 0 ∨ f.isel = 0 then (p.ib, bc7Indices p.ib (bc7Anchors p f.part) f.idx1)
  else (p.ib2, bc7Indices p.ib2 [0] f.idx2)

/-- The indices that drive alpha, with their width (R234). -/
def bc7AlphaIndices (p : Bc7Params) (f : Bc7Fields) : Nat × List Nat :=
  if p.ib2 = 0 ∨ f.isel ≠ 0 then (p.ib, bc7Indices p.ib (bc7Anchors p f.part) f.idx1)
  else (p.ib2, bc7Indices p.ib2 [0] f.idx2)

/-! ## Texels -/

/-- `Lerp(x0, x1, w)` (R235). -/
def bc7Lerp (x0 x1 w : Nat) : Nat := ((64 - w) * x0 + w * x1 + 32) >>> 6

/-- The weight of texel `i` under an index set (R235, 43_bcd_bc7_tables R265). -/
def bc7Weight (idx : Nat × List Nat) (i : Nat) : Nat := (bc7Weights idx.1).getD (idx.2.getD i 0) 0

/-- The rotation, applied to the interpolated texel (R236). -/
def bc7Rotate (rot : Nat) (t : Texel) : Texel :=
  match rot with
  | 1 => { t with r := t.a, a := t.r }
  | 2 => { t with g := t.a, a := t.g }
  | 3 => { t with b := t.a, a := t.b }
  | _ => t

/-- Texel `i` of a block (R237). -/
def bc7Texel (p : Bc7Params) (f : Bc7Fields) (i : Nat) : Texel :=
  let e0 := 2 * bc7Subset p f.part i
  let cw := bc7Weight (bc7ColourIndices p f) i
  let aw := bc7Weight (bc7AlphaIndices p f) i
  let lerp ch := bc7Lerp (bc7Colour p f ch e0) (bc7Colour p f ch (e0 + 1)) cw
  bc7Rotate f.rot
    (mkTexel (lerp f.r) (lerp f.g) (lerp f.b) (bc7Lerp (bc7Alpha p f e0) (bc7Alpha p f (e0 + 1)) aw))

/-- The sixteen texels of a mode-`m` block with the given fields (R237). -/
def bc7Texels (m : Nat) (f : Bc7Fields) : List Texel := (List.range 16).map (bc7Texel (bc7Params m) f)

/-- The sixteen texels of the reserved mode, whatever the other bytes hold (R222). -/
def bc7ReservedTexels : List Texel := List.replicate 16 (mkTexel 0 0 0 0)

/-- `Bc7Block(B)` (R237). -/
def bc7Block (bs : List Byte) : List Texel :=
  match bc7ModeOf (leAt bs 0 16) with
  | some m => bc7Texels m (bc7FieldsOf m (leAt bs 0 16))
  | none => bc7ReservedTexels

/-! ## The meanings -/

/-- `BCD.BC7` (R238). -/
def execBcdBc7 (s : State) : Host.Outcome State Fault Refusal := runRule (bcdRule bc7Block 16) s

/-- The `CMD` word of `BCD.BC7` (30_encoding R101). -/
def bc7Word : Word := 0x15

/-- Decoding a block at the tile cursor: the texels go into the tile buffer of the pending `BCD.BC7` (10_state R43).
With no such command pending there is no tile buffer, and the row has no meaning (log 12). -/
def fillTile (ts : List Texel) (s : State) : Host.Outcome State Fault Refusal :=
  match s.phase with
  | .idle => .refused .noBlockExpected
  | .busy p =>
    match p.work with
    | .bcd k _ =>
      if p.word = bc7Word then .next { s with phase := .busy { p with work := .bcd k ts } }
      else .refused .noBlockExpected
    | .notBegun | .inflate _ => .refused .noBlockExpected

/-- A block of mode 0: three subsets, 4-bit colours, a p-bit per endpoint (R223, R237). -/
def execBc7Mode0 (f : Bc7Fields) (s : State) : Host.Outcome State Fault Refusal := fillTile (bc7Texels 0 f) s

/-- A block of mode 1: two subsets, 6-bit colours, a p-bit per subset (R223, R237). -/
def execBc7Mode1 (f : Bc7Fields) (s : State) : Host.Outcome State Fault Refusal := fillTile (bc7Texels 1 f) s

/-- A block of mode 2: three subsets, 5-bit colours (R223, R237). -/
def execBc7Mode2 (f : Bc7Fields) (s : State) : Host.Outcome State Fault Refusal := fillTile (bc7Texels 2 f) s

/-- A block of mode 3: two subsets, 7-bit colours, a p-bit per endpoint (R223, R237). -/
def execBc7Mode3 (f : Bc7Fields) (s : State) : Host.Outcome State Fault Refusal := fillTile (bc7Texels 3 f) s

/-- A block of mode 4: one subset, rotation, index selection, two index sets (R223, R237). -/
def execBc7Mode4 (f : Bc7Fields) (s : State) : Host.Outcome State Fault Refusal := fillTile (bc7Texels 4 f) s

/-- A block of mode 5: one subset, rotation, two index sets (R223, R237). -/
def execBc7Mode5 (f : Bc7Fields) (s : State) : Host.Outcome State Fault Refusal := fillTile (bc7Texels 5 f) s

/-- A block of mode 6: one subset, 4-bit indices, a p-bit per endpoint (R223, R237). -/
def execBc7Mode6 (f : Bc7Fields) (s : State) : Host.Outcome State Fault Refusal := fillTile (bc7Texels 6 f) s

/-- A block of mode 7: two subsets with alpha, a p-bit per endpoint (R223, R237). -/
def execBc7Mode7 (f : Bc7Fields) (s : State) : Host.Outcome State Fault Refusal := fillTile (bc7Texels 7 f) s

/-- A block with no mode bit: sixteen transparent black texels; bytes 1 to 15 are ignored (R222). -/
def execBc7Reserved (_ignored : BitVec 120) (s : State) : Host.Outcome State Fault Refusal :=
  fillTile bc7ReservedTexels s

end Sys2Proof.Machine
end

