-- ==== Sys2Proof/Machine/Zpf.lean ====
section
/-! DEFINITION. The four byte filters and their commands, and the composite ZPF.FILT (44_zpf_filters R280 to R294).
The other composite, ZPF.UNZIP, is in Inflate.lean. -/

namespace Sys2Proof.Machine

/-! ## The filters as functions -/

/-- The recurrence of `Recon`, from the previous output byte on (R282); bytes are taken modulo 256. -/
def reconFrom : Byte → List Byte → List Byte
  | _, [] => []
  | prev, y :: ys => (prev + y - 128) :: reconFrom (prev + y - 128) ys

/-- `Recon` (R282). -/
def recon : List Byte → List Byte
  | [] => []
  | y :: ys => y :: reconFrom y ys

/-- Alternate two strings, the first one's byte first; what is left of the longer one follows. -/
def alternate : List Byte → List Byte → List Byte
  | [], bs => bs
  | x :: xs, [] => x :: xs
  | x :: xs, y :: ys => x :: y :: alternate xs ys

/-- `h = (n + 1) div 2`, the length of the first half (R284). -/
def firstHalf (bs : List Byte) : Nat := (bs.length + 1) / 2

/-- `Intlv` (R284): the first half gives the even positions, the second half the odd ones. -/
def intlv (bs : List Byte) : List Byte := alternate (bs.take (firstHalf bs)) (bs.drop (firstHalf bs))

/-- The bytes at even positions. -/
def evens : List Byte → List Byte
  | [] => []
  | [x] => [x]
  | x :: _ :: t => x :: evens t

/-- The bytes at odd positions. -/
def odds : List Byte → List Byte
  | [] => []
  | [_] => []
  | _ :: y :: t => y :: odds t

/-- `Reord` (R286): even positions, then odd positions. -/
def reord (bs : List Byte) : List Byte := evens bs ++ odds bs

/-- The recurrence of `Decon`, from the previous input byte on (R288). -/
def deconFrom : Byte → List Byte → List Byte
  | _, [] => []
  | prev, y :: ys => (y - prev + BitVec.ofNat 8 0x180) :: deconFrom y ys

/-- `Decon` (R288). -/
def decon : List Byte → List Byte
  | [] => []
  | y :: ys => y :: deconFrom y ys

/-! ## The commands -/

/-- The start checks of R281; steps 3 and 5 and the scratch window of step 6 are `ZPF.FILT`'s only. -/
def filterCheck (scratch : Bool) (o : Operands) : Option Trap :=
  firstTrap
    [(wraps (srcWindow o), .resourceLimit 3),
     (wraps (dstWindow o), .resourceLimit 4),
     (scratch && wraps (tmpWindow o), .resourceLimit 5),
     (decide (countOf o > o.dstLen.toNat), .resourceLimit 7),
     (scratch && decide (countOf o > o.tmpLen.toNat), .resourceLimit 8),
     (anyOverlap ([srcWindow o, dstWindow o] ++ if scratch then [tmpWindow o] else []), .overlap),
     (decide (countOf o > 0 ∧ o.srcPos.toNat > o.srcLen.toNat), .truncated o.srcPos.toNat),
     (decide (countOf o > 0 ∧ countOf o > o.srcLen.toNat - o.srcPos.toNat), .truncated o.srcLen.toNat)]

/-- The input string of R280. -/
def filterInput (mm : List Region) (o : Operands) (m : Memory) : Except Trap (List Byte) :=
  readBytes mm m (o.srcBase.toNat + o.srcPos.toNat) (countOf o)

/-- What a completed filter command leaves (R294). -/
def filterFinished (o : Operands) (m : Memory) : Finished where
  mem := m
  used := countOf o
  dstPos := countOf o
  tile := none

/-- The rule of a filter command (R280, R281, R294). -/
def filterRule (f : List Byte → List Byte) : Rule where
  windows o := [srcWindow o, dstWindow o]
  check := filterCheck false
  source o := sourceFrom o (countOf o)
  outputs o := [⟨o.dstBase.toNat, countOf o⟩]
  scratch _ := []
  run mm o m := do
    let bs ← filterInput mm o m
    let m' ← storeBytes mm m o.dstBase.toNat (f bs)
    return filterFinished o m'

/-- The rule of `ZPF.FILT` (R292): the reordered bytes are kept in the scratch window. -/
def filtRule : Rule where
  windows o := [srcWindow o, dstWindow o, tmpWindow o]
  check := filterCheck true
  source o := sourceFrom o (countOf o)
  outputs o := [⟨o.dstBase.toNat, countOf o⟩, ⟨o.tmpBase.toNat, countOf o⟩]
  scratch o := [⟨o.tmpBase.toNat, countOf o⟩]
  run mm o m := do
    let bs ← filterInput mm o m
    let m1 ← storeBytes mm m o.tmpBase.toNat (reord bs)
    let m2 ← storeBytes mm m1 o.dstBase.toNat (decon (reord bs))
    return filterFinished o m2

/-- `ZPF.RECON` (R283). -/
def execZpfRecon (s : State) : Host.Outcome State Fault Refusal := runRule (filterRule recon) s

/-- `ZPF.INTLV` (R285). -/
def execZpfIntlv (s : State) : Host.Outcome State Fault Refusal := runRule (filterRule intlv) s

/-- `ZPF.REORD` (R287). -/
def execZpfReord (s : State) : Host.Outcome State Fault Refusal := runRule (filterRule reord) s

/-- `ZPF.DECON` (R289). -/
def execZpfDecon (s : State) : Host.Outcome State Fault Refusal := runRule (filterRule decon) s

/-- `ZPF.FILT` (R292). -/
def execZpfFilt (s : State) : Host.Outcome State Fault Refusal := runRule filtRule s

end Sys2Proof.Machine
end

