-- ==== Sys2Proof/Machine/Inflate.lean ====
section
/-! DEFINITION. The DEFLATE decoder (45_zpf_inflate R310 to R332), the commands ZPF.INFLATE (R328) and ZPF.UNZIP
(44_zpf_filters R291), and the meanings of the four DEFLATE block rows. -/

namespace Sys2Proof.Machine

/-! ## The bit reader -/

/-- Where a stream is read from and where its output goes: `start` is `P0` (R311), `outBase` and `limit` are the
output base and the output limit (R331). -/
structure InflateEnv where
  mm : List Region
  mem : Memory
  ops : Operands
  start : Nat
  outBase : Nat
  limit : Nat
  deriving DecidableEq, Repr

/-- `TRUNCATED` with the offset of the first byte that does not exist (R330). -/
def streamTruncated (o : Operands) : Trap :=
  .truncated (if o.srcPos.toNat ≤ o.srcLen.toNat then o.srcLen.toNat else o.srcPos.toNat)

/-- The source byte at an offset from `SRC_BASE` (R311, R330). -/
def sourceByte (e : InflateEnv) (off : Nat) : Except Trap Byte :=
  if e.ops.srcLen.toNat ≤ off then .error (streamTruncated e.ops)
  else readByte e.mm e.mem (e.ops.srcBase.toNat + off)

/-- `Bit()`: stream bit `q` (R311). -/
def streamBit (e : InflateEnv) (q : Nat) : Except Trap Nat := do
  let b ← sourceByte e (e.start + q / 8)
  return bitAt b.toNat (q % 8)

/-- `Bits(n)` from stream bit `q` on, least significant first (R311). -/
def streamBits (e : InflateEnv) : Nat → Nat → Except Trap Nat
  | 0, _ => .ok 0
  | n + 1, q => do
    let b ← streamBit e q
    let v ← streamBits e n (q + 1)
    return b + 2 * v

/-- `AlignByte()` (R311). -/
def alignByte (q : Nat) : Nat := 8 * ceilDiv q 8

/-! ## The output -/

/-- The decoder between symbols: the bit position, the emitted bytes with the last one first, and how many they are. -/
structure Inf where
  q : Nat
  rev : List Byte
  len : Nat
  deriving DecidableEq, Repr

/-- `Emit(b)` (R312, R331): the byte that does not fit faults; a byte stored to an invalid address faults
(20_memory R78). -/
def emit (e : InflateEnv) (b : Byte) (st : Inf) : Except Trap Inf :=
  if e.limit ≤ st.len then .error (.outputOverflow e.limit)
  else if memValid e.mm (e.outBase + st.len) then .ok { st with rev := b :: st.rev, len := st.len + 1 }
  else .error (.busError (e.outBase + st.len))

/-- `Copy(len, dist)` (R323): the index is evaluated afresh for every byte. -/
def copyBytes (e : InflateEnv) (dist : Nat) : Nat → Inf → Except Trap Inf
  | 0, st => .ok st
  | n + 1, st => do
    let st' ← emit e (st.rev.getD (dist - 1) 0) st
    copyBytes e dist n st'

/-! ## Huffman codes -/

/-- One codeword: its length, its value (first stream bit most significant), its symbol (R317). -/
structure Codeword where
  len : Nat
  code : Nat
  sym : Nat
  deriving DecidableEq, Repr

/-- `count[l]`; `count[0]` is 0 (R317). -/
def lengthCount (lens : List Nat) (l : Nat) : Nat :=
  if l = 0 then 0 else (lens.filter fun x => x == l).length

/-- `next[l]`, the first code of length `l` (R317). -/
def firstCode (lens : List Nat) : Nat → Nat
  | 0 => 0
  | 1 => 0
  | l + 2 => 2 * (firstCode lens (l + 1) + lengthCount lens (l + 1))

/-- Give out the codes in symbol order; `next` holds the next code of each length (R317). -/
def assignCodes : List Nat → Nat → List Nat → List Codeword
  | _, _, [] => []
  | next, s, l :: ls =>
    if l = 0 then assignCodes next (s + 1) ls
    else ⟨l, next.getD l 0, s⟩ :: assignCodes (next.set l (next.getD l 0 + 1)) (s + 1) ls

/-- The canonical code of a list of lengths (R317). -/
def canonicalCode (lens : List Nat) : List Codeword :=
  assignCodes ((List.range 16).map (firstCode lens)) 0 lens

/-- `K` of R318. -/
def kraftSum (lens : List Nat) : Nat := (lens.map fun l => if l = 0 then 0 else 2 ^ (15 - l)).sum

/-- The set is complete (R318). -/
def completeSet (lens : List Nat) : Bool := kraftSum lens == 2 ^ 15

/-- The lengths of the symbols that have a code. -/
def usedLengths (lens : List Nat) : List Nat := lens.filter fun l => l != 0

/-- Admissible lengths of the code-length alphabet (R318). -/
def codeLengthsOk (lens : List Nat) : Bool := completeSet lens

/-- Admissible lengths of the literal/length alphabet (R318). -/
def litLengthsOk (lens : List Nat) : Bool := completeSet lens || usedLengths lens == [1]

/-- Admissible lengths of the distance alphabet (R318). -/
def distLengthsOk (lens : List Nat) : Bool :=
  completeSet lens || usedLengths lens == [1] || usedLengths lens == []

/-- Some codeword longer than `l` has `c` as its first `l` bits: the test of R319. -/
def hasLonger (cs : List Codeword) (l c : Nat) : Bool :=
  cs.any fun w => decide (l < w.len) && w.code >>> (w.len - l) == c

/-- `Decode(C)` (R319) from stream bit `q` on, `l` bits `c` already read: the symbol and the bit position after it.
No code is longer than 15 bits, so `fuel` = 16 is never used up (log 20). -/
def decodeSym (e : InflateEnv) (cs : List Codeword) : Nat → Nat → Nat → Nat → Except Trap (Nat × Nat)
  | 0, _, _, _ => .error (.malformedStream 10)
  | fuel + 1, l, c, q =>
    if hasLonger cs l c then do
      let b ← streamBit e q
      match cs.find? fun w => w.len == l + 1 && w.code == 2 * c + b with
      | some w => .ok (w.sym, q + 1)
      | none => decodeSym e cs fuel (l + 1) (2 * c + b) (q + 1)
    else .error (.malformedStream 10)

/-- `Decode(C)` at stream bit `q` (R319). -/
def nextSym (e : InflateEnv) (cs : List Codeword) (q : Nat) : Except Trap (Nat × Nat) := decodeSym e cs 16 0 0 q

/-! ## Blocks -/

/-- Emit `n` whole bytes of the stream (R313). -/
def storedBytes (e : InflateEnv) : Nat → Inf → Except Trap Inf
  | 0, st => .ok st
  | n + 1, st => do
    let v ← streamBits e 8 st.q
    let st' ← emit e (BitVec.ofNat 8 v) { st with q := st.q + 8 }
    storedBytes e n st'

/-- `StoredBlock()` (R313). -/
def storedBlock (e : InflateEnv) (st : Inf) : Except Trap Inf := do
  let len ← streamBits e 16 (alignByte st.q)
  let nlen ← streamBits e 16 (alignByte st.q + 16)
  if nlen ≠ len ^^^ 0xFFFF then .error (.malformedStream 2)
  else storedBytes e len { st with q := alignByte st.q + 32 }

/-- `LBASE` (R321). -/
def lengthBase : List Nat :=
  [3, 4, 5, 6, 7, 8, 9, 10, 11, 13, 15, 17, 19, 23, 27, 31, 35, 43, 51, 59, 67, 83, 99, 115, 131, 163, 195, 227, 258]

/-- `LEXT` (R321). -/
def lengthExtra : List Nat :=
  [0, 0, 0, 0, 0, 0, 0, 0, 1, 1, 1, 1, 2, 2, 2, 2, 3, 3, 3, 3, 4, 4, 4, 4, 5, 5, 5, 5, 0]

/-- `DBASE` (R322). -/
def distBase : List Nat :=
  [1, 2, 3, 4, 5, 7, 9, 13, 17, 25, 33, 49, 65, 97, 129, 193, 257, 385, 513, 769, 1025, 1537, 2049, 3073, 4097,
   6145, 8193, 12289, 16385, 24577]

/-- `DEXT` (R322). -/
def distExtra : List Nat :=
  [0, 0, 0, 0, 1, 1, 2, 2, 3, 3, 4, 4, 5, 5, 6, 6, 7, 7, 8, 8, 9, 9, 10, 10, 11, 11, 12, 12, 13, 13]

/-- What follows a length symbol (R320): the extra length bits, the distance symbol, its extra bits, the copy. -/
def lengthSymbol (e : InflateEnv) (dd : List Codeword) (s : Nat) (st : Inf) : Except Trap Inf := do
  let lx ← streamBits e (lengthExtra.getD (s - 257) 0) st.q
  let (d, q) ← nextSym e dd (st.q + lengthExtra.getD (s - 257) 0)
  if 30 ≤ d then .error (.malformedStream 10)
  else do
    let dx ← streamBits e (distExtra.getD d 0) q
    let dist := distBase.getD d 0 + dx
    if st.len < dist then .error (.malformedStream 11)
    else copyBytes e dist (lengthBase.getD (s - 257) 0 + lx) { st with q := q + distExtra.getD d 0 }

/-- `HuffmanBlock(LL, DD)` (R320). Every symbol takes at least one stream bit, so a fuel above the number of bits of
the source window is never used up (R332; log 20). -/
def huffmanBlock (e : InflateEnv) (ll dd : List Codeword) : Nat → Inf → Except Trap Inf
  | 0, _ => .error (streamTruncated e.ops)
  | fuel + 1, st => do
    let (s, q) ← nextSym e ll st.q
    if s < 256 then do
      let st' ← emit e (BitVec.ofNat 8 s) { st with q := q }
      huffmanBlock e ll dd fuel st'
    else if s = 256 then .ok { st with q := q }
    else if 286 ≤ s then .error (.malformedStream 10)
    else do
      let st' ← lengthSymbol e dd s { st with q := q }
      huffmanBlock e ll dd fuel st'

/-- A fuel above the number of stream bits the source window can give. -/
def streamFuel (e : InflateEnv) : Nat := 8 * e.ops.srcLen.toNat + 1

/-- The 288 literal/length code lengths of the fixed code (R314). -/
def fixedLitLengths : List Nat :=
  List.replicate 144 8 ++ List.replicate 112 9 ++ List.replicate 24 7 ++ List.replicate 8 8

/-- The 32 distance code lengths of the fixed code (R314). -/
def fixedDistLengths : List Nat := List.replicate 32 5

/-- A block in the fixed codes (R314, R320). -/
def fixedBlock (e : InflateEnv) (st : Inf) : Except Trap Inf :=
  huffmanBlock e (canonicalCode fixedLitLengths) (canonicalCode fixedDistLengths) (streamFuel e) st

/-- `CLORD` (R315). -/
def codeLengthOrder : List Nat := [16, 17, 18, 0, 8, 7, 9, 6, 10, 5, 11, 4, 12, 3, 13, 2, 14, 1, 15]

/-- `cl[CLORD[j]] := Bits(3)` for the symbols of a list in turn (R315). -/
def readCodeLengths (e : InflateEnv) : List Nat → List Nat → Nat → Except Trap (List Nat × Nat)
  | [], cl, q => .ok (cl, q)
  | s :: ss, cl, q => do
    let v ← streamBits e 3 q
    readCodeLengths e ss (cl.set s v) (q + 3)

/-- One code-length symbol's lengths (R316): the lengths read so far, the last one first, and the bit position. -/
def applyCodeLength (e : InflateEnv) (s : Nat) (rev : List Nat) (q : Nat) : Except Trap (List Nat × Nat) :=
  if s ≤ 15 then .ok (s :: rev, q)
  else if s = 16 then
    match rev with
    | [] => .error (.malformedStream 5)
    | v :: _ => do
      let r ← streamBits e 2 q
      return (List.replicate (3 + r) v ++ rev, q + 2)
  else if s = 17 then do
    let r ← streamBits e 3 q
    return (List.replicate (3 + r) 0 ++ rev, q + 3)
  else do
    let r ← streamBits e 7 q
    return (List.replicate (11 + r) 0 ++ rev, q + 7)

/-- `ReadLengths(CL, total)` (R316). Every symbol gives at least one length, so a fuel of `total + 1` is never used up
(log 20). -/
def readLengths (e : InflateEnv) (cl : List Codeword) (total : Nat) :
    Nat → List Nat → Nat → Except Trap (List Nat × Nat)
  | 0, _, _ => .error (.malformedStream 6)
  | fuel + 1, rev, q =>
    if total ≤ rev.length then .ok (rev.reverse, q)
    else do
      let (s, q1) ← nextSym e cl q
      let (rev', q2) ← applyCodeLength e s rev q1
      if total < rev'.length then .error (.malformedStream 6)
      else readLengths e cl total fuel rev' q2

/-- The last four checks of `DynamicHeader()`, in order (R315). -/
def dynamicCodes (hlit : Nat) (lens : List Nat) : Except Trap (List Codeword × List Codeword) :=
  if lens.getD 256 0 = 0 then .error (.malformedStream 7)
  else if litLengthsOk (lens.take hlit) = false then .error (.malformedStream 8)
  else if distLengthsOk (lens.drop hlit) = false then .error (.malformedStream 9)
  else .ok (canonicalCode (lens.take hlit), canonicalCode (lens.drop hlit))

/-- `DynamicHeader()` (R315): the two codes and the bit position after the header. -/
def dynamicHeader (e : InflateEnv) (q : Nat) : Except Trap (List Codeword × List Codeword × Nat) := do
  let hlit ← streamBits e 5 q
  let hdist ← streamBits e 5 (q + 5)
  let hclen ← streamBits e 4 (q + 10)
  if hlit + 257 > 286 ∨ hdist + 1 > 30 then .error (.malformedStream 3)
  else do
    let (cl, q1) ← readCodeLengths e (codeLengthOrder.take (hclen + 4)) (List.replicate 19 0) (q + 14)
    if codeLengthsOk cl = false then .error (.malformedStream 4)
    else do
      let total := hlit + 257 + (hdist + 1)
      let (lens, q2) ← readLengths e (canonicalCode cl) total (total + 1) [] q1
      let (ll, dd) ← dynamicCodes (hlit + 257) lens
      return (ll, dd, q2)

/-- A block with its own codes (R315, R320). -/
def dynamicBlock (e : InflateEnv) (st : Inf) : Except Trap Inf := do
  let (ll, dd, q) ← dynamicHeader e st.q
  huffmanBlock e ll dd (streamFuel e) { st with q := q }

/-- A block of the reserved type (R312). -/
def reservedBlock (_e : InflateEnv) (_st : Inf) : Except Trap Inf := .error (.malformedStream 1)

/-- The body of a block by `BTYPE` (R312). -/
def blockBody : Nat → InflateEnv → Inf → Except Trap Inf
  | 0 => storedBlock
  | 1 => fixedBlock
  | 2 => dynamicBlock
  | _ => reservedBlock

/-- The block loop of `Inflate` (R312). A block header takes three bits, so the fuel is never used up (log 20). -/
def inflateBlocks (e : InflateEnv) : Nat → Inf → Except Trap Inf
  | 0, _ => .error (streamTruncated e.ops)
  | fuel + 1, st => do
    let bfinal ← streamBits e 1 st.q
    let btype ← streamBits e 2 (st.q + 1)
    let st' ← blockBody btype e { st with q := st.q + 3 }
    if bfinal = 1 then .ok st' else inflateBlocks e fuel st'

/-! ## zlib framing -/

/-- Adler-32's two sums over more bytes (R327). -/
def adlerSums : Nat × Nat → List Byte → Nat × Nat
  | ab, [] => ab
  | (a, b), x :: xs => adlerSums ((a + x.toNat) % 65521, (b + (a + x.toNat) % 65521) % 65521) xs

/-- `Adler32` from its two sums (R327). -/
def adlerValue (ab : Nat × Nat) : Nat := ab.2 * 65536 + ab.1

/-- The checks of the two zlib header bytes (R326). -/
def zlibHeaderOk (cmf flg : Nat) : Bool :=
  slice cmf 3 0 == 8 && decide (slice cmf 7 4 ≤ 7) && (256 * cmf + flg) % 31 == 0 && bitAt flg 5 == 0

/-- The stream's start `P0` (R311), after the zlib header where there is one (R326). -/
def streamStart (o : Operands) : Nat := if zlibOf o then o.srcPos.toNat + 2 else o.srcPos.toNat

/-- Read and check the zlib header, if there is one (R326). -/
def readHeader (e : InflateEnv) : Except Trap Unit :=
  if zlibOf e.ops then do
    let cmf ← sourceByte e e.ops.srcPos.toNat
    let flg ← sourceByte e (e.ops.srcPos.toNat + 1)
    if zlibHeaderOk cmf.toNat flg.toNat then .ok () else .error (.malformedStream 12)
  else .ok ()

/-- Read the zlib trailer, if there is one, and compare it with the Adler-32 sums of the output (R326). -/
def readTrailer (e : InflateEnv) (q : Nat) (ab : Nat × Nat) : Except Trap Unit :=
  if zlibOf e.ops then do
    let t0 ← sourceByte e (e.start + ceilDiv q 8)
    let t1 ← sourceByte e (e.start + ceilDiv q 8 + 1)
    let t2 ← sourceByte e (e.start + ceilDiv q 8 + 2)
    let t3 ← sourceByte e (e.start + ceilDiv q 8 + 3)
    if beNat [t0, t1, t2, t3] = adlerValue ab then .ok () else .error (.malformedStream 13)
  else .ok ()

/-- The source bytes consumed (R325, R326). -/
def bytesUsed (o : Operands) (q : Nat) : Nat :=
  if zlibOf o then 2 + ceilDiv q 8 + 4 else ceilDiv q 8

/-- `InflateStream(limit)` (R312, R326): the output and the source bytes consumed. -/
def inflateStream (e : InflateEnv) : Except Trap (List Byte × Nat) := do
  readHeader e
  let st ← inflateBlocks e (streamFuel e) ⟨0, [], 0⟩
  readTrailer e st.q (adlerSums (1, 0) st.rev.reverse)
  return (st.rev.reverse, bytesUsed e.ops st.q)

/-! ## The commands -/

/-- The start checks of `ZPF.INFLATE` (R328). -/
def inflateCheck (o : Operands) : Option Trap :=
  firstTrap
    [(wraps (srcWindow o), .resourceLimit 3),
     (wraps (dstWindow o), .resourceLimit 4),
     (anyOverlap [srcWindow o, dstWindow o], .overlap)]

/-- The start checks of `ZPF.UNZIP` (44_zpf_filters R291). -/
def unzipCheck (o : Operands) : Option Trap :=
  firstTrap
    [(wraps (srcWindow o), .resourceLimit 3),
     (wraps (dstWindow o), .resourceLimit 4),
     (wraps (tmpWindow o), .resourceLimit 5),
     (anyOverlap [srcWindow o, dstWindow o, tmpWindow o], .overlap)]

/-- `L`, the output limit of `ZPF.UNZIP` (44_zpf_filters R291). -/
def unzipLimit (o : Operands) : Nat := min o.dstLen.toNat o.tmpLen.toNat

/-- The source bytes an inflating command may read: up to the end of the window (60_exceptions R429). -/
def streamSource (o : Operands) : Range := sourceFrom o (o.srcLen.toNat - o.srcPos.toNat)

/-- The stream of `ZPF.INFLATE`. -/
def inflateEnv (mm : List Region) (o : Operands) (m : Memory) : InflateEnv :=
  ⟨mm, m, o, streamStart o, o.dstBase.toNat, o.dstLen.toNat⟩

/-- The stream of `ZPF.UNZIP`: its output goes to the scratch window. -/
def unzipEnv (mm : List Region) (o : Operands) (m : Memory) : InflateEnv :=
  ⟨mm, m, o, streamStart o, o.tmpBase.toNat, unzipLimit o⟩

/-- What a completed inflating command leaves. -/
def inflateFinished (used n : Nat) (m : Memory) : Finished where
  mem := m
  used := used
  dstPos := n
  tile := none

/-- The rule of `ZPF.INFLATE` (R328). -/
def inflateRule : Rule where
  windows o := [srcWindow o, dstWindow o]
  check := inflateCheck
  source := streamSource
  outputs o := [dstWindow o]
  scratch _ := []
  run mm o m := do
    let (out, used) ← inflateStream (inflateEnv mm o m)
    let m' ← storeBytes mm m o.dstBase.toNat out
    return inflateFinished used out.length m'

/-- Reconstruct and interleave the inflated bytes and store them (44_zpf_filters R291). -/
def unzipStore (mm : List Region) (o : Operands) (t : List Byte) (m : Memory) : Except Trap Memory :=
  storeBytes mm m o.dstBase.toNat (intlv (recon t))

/-- The rule of `ZPF.UNZIP` (44_zpf_filters R291). -/
def unzipRule : Rule where
  windows o := [srcWindow o, dstWindow o, tmpWindow o]
  check := unzipCheck
  source := streamSource
  outputs o := [⟨o.dstBase.toNat, unzipLimit o⟩, ⟨o.tmpBase.toNat, unzipLimit o⟩]
  scratch o := [⟨o.tmpBase.toNat, unzipLimit o⟩]
  run mm o m := do
    let (t, used) ← inflateStream (unzipEnv mm o m)
    let m1 ← storeBytes mm m o.tmpBase.toNat t
    let m2 ← unzipStore mm o t m1
    return inflateFinished used t.length m2

/-- `ZPF.INFLATE` (R328). -/
def execZpfInflate (s : State) : Host.Outcome State Fault Refusal := runRule inflateRule s

/-- `ZPF.UNZIP` (44_zpf_filters R291). -/
def execZpfUnzip (s : State) : Host.Outcome State Fault Refusal := runRule unzipRule s

/-! ## The block rows -/

/-- The `CMD` word of `ZPF.INFLATE` (30_encoding R101). -/
def inflateWord : Word := 0x24

/-- The `CMD` word of `ZPF.UNZIP` (30_encoding R101). -/
def unzipWord : Word := 0x25

/-- The rule and the stream of a pending inflating command; none for another word. -/
def streamOf (mm : List Region) (m : Memory) (word : Word) (o : Operands) : Option (Rule × InflateEnv) :=
  if word = inflateWord then some (inflateRule, inflateEnv mm o m)
  else if word = unzipWord then some (unzipRule, unzipEnv mm o m)
  else none

/-- The decoder at a block's first bit after its header; the history is read back from the output window (R323). -/
def blockStart (e : InflateEnv) (w : InflateWork) : Inf where
  q := w.q + 3
  rev := (peekBytes e.mem e.outBase w.len).reverse
  len := w.len

/-- The bytes a block has emitted, in order. -/
def newBytes (w : InflateWork) (st : Inf) : List Byte := (st.rev.take (st.len - w.len)).reverse

/-- The working state after a block. -/
def blockWork (bfinal : Bool) (w : InflateWork) (st : Inf) : InflateWork where
  q := st.q
  len := st.len
  last := bfinal
  adlerA := (adlerSums (w.adlerA, w.adlerB) (newBytes w st)).1
  adlerB := (adlerSums (w.adlerA, w.adlerB) (newBytes w st)).2

/-- The end of a block: its bytes are stored after those already emitted (R312), and the working state advances. -/
def endBlock (e : InflateEnv) (bfinal : Bool) (p : Pending) (w : InflateWork) (st : Inf) (s : State) :
    Except Trap State := do
  let m ← storeBytes e.mm e.mem (e.outBase + w.len) (newBytes w st)
  return { s with mem := m, phase := .busy { p with work := .inflate (blockWork bfinal w st) } }

/-- One block of a pending `ZPF.INFLATE` or `ZPF.UNZIP` between blocks (R312): the header's three bits are consumed,
the body is carried out, a fault of it ends the command. With no such command pending the row has no meaning
(log 12). -/
def runBlock (body : InflateEnv → Inf → Except Trap Inf) (bfinal : Bool) (s : State) :
    Host.Outcome State Fault Refusal :=
  match s.phase with
  | .idle => .refused .noBlockExpected
  | .busy p =>
    match p.work, streamOf s.memMap s.mem p.word p.ops with
    | .inflate w, some (r, e) =>
      match body e (blockStart e w) >>= fun st => endBlock e bfinal p w st s with
      | .ok s' => .next s'
      | .error t => .next (faultRunning r p.ops t s)
    | .inflate _, none => .refused .noBlockExpected
    | .notBegun, _ => .refused .noBlockExpected
    | .bcd _ _, _ => .refused .noBlockExpected

/-- A stored block (R313). -/
def execDeflateStored (bfinal : Bool) (s : State) : Host.Outcome State Fault Refusal :=
  runBlock storedBlock bfinal s

/-- A block in the fixed codes (R314, R320). -/
def execDeflateFixed (bfinal : Bool) (s : State) : Host.Outcome State Fault Refusal :=
  runBlock fixedBlock bfinal s

/-- A block with its own codes (R315, R320). -/
def execDeflateDynamic (bfinal : Bool) (s : State) : Host.Outcome State Fault Refusal :=
  runBlock dynamicBlock bfinal s

/-- A block of the reserved type: the command faults `MALFORMED_STREAM` (R312, R329). -/
def execDeflateReserved (bfinal : Bool) (s : State) : Host.Outcome State Fault Refusal :=
  runBlock reservedBlock bfinal s

end Sys2Proof.Machine
end

