-- ==== Sys2Proof/Machine/Nrm.lean ====
section
/-! DEFINITION. The normaliser NRM (46_nrm_normalizer R360 to R378). The per-pixel computation is over exact
rationals, with one rounding per output channel (R362 to R373). -/

namespace Sys2Proof.Machine

/-! ## From bits to a value in [0, 1] -/

/-- The value of a floating-point channel (R362, R363). -/
inductive FloatVal where
  | nan
  | inf (negative : Bool)
  | fin (q : ℚ)
  deriving DecidableEq, Repr

/-- `(-1)^s · m · 2^e / 2^bias`. -/
def scaled (s m e bias : Nat) : ℚ := (if s = 1 then -1 else 1) * (m * 2 ^ e : ℕ) / (2 ^ bias : ℕ)

/-- `Val32(w)` (R362). -/
def val32 (w : Nat) : FloatVal :=
  let s := bitAt w 31
  let e := slice w 30 23
  let m := slice w 22 0
  if e = 255 then (if m = 0 then .inf (s == 1) else .nan)
  else if e = 0 then .fin (scaled s m 0 149)
  else .fin (scaled s (2 ^ 23 + m) e 150)

/-- `Val16(h)` (R363). -/
def val16 (h : Nat) : FloatVal :=
  let s := bitAt h 15
  let e := slice h 14 10
  let m := slice h 9 0
  if e = 31 then (if m = 0 then .inf (s == 1) else .nan)
  else if e = 0 then .fin (scaled s m 0 24)
  else .fin (scaled s (2 ^ 10 + m) e 25)

/-- `NRM_NAN`: the unit value of a NaN channel (R366; log 11). -/
def nrmNan : ℚ := 0

/-- `Clamp01` (R365, R366). -/
def clamp01 : FloatVal → ℚ
  | .nan => nrmNan
  | .inf negative => if negative then 0 else 1
  | .fin q => if q ≤ 0 then 0 else if 1 ≤ q then 1 else q

/-- The three input formats (R361). -/
inductive NrmFormat where
  | f32
  | f16
  | u32
  deriving DecidableEq, Repr

/-- The bytes of one channel; the input pixel size `Z` is four times that (R360). -/
def channelBytes : NrmFormat → Nat
  | .f32 => 4
  | .f16 => 2
  | .u32 => 4

/-- `Z` (R360). -/
def pixelBytes (fmt : NrmFormat) : Nat := 4 * channelBytes fmt

/-- The unit value `u_c` of a channel (R362 to R366, R373). -/
def unitValue : NrmFormat → Nat → ℚ
  | .f32, x => clamp01 (val32 x)
  | .f16, x => clamp01 (val16 x)
  | .u32, x => (x : ℚ) / ((2 ^ 32 - 1 : ℕ) : ℚ)

/-! ## Gray transform, premultiply, quantise -/

/-- Four channels. -/
structure Rgba (α : Type) where
  r : α
  g : α
  b : α
  a : α
  deriving DecidableEq, Repr

/-- The gray preview transform selected by `MODE.GRAY` (R367). Settings 6 and 7 never get here (R369). -/
def grayTransform (g : Nat) (u : Rgba ℚ) : Rgba ℚ :=
  match g with
  | 1 => ⟨u.r, u.r, u.r, 1⟩
  | 2 => ⟨u.g, u.g, u.g, 1⟩
  | 3 => ⟨u.b, u.b, u.b, 1⟩
  | 4 => ⟨u.a, u.a, u.a, 1⟩
  | 5 => ⟨u.r, u.g, u.b, 1⟩
  | _ => u

/-- `NRM_QUANT`: floor (R372; log 11). -/
def nrmQuant (q : ℚ) : Nat := q.floor.toNat

/-- The four unit values of a pixel (R373). -/
def unitPixel (fmt : NrmFormat) (x : Rgba Nat) : Rgba ℚ :=
  ⟨unitValue fmt x.r, unitValue fmt x.g, unitValue fmt x.b, unitValue fmt x.a⟩

/-- Premultiply, scale, quantise (R370 to R372). -/
def premultiplied (t : Rgba ℚ) : Rgba Nat :=
  ⟨nrmQuant (65535 * t.r * t.a), nrmQuant (65535 * t.g * t.a), nrmQuant (65535 * t.b * t.a), nrmQuant (65535 * t.a)⟩

/-- `NrmPixel` (R373). -/
def nrmPixel (fmt : NrmFormat) (g : Nat) (x : Rgba Nat) : Rgba Nat :=
  premultiplied (grayTransform g (unitPixel fmt x))

/-! ## The commands -/

/-- The start checks of an NRM command (R360). -/
def nrmCheck (fmt : NrmFormat) (o : Operands) : Option Trap :=
  let z := pixelBytes fmt
  let remaining := o.srcLen.toNat - o.srcPos.toNat
  firstTrap
    [(decide (grayOf o = 6 ∨ grayOf o = 7), .badMode (grayOf o)),
     (wraps (srcWindow o), .resourceLimit 3),
     (wraps (dstWindow o), .resourceLimit 4),
     (decide (8 * countOf o > o.dstLen.toNat), .resourceLimit 7),
     (anyOverlap [srcWindow o, dstWindow o], .overlap),
     (decide (countOf o > 0 ∧ o.srcPos.toNat > o.srcLen.toNat), .truncated o.srcPos.toNat),
     (decide (countOf o > 0 ∧ z * countOf o > remaining), .truncated (o.srcPos.toNat + z * (remaining / z)))]

/-- The channel bit patterns of the bytes of one input pixel (R361, R375, R376). -/
def pixelChannels (fmt : NrmFormat) (bs : List Byte) : Rgba Nat :=
  let n := channelBytes fmt
  ⟨leAt bs 0 n, leAt bs n n, leAt bs (2 * n) n, leAt bs (3 * n) n⟩

/-- The eight bytes of an output pixel (R374, 30_encoding R122). -/
def pixelOut (p : Rgba Nat) : List Byte := leBytes 2 p.r ++ leBytes 2 p.g ++ leBytes 2 p.b ++ leBytes 2 p.a

/-- One pixel (R375): read pixel `k`, store its result. -/
def nrmOne (fmt : NrmFormat) (mm : List Region) (o : Operands) (k : Nat) (m : Memory) : Except Trap Memory := do
  let bs ← readBytes mm m (o.srcBase.toNat + o.srcPos.toNat + k * pixelBytes fmt) (pixelBytes fmt)
  storeBytes mm m (o.dstBase.toNat + 8 * k) (pixelOut (nrmPixel fmt (grayOf o) (pixelChannels fmt bs)))

/-- `n` pixels from pixel `k` on (R375). -/
def nrmLoop (fmt : NrmFormat) (mm : List Region) (o : Operands) : Nat → Nat → Memory → Except Trap Memory
  | 0, _, m => .ok m
  | n + 1, k, m => do
    let m' ← nrmOne fmt mm o k m
    nrmLoop fmt mm o n (k + 1) m'

/-- What a completed NRM command leaves (R360). -/
def nrmFinished (fmt : NrmFormat) (o : Operands) (m : Memory) : Finished where
  mem := m
  used := pixelBytes fmt * countOf o
  dstPos := 8 * countOf o
  tile := none

/-- The rule of an NRM command (R360, R375). -/
def nrmRule (fmt : NrmFormat) : Rule where
  windows o := [srcWindow o, dstWindow o]
  check := nrmCheck fmt
  source o := sourceFrom o (pixelBytes fmt * countOf o)
  outputs o := [⟨o.dstBase.toNat, 8 * countOf o⟩]
  scratch _ := []
  run mm o m := (nrmLoop fmt mm o (countOf o) 0 m).map (nrmFinished fmt o)

/-- `NRM.F32` (R375). -/
def execNrmF32 (s : State) : Host.Outcome State Fault Refusal := runRule (nrmRule .f32) s

/-- `NRM.F16` (R376). -/
def execNrmF16 (s : State) : Host.Outcome State Fault Refusal := runRule (nrmRule .f16) s

/-- `NRM.U32` (R377). -/
def execNrmU32 (s : State) : Host.Outcome State Fault Refusal := runRule (nrmRule .u32) s

end Sys2Proof.Machine
end

