-- ==== Sys2Proof/Machine/Sys.lean ====
section
/-! DEFINITION. The system commands NOP and CLR (47_system_commands R400, R401) and the acceptance of a command
(R404 case 5, 10_state R39). -/

namespace Sys2Proof.Machine

/-- `NOP` (R400): nothing changes. Its word written while BUSY is not executed but dropped (R406). -/
def execNop (s : State) : Host.Outcome State Fault Refusal :=
  match s.phase with
  | .idle => .next s
  | .busy _ => .next (dropWrite s)

/-- `CLR` (R401): the acknowledge. Its word written while BUSY is dropped (R406). -/
def execClr (s : State) : Host.Outcome State Fault Refusal :=
  match s.phase with
  | .idle => .next (acknowledge s)
  | .busy _ => .next (dropWrite s)

/-- The pending command that the acceptance of word `v` makes: the word and a snapshot of the operand registers
(10_state R39); how long it stays pending and whether it runs block by block are free values (logs 6, 7). -/
def newPending (v : Word) (s : State) : Pending where
  word := v
  ops := s.regs
  work := .notBegun
  left := Config.busyFor s.freeCtr
  byBlock := Config.byBlock s.freeCtr

/-- Acceptance (R404 case 5): `DONE` is cleared and the phase becomes BUSY; no memory is accessed. -/
def acceptCommand (v : Word) (s : State) : State :=
  { s with done := false, phase := .busy (newPending v s), freeCtr := s.freeCtr + 1 }

end Sys2Proof.Machine
end

