-- ==== Sys2Proof/Machine/Dispatch.lean ====
section
/-! DEFINITION. What each instruction does: one arm per constructor of Instr, each one call of its meaning. -/

namespace Sys2Proof.Machine

def exec (i : Instr) (s : State) : Host.Outcome State Fault Refusal :=
  match i with
  -- system commands
  | .nop => Sys2Proof.Machine.execNop s
  | .clr => Sys2Proof.Machine.execClr s
  -- BCD commands
  | .bcdBc1 => Sys2Proof.Machine.execBcdBc1 s
  | .bcdBc2 => Sys2Proof.Machine.execBcdBc2 s
  | .bcdBc3 => Sys2Proof.Machine.execBcdBc3 s
  | .bcdBc4 => Sys2Proof.Machine.execBcdBc4 s
  | .bcdBc5 => Sys2Proof.Machine.execBcdBc5 s
  | .bcdBc7 => Sys2Proof.Machine.execBcdBc7 s
  | .bcdBc7s => Sys2Proof.Machine.execBcdBc7s s
  -- ZPF commands
  | .zpfRecon => Sys2Proof.Machine.execZpfRecon s
  | .zpfIntlv => Sys2Proof.Machine.execZpfIntlv s
  | .zpfReord => Sys2Proof.Machine.execZpfReord s
  | .zpfDecon => Sys2Proof.Machine.execZpfDecon s
  | .zpfInflate => Sys2Proof.Machine.execZpfInflate s
  | .zpfUnzip => Sys2Proof.Machine.execZpfUnzip s
  | .zpfFilt => Sys2Proof.Machine.execZpfFilt s
  -- NRM commands
  | .nrmF32 => Sys2Proof.Machine.execNrmF32 s
  | .nrmF16 => Sys2Proof.Machine.execNrmF16 s
  | .nrmU32 => Sys2Proof.Machine.execNrmU32 s
  -- BC7 blocks
  | .bc7Mode0 f => Sys2Proof.Machine.execBc7Mode0 f s
  | .bc7Mode1 f => Sys2Proof.Machine.execBc7Mode1 f s
  | .bc7Mode2 f => Sys2Proof.Machine.execBc7Mode2 f s
  | .bc7Mode3 f => Sys2Proof.Machine.execBc7Mode3 f s
  | .bc7Mode4 f => Sys2Proof.Machine.execBc7Mode4 f s
  | .bc7Mode5 f => Sys2Proof.Machine.execBc7Mode5 f s
  | .bc7Mode6 f => Sys2Proof.Machine.execBc7Mode6 f s
  | .bc7Mode7 f => Sys2Proof.Machine.execBc7Mode7 f s
  | .bc7Reserved ignored => Sys2Proof.Machine.execBc7Reserved ignored s
  -- DEFLATE blocks
  | .deflateStored bfinal => Sys2Proof.Machine.execDeflateStored bfinal s
  | .deflateFixed bfinal => Sys2Proof.Machine.execDeflateFixed bfinal s
  | .deflateDynamic bfinal => Sys2Proof.Machine.execDeflateDynamic bfinal s
  | .deflateReserved bfinal => Sys2Proof.Machine.execDeflateReserved bfinal s

end Sys2Proof.Machine
end

