-- ==== Sys2Proof/Machine/Fetch.lean ====
section
/-! DEFINITION. What happens next: a host access (10_state R21, 47_system_commands R402 to R404,
70_reset_and_hazards R470 to R473, R480, R481), the fetch of the word or block to decode, or a piece of the pending
command's own work (10_state R39, R43). The CDU has no program counter and no program (R30): its instructions are the
words the host writes and the blocks that the source stream holds. -/

namespace Sys2Proof.Machine

/-- What one step is about. -/
inductive Turn where
  /-- decode these bytes and run the instruction on this state -/
  | fetch (fmt : Format) (bs : List Byte) (s : State)
  /-- a step with no instruction -/
  | goto (s : State)
  /-- the model stops with a fault -/
  | fault (f : Fault)
  /-- the model refuses -/
  | refuse (r : Refusal)

/-! ## The rule of a pending command -/

/-- The block size and block function of a BCD decode command (40_bcd_common_bc1 R151). -/
def blockFormatOf : Instr → Option (Nat × (List Byte → List Texel))
  | .bcdBc1 => some (8, bc1Block)
  | .bcdBc3 => some (16, bc3Block)
  | .bcdBc4 => some (8, bc4Block)
  | .bcdBc5 => some (16, bc5Block)
  | .bcdBc7 => some (16, bc7Block)
  | _ => none

/-- The rule of a command. -/
def ruleOf : Instr → Option Rule
  | .bcdBc1 => some (bcdRule bc1Block 8)
  | .bcdBc2 => some (unsupportedRule 0x11)
  | .bcdBc3 => some (bcdRule bc3Block 16)
  | .bcdBc4 => some (bcdRule bc4Block 8)
  | .bcdBc5 => some (bcdRule bc5Block 16)
  | .bcdBc7 => some (bcdRule bc7Block 16)
  | .bcdBc7s => some (unsupportedRule 0x16)
  | .zpfRecon => some (filterRule recon)
  | .zpfIntlv => some (filterRule intlv)
  | .zpfReord => some (filterRule reord)
  | .zpfDecon => some (filterRule decon)
  | .zpfInflate => some inflateRule
  | .zpfUnzip => some unzipRule
  | .zpfFilt => some filtRule
  | .nrmF32 => some (nrmRule .f32)
  | .nrmF16 => some (nrmRule .f16)
  | .nrmU32 => some (nrmRule .u32)
  | _ => none

/-- The command a pending word stands for, none for an illegal word. -/
def pendingInstr (p : Pending) : Option Instr := (decodeCommand p.word.toNat).toOption

/-- The rule of the pending command, none for an illegal word. -/
def pendingRule (p : Pending) : Option Rule := pendingInstr p >>= ruleOf

/-- The windows of the pending command (20_memory R77). -/
def pendingWindows (p : Pending) : List Range :=
  match pendingRule p with
  | some r => r.windows p.ops
  | none => []

/-- The destination and scratch ranges the pending command is entitled to (60_exceptions R429); none where a start
check ends it before any memory access. -/
def pendingOutputs (p : Pending) : List Range :=
  match pendingRule p with
  | some r => if (r.check p.ops).isNone then r.outputs p.ops else []
  | none => []

/-- The windows of the pending command, none in IDLE. -/
def busyWindows (s : State) : List Range :=
  match s.phase with
  | .idle => []
  | .busy p => pendingWindows p

/-- The windows the host may not write (70_reset_and_hazards R480): those of the pending command, and those of every
command started since a `STATUS` read last showed `BUSY` = 0. -/
def forbiddenWindows (s : State) : List Range := busyWindows s ++ s.held

/-- The span of R480 begins for the command that has just become pending. -/
def holdWindows (s : State) : State := { s with held := forbiddenWindows s }

/-- The ranges whose bytes are unspecified while the command is pending, none in IDLE. -/
def busyOutputs (s : State) : List Range :=
  match s.phase with
  | .idle => []
  | .busy p => pendingOutputs p

/-! ## Host accesses -/

/-- A host write to a register other than `CMD` (47_system_commands R403). -/
def writeReg (r : Reg) (v : Word) (s : State) : State :=
  match r with
  | .irqEn => { s with irqEn := v &&& irqEnMask }
  | _ =>
    match writeOperand r v s.regs with
    | none => s
    | some o => if busyFlag s then dropWrite s else { s with regs := o }

/-- A host read of a register (47_system_commands R402): its value goes to the bus and no register changes. A read of
`STATUS` that shows `BUSY` = 0 ends the span of R480 for every command started before it. -/
def readRegister (r : Reg) (s : State) : State :=
  { s with
    busData := readReg r s
    held := if r = .status ∧ busyFlag s = false then [] else s.held }

/-- A host write of `v` to `CMD` (R404). The words of `NOP` and `CLR` are run at once; another word is accepted, and
decoded after acceptance; from this write on its windows are held (R480). -/
def writeCmd (v : Word) (s : State) : Turn :=
  if busyFlag s then .goto (dropWrite s)
  else if v = 0 ∨ v = 1 then .fetch .command (leBytes 4 v.toNat) s
  else if s.err then .goto (dropWrite s)
  else .goto (holdWindows (acceptCommand v s))

/-- A host read of one byte of memory. While a command is pending a byte it is entitled to write reads as a free
value (70_reset_and_hazards R481; log 24). -/
def hostMemRead (a : Nat) (s : State) : Turn :=
  if memValid s.memMap a then
    if (busyOutputs s).any (inRange · a) then
      .goto { s with busData := (Config.freeByte s.freeCtr a).setWidth 32, freeCtr := s.freeCtr + 1 }
    else .goto { s with busData := (memGet s.mem a).setWidth 32 }
  else .fault (.hostAddress a)

/-- A host write of one byte of memory. A byte of a command's window is refused from the `CMD` write that starts the
command until a `STATUS` read shows `BUSY` = 0 (R480; log 9). -/
def hostMemWrite (a : Nat) (b : Byte) (s : State) : Turn :=
  if memValid s.memMap a then
    if (forbiddenWindows s).any (inRange · a) then .refuse (.hostWroteWindow a)
    else .goto { s with mem := memPut s.mem a b }
  else .fault (.hostAddress a)

/-- `rst` asserted: a pending command is abandoned and the bytes it was entitled to write become unspecified (R473);
every register takes its reset value (R471); memory is not otherwise touched (R472), and what belongs to the platform
stays (log 21). No window is held afterwards: the abandoned command has no result to disturb, and after reset the host
places its input bytes at once (R474; log 26). -/
def assertReset (s : State) : State :=
  let t := havoc (busyOutputs s) s
  { State.reset with
    mem := t.mem
    memMap := t.memMap
    regBase := t.regBase
    rst := true
    hostIn := t.hostIn
    busData := t.busData
    freeCtr := t.freeCtr }

/-- A host access to the register block: refused while `rst` is asserted (R470) and where it is not an aligned 32-bit
access inside the block (10_state R21). -/
def regAccess (addr : Nat) (width : BusWidth) (k : Reg → Turn) (s : State) : Turn :=
  if s.rst then .refuse .registerAccessInReset
  else
    match regOffset s.regBase addr width with
    | none => .refuse (.badRegisterAccess addr)
    | some off => k (regAt off)

/-- One act of the outside world. -/
def hostTurn (act : HostAct) (s : State) : Turn :=
  match act with
  | .regRead addr width => regAccess addr width (fun r => .goto (readRegister r s)) s
  | .regWrite addr width v =>
    regAccess addr width (fun r => if r = .cmd then writeCmd v s else .goto (writeReg r v s)) s
  | .memRead a => hostMemRead a s
  | .memWrite a b => hostMemWrite a b s
  | .assertRst => .goto (assertReset s)
  | .releaseRst => .goto { s with rst := false }

/-! ## The CDU's own turn -/

/-- The pending command's working state changes. -/
def setWork (p : Pending) (w : Work) (s : State) : State := { s with phase := .busy { p with work := w } }

/-- A start-stage fault or, under `BUS_ERROR`'s freedom, a running one (60_exceptions R429, R433); `none` where the
command goes on. -/
def startFault (r : Rule) (o : Operands) (s : State) : Option State :=
  match r.check o with
  | some t => some (takeFault t s)
  | none => (busChoice r o s).map fun a => faultRunning r o (.busError a) s

/-- Begin an inflating command block by block: the start checks, then the zlib header (45_zpf_inflate R326). -/
def beginStream (r : Rule) (e : InflateEnv) (p : Pending) (s : State) : State :=
  match startFault r p.ops s with
  | some t => t
  | none =>
    match readHeader e with
    | .error t => faultRunning r p.ops t s
    | .ok _ => setWork p (.inflate ⟨0, 0, false, 1, 0⟩) s

/-- Begin a BCD decode command tile by tile: the start checks, then the tile cursor at tile 0. -/
def beginTiles (r : Rule) (p : Pending) (s : State) : State :=
  match startFault r p.ops s with
  | some t => t
  | none => setWork p (.bcd 0 []) s

/-- The pending word is fetched and decoded, and its command runs whole; or, where `byBlock` says so and the command
parses blocks, it is begun block by block (log 7). -/
def beginTurn (p : Pending) (s : State) : Turn :=
  let whole := Turn.fetch .command (leBytes 4 p.word.toNat) s
  if p.byBlock then
    match streamOf s.memMap s.mem p.word p.ops with
    | some (r, e) => .goto (beginStream r e p s)
    | none =>
      match pendingInstr p >>= blockFormatOf with
      | some (size, block) => .goto (beginTiles (bcdRule block size) p s)
      | none => whole
  else whole

/-- A BCD decode command between tiles: completion after the last tile; with an empty tile buffer the next block is
fetched, and decoded as a BC7 block row where the command is `BCD.BC7`; a full tile buffer is stored
(40_bcd_common_bc1 R153 to R157). -/
def tileTurn (block : List Byte → List Texel) (size : Nat) (p : Pending) (k : Nat) (tile : List Texel) (s : State) :
    Turn :=
  let r := bcdRule block size
  if tileCount p.ops ≤ k then .goto (finishCommand r p.ops (bcdFinished size p.ops s.mem) s)
  else
    match tile with
    | [] =>
      match fetchBlock size s.memMap p.ops k s.mem with
      | .error t => .goto (faultRunning r p.ops t s)
      | .ok bs => if p.word = bc7Word then .fetch .bc7Block bs s else .goto (setWork p (.bcd k (block bs)) s)
    | t :: ts =>
      match storeTile s.memMap p.ops k 0 (t :: ts) s.mem with
      | .error f => .goto (faultRunning r p.ops f s)
      | .ok m => .goto (setWork p (.bcd (k + 1) []) { s with mem := m })

/-- The end of an inflating command after its last block: the zlib trailer, `ZPF.UNZIP`'s two filters, completion
(45_zpf_inflate R324 to R326, 44_zpf_filters R291). -/
def endStream (r : Rule) (e : InflateEnv) (p : Pending) (w : InflateWork) (s : State) : State :=
  let stored : Except Trap Memory := do
    readTrailer e w.q (w.adlerA, w.adlerB)
    if p.word = unzipWord then unzipStore s.memMap p.ops (peekBytes s.mem e.outBase w.len) s.mem else .ok s.mem
  match stored with
  | .error t => faultRunning r p.ops t s
  | .ok m => finishCommand r p.ops (inflateFinished (bytesUsed p.ops w.q) w.len m) s

/-- An inflating command between blocks: its end after the last block, else the next block header's three bits are
fetched (45_zpf_inflate R312). -/
def streamTurn (r : Rule) (e : InflateEnv) (p : Pending) (w : InflateWork) (s : State) : Turn :=
  if w.last then .goto (endStream r e p w s)
  else
    match streamBits e 3 w.q with
    | .error t => .goto (faultRunning r p.ops t s)
    | .ok v => .fetch .deflateHeader [BitVec.ofNat 8 v] s

/-- A pending command whose working state does not belong to its word, which no run reaches: its word is no command
for that work. -/
def strayWork (p : Pending) (s : State) : Turn := .goto (takeFault (.illegalOp p.word.toNat) s)

/-- The pending command's turn. -/
def cduTurn (p : Pending) (s : State) : Turn :=
  match p.work with
  | .notBegun => beginTurn p s
  | .bcd k tile =>
    match pendingInstr p >>= blockFormatOf with
    | some (size, block) => tileTurn block size p k tile s
    | none => strayWork p s
  | .inflate w =>
    match streamOf s.memMap s.mem p.word p.ops with
    | some (r, e) => streamTurn r e p w s
    | none => strayWork p s

/-- What happens next. In IDLE, and while `rst` is asserted, the CDU does nothing by itself (10_state R39,
70_reset_and_hazards R470): the next host access is served, and without one nothing changes. While BUSY the first
`left` host accesses come before the CDU's turn (log 6). -/
def nextTurn (s : State) : Turn :=
  match s.phase, s.hostIn with
  | .idle, [] => .goto s
  | .idle, act :: rest => hostTurn act { s with hostIn := rest }
  | .busy p, [] => if s.rst then .goto s else cduTurn p s
  | .busy p, act :: rest =>
    if s.rst ∨ 0 < p.left then hostTurn act { s with hostIn := rest, phase := .busy { p with left := p.left - 1 } }
    else cduTurn p s

/-- The fault of bytes that are no instruction: `ILLEGAL_OP` with the word (60_exceptions R422). The formats below a
command get all their bytes, so the second case does not arise. -/
def decodeTrap : DecodeError → Trap
  | .illegalCommand w => .illegalOp w
  | .shortInput => .illegalOp 0

/-! ## Placing an instruction where the next step fetches it -/

/-- Store bytes from an address on, with no check: the host's placing of a program. -/
def placeBytes (a : Nat) : List Byte → Memory → Memory
  | [], m => m
  | b :: bs, m => placeBytes (a + 1) bs (memPut m a b)

/-- A state with no fault recorded, no completion, and `rst` released. -/
def quiet (s : State) : State :=
  { s with rst := false, done := false, err := false, ecode := 0, einfo := 0 }

/-- The next step decodes the pending word `w` (log 1). -/
def placeCommand (w : Word) (s : State) : State :=
  let t := quiet s
  if w = 0 ∨ w = 1 then { t with phase := .idle, hostIn := .regWrite s.regBase .w32 w :: s.hostIn }
  else holdWindows { t with phase := .busy ⟨w, s.regs, .notBegun, 0, false⟩ }

/-- The operand registers under which one block at source address 0 is parsed: a 4 by 4 plane, or a raw stream with
room for its output (log 17). -/
def blockOperands : Operands :=
  { Operands.reset with srcLen := 16, dstBase := 0x1000, dstLen := 64, dstStride := 16, width := 4, height := 4 }

/-- The next step decodes the block or block header in the bytes `bs` (log 17). -/
def placeBlock (word : Word) (work : Work) (bs : List Byte) (s : State) : State :=
  holdWindows
    { quiet s with
      regs := blockOperands
      phase := .busy ⟨word, blockOperands, work, 0, true⟩
      mem := placeBytes 0 bs s.mem
      memMap := ⟨0, 2 ^ 32⟩ :: s.memMap }

end Sys2Proof.Machine
end

