-- ==== Sys2Proof/Machine/Step.lean ====
section
/-! DEFINITION. The one step function, and the state whose next step fetches a given instruction. -/

namespace Sys2Proof.Machine

/-- One step: serve a host access, run the instruction whose bytes are next, or carry on the pending command's work. -/
def step (s : State) : Host.Outcome State Fault Refusal :=
  match nextTurn s with
  | .fetch fmt bs t =>
    match decode fmt bs with
    | .ok i => exec i t
    | .error e => .next (takeFault (decodeTrap e) t)
  | .goto t => .next t
  | .fault f => .fault f
  | .refuse r => .refused r

/-- The state whose next step fetches the instruction whose bits are `w` (logs 1, 16, 17). -/
def State.withFetchWord (s : State) (nbits w : Nat) : State :=
  match tableFormat nbits w with
  | .command => placeCommand (BitVec.ofNat 32 w) s
  | .bc7Block => placeBlock bc7Word (.bcd 0 []) (leBytes 16 w) s
  | .deflateHeader => placeBlock inflateWord (.inflate ⟨0, 0, false, 1, 0⟩) (leBytes 16 w) s

end Sys2Proof.Machine
end

