-- ==== Sys2Proof/Safety.lean ====
section
/-! DEFINITION. What a safe state and a safe run of the machine are, in the terms the statements use: the invariant,
what a completed and a faulted command leave, and which runs are reached. -/

namespace Sys2Proof.Machine

/-! ## The invariant -/

/-- A word that acceptance can make pending: any word but those of `NOP` and `CLR` (47_system_commands R404). -/
def acceptable (w : Word) : Prop := w ≠ 0 ∧ w ≠ 1

/-- The fault record agrees with `ERR`: a code of 60_exceptions R421 and cleared result registers while a fault is
recorded, nothing while none is (10_state R24, R25; R430). -/
def recordOk (s : State) : Prop :=
  (s.err = true → 1 ≤ s.ecode.toNat ∧ s.ecode.toNat ≤ 9 ∧ s.dstPos = 0 ∧ s.tile = 0) ∧
  (s.err = false → s.ecode = 0 ∧ s.einfo = 0)

/-- At most one of `BUSY`, `DONE` and `ERR` is 1 (10_state R24). -/
def oneFlag (s : State) : Prop :=
  ¬(busyFlag s = true ∧ s.done = true) ∧ ¬(busyFlag s = true ∧ s.err = true) ∧ ¬(s.done = true ∧ s.err = true)

/-- The hardwired bits of `MODE` and `IRQ_EN` are 0 (10_state R26, R27). -/
def hardwiredOk (s : State) : Prop := s.regs.mode &&& modeMask = s.regs.mode ∧ s.irqEn &&& irqEnMask = s.irqEn

/-- While BUSY the live operand registers are the snapshot, since every write to them is dropped (10_state R39,
47_system_commands R402, R403). -/
def snapshotOk (s : State) : Prop :=
  match s.phase with
  | .idle => True
  | .busy p => p.ops = s.regs ∧ acceptable p.word

/-- A command that has begun has passed its start checks; its tile buffer is empty or full, its inflated bytes are
inside the output limit (10_state R43, 45_zpf_inflate R331). -/
def workOk (s : State) : Prop :=
  match s.phase with
  | .idle => True
  | .busy p =>
    match p.work with
    | .notBegun => True
    | .bcd _ tile =>
      (tile = [] ∨ tile.length = 16) ∧ bcdCheck p.ops = none ∧
        ∃ size block, (pendingInstr p >>= blockFormatOf) = some (size, block)
    | .inflate w =>
      ∃ r e, streamOf s.memMap s.mem p.word p.ops = some (r, e) ∧ r.check p.ops = none ∧ w.len ≤ e.limit

/-- The windows of the pending command are held (70_reset_and_hazards R480). -/
def heldOk (s : State) : Prop := ∀ x ∈ busyWindows s, x ∈ s.held

/-- While `rst` is asserted there is no pending command, no flag is 1, every register reads 0 and no window is held
(70_reset_and_hazards R470, R471; log 21 for these values already holding before the release, log 26 for the windows). -/
def resetOk (s : State) : Prop :=
  s.rst = true → s.phase = .idle ∧ s.done = false ∧ s.err = false ∧ s.held = [] ∧ ∀ r : Reg, readReg r s = 0

/-- The invariant of the machine. -/
structure Inv (s : State) : Prop where
  mem : s.mem.wf
  flags : oneFlag s
  record : recordOk s
  hardwired : hardwiredOk s
  snapshot : snapshotOk s
  work : workOk s
  held : heldOk s
  rst : resetOk s

/-! ## The ends of a command -/

/-- A command is about to be carried out on the operands `o`: it is pending with the snapshot `o`, or its word is
written in IDLE with no fault recorded (log 12). -/
def atCommand (s : State) (o : Operands) : Prop :=
  s.err = false ∧ s.regs = o ∧
    match s.phase with
    | .idle => True
    | .busy p => p.ops = o ∧ s.done = false

/-- The fields that belong to the platform and to the model's host are as before. -/
structure SamePlatform (s t : State) : Prop where
  memMap : t.memMap = s.memMap
  regBase : t.regBase = s.regBase
  rst : t.rst = s.rst
  hostIn : t.hostIn = s.hostIn
  busData : t.busData = s.busData

/-- A command completed (10_state R39): `SRC_POS` advanced by `used`, `DST_POS` is `pos`, `TILE` is `tile`, and no other
register changed. Memory is said apart. -/
structure CompletedAs (s t : State) (used pos : Nat) (tile : Word) : Prop where
  phase : t.phase = .idle
  done : t.done = true
  err : t.err = false
  ovr : t.ovr = s.ovr
  ecode : t.ecode = s.ecode
  einfo : t.einfo = s.einfo
  irqEn : t.irqEn = s.irqEn
  regs : t.regs = { s.regs with srcPos := BitVec.ofNat 32 (s.regs.srcPos.toNat + used) }
  dstPos : t.dstPos = BitVec.ofNat 32 pos
  tile : t.tile = tile
  platform : SamePlatform s t

/-- A command ended with a fault (60_exceptions R430): the record is written, the result registers are 0, and no other
register changed. Memory is said apart. -/
structure FaultedAs (s t : State) (code info : Nat) : Prop where
  phase : t.phase = .idle
  done : t.done = false
  err : t.err = true
  ovr : t.ovr = s.ovr
  ecode : t.ecode = BitVec.ofNat 8 code
  einfo : t.einfo = BitVec.ofNat 32 info
  irqEn : t.irqEn = s.irqEn
  regs : t.regs = s.regs
  dstPos : t.dstPos = 0
  tile : t.tile = 0
  platform : SamePlatform s t

/-- Which windows are held after the end of a command (70_reset_and_hazards R480): in IDLE its own `CMD` write has just
begun their span (log 12); those of a pending command are held since its acceptance. -/
def heldAfter (r : Rule) (o : Operands) (s : State) : List Range :=
  match s.phase with
  | .idle => r.windows o ++ s.held
  | .busy _ => s.held

/-- Every byte of memory outside the ranges reads as before. -/
def sameOutside (rs : List Range) (s t : State) : Prop :=
  ∀ a, rs.any (inRange · a) = false → memGet t.mem a = memGet s.mem a

/-- Every address of the ranges is valid. -/
def allValid (mm : List Region) (rs : List Range) : Prop :=
  ∀ x ∈ rs, ∀ a, inRange x a = true → memValid mm a = true

/-- The entitled set of a command is wholly valid: the host's duty (60_exceptions R429). -/
def entitledValid (r : Rule) (o : Operands) (s : State) : Prop := allValid s.memMap (r.source o :: r.outputs o)

/-- The source bytes of a command from the cursor on, as memory holds them. -/
def sourceBytes (s : State) (o : Operands) (off n : Nat) : List Byte :=
  peekBytes s.mem (o.srcBase.toNat + o.srcPos.toNat + off) n

/-! ## Values -/

/-- The bytes of a texel: for each colour the value `f` gives it, and the alpha `a`. -/
def texelIs (t : Texel) (f : (Rgb → Nat) → Nat) (a : Nat) : Prop :=
  t.r.toNat = f Rgb.r ∧ t.g.toNat = f Rgb.g ∧ t.b.toNat = f Rgb.b ∧ t.a.toNat = a

/-- The order of the values of floating-point channels, the infinities at its ends; a NaN is no number and is compared
with nothing (46_nrm_normalizer R365, R366). -/
def numberLe (x y : FloatVal) : Prop :=
  match x, y with
  | .fin p, .fin q => p ≤ q
  | .inf neg, .fin _ => neg = true
  | .fin _, .inf neg => neg = false
  | .inf neg, .inf neg' => neg = true ∨ neg' = false
  | .nan, _ => False
  | _, .nan => False

/-- A channel is left alone, or its value is raised (46_nrm_normalizer R378 item 7). -/
def channelLe (fmt : NrmFormat) (x y : Nat) : Prop :=
  match fmt with
  | .f32 => x = y ∨ numberLe (val32 x) (val32 y)
  | .f16 => x = y ∨ numberLe (val16 x) (val16 y)
  | .u32 => x ≤ y

/-! ## Runs -/

/-- A step that does not stop. -/
def stepsTo (s t : State) : Prop := step s = .next t

/-- Finitely many steps lead from one state to the other. -/
inductive Reaches : State → State → Prop where
  | refl (s : State) : Reaches s s
  | tail {s t u : State} (h : Reaches s t) (last : stepsTo t u) : Reaches s u

/-- The pending command has the turn: no host access is served before it (log 6). -/
def cduNext (s : State) (p : Pending) : Prop :=
  s.phase = .busy p ∧ s.rst = false ∧ (s.hostIn = [] ∨ p.left = 0)

/-- The next step serves the host access `act`; `u` is the state on which it acts. -/
def hostNext (s : State) (act : HostAct) (u : State) : Prop :=
  ∃ rest, s.hostIn = act :: rest ∧
    ((s.phase = .idle ∧ u = { s with hostIn := rest }) ∨
     (∃ p, s.phase = .busy p ∧ s.rst = false ∧ 0 < p.left ∧
       u = { s with hostIn := rest, phase := .busy { p with left := p.left - 1 } }))

end Sys2Proof.Machine
end

