-- ==== Sys2Proof/Certificates/Slice0/Obligations.lean ====
section
/-! DEFINITION. The statements about the machine, as propositions. Each docstring names the rules of spec/ a statement
formalises and, where it rests on a choice of the model, the log entry. -/

open Sys2Proof Sys2Proof.Machine

/-! ## Encoding and decoding -/

/-- Decoding the encoding of a well-formed instruction gives it back, for every instruction (30_encoding R100, R101,
R111 to R115, R117). -/
def Obligations.DecodeEncodeRoundTrip : Prop :=
  ∀ i : Instr, wellFormed i = true → decode (formatOf i) (encode i) = .ok i

/-- Every bit of a BC7 block is read exactly once: the row a 128-bit value decodes to is well formed and encodes back to
that value (42_bcd_bc7 R224, R239; 30_encoding R111 to R115). -/
def Obligations.Bc7BlockBitsExact : Prop :=
  ∀ v : Nat, v < 2 ^ 128 → wellFormed (decodeBc7 v) = true ∧ encodeValue (decodeBc7 v) = v

/-- A word decodes to a command exactly when it is that command's whole 32-bit encoding: no bit above `OP` is ignored
(30_encoding R100 to R102). -/
def Obligations.CommandWordExact : Prop :=
  ∀ (w : Nat) (i : Instr), decodeCommand w = .ok i ↔ formatOf i = .command ∧ encodeValue i = w

/-- A few words written out from their encodings decode to the instructions they stand for, and a word with a bit above
`OP` set decodes to none (30_encoding R100 to R102, R117). -/
def Obligations.DecodeKnownWords : Prop :=
  decode .command [0x00, 0x00, 0x00, 0x00] = .ok .nop ∧
  decode .command [0x01, 0x00, 0x00, 0x00] = .ok .clr ∧
  decode .command [0x15, 0x00, 0x00, 0x00] = .ok .bcdBc7 ∧
  decode .command [0x24, 0x00, 0x00, 0x00] = .ok .zpfInflate ∧
  decode .command [0x32, 0x00, 0x00, 0x00] = .ok .nrmU32 ∧
  decode .command [0x00, 0x01, 0x00, 0x00] = .error (.illegalCommand 0x100) ∧
  decode .deflateHeader [0x05] = .ok (.deflateDynamic true) ∧
  decode .deflateHeader [0x02] = .ok (.deflateFixed false)

/-! ## The machine as a whole -/

/-- The state after reset meets the invariant. -/
def Obligations.ResetMeetsInvariant : Prop := Inv State.reset

/-- Every step keeps the invariant: canonical memory; at most one of BUSY, DONE and ERR; a fault record exactly while
ERR is 1; the hardwired bits of MODE and IRQ_EN; the snapshot equal to the live registers; the windows of the pending
command held; while `rst` is asserted no command pending, no flag 1, every register 0 and no window held (10_state R24 to
R27, R39; 60_exceptions R430, R436, R437, R443; 70_reset_and_hazards R471, R480; logs 21 and 26 for the registers and the
windows while `rst` is asserted). -/
def Obligations.StepKeepsInvariant : Prop := ∀ s t : State, Inv s → stepsTo s t → Inv t

/-- A step runs the decoded instruction. Wherever the next turn is to fetch bytes that decode to an instruction, the step
is `exec` of it on the state the turn names. -/
def Obligations.StepRunsDecoded : Prop :=
  ∀ (s t : State) (fmt : Format) (bs : List Byte) (i : Instr),
    nextTurn s = .fetch fmt bs t → decode fmt bs = .ok i → step s = exec i t

/-- Where instructions are fetched: the pending word when the command runs whole; the next 16 source bytes between the
tiles of a `BCD.BC7`; the next three stream bits between the blocks of an inflating command; the word of NOP or CLR
written to CMD in IDLE (10_state R30, R39; 42_bcd_bc7 R220; 45_zpf_inflate R312; 47_system_commands R404; logs 1 and 7
for where the model fetches). -/
def Obligations.StepFetchPlaces : Prop :=
  (∀ (s : State) (p : Pending) (i : Instr), cduNext s p → p.work = .notBegun → p.byBlock = false →
    decodeCommand p.word.toNat = .ok i → step s = exec i s) ∧
  (∀ (s : State) (p : Pending) (k : Nat) (bs : List Byte), cduNext s p → p.word = bc7Word → p.work = .bcd k [] →
    k < tileCount p.ops → fetchBlock 16 s.memMap p.ops k s.mem = .ok bs →
    step s = exec (decodeBc7 (leAt bs 0 16)) s) ∧
  (∀ (s : State) (p : Pending) (w : InflateWork) (r : Rule) (e : InflateEnv) (v : Nat), cduNext s p →
    p.work = .inflate w → w.last = false → streamOf s.memMap s.mem p.word p.ops = some (r, e) →
    streamBits e 3 w.q = .ok v → step s = exec (decodeDeflate v) s) ∧
  (∀ (s : State) (rest : List HostAct) (v : Word) (i : Instr), s.phase = .idle → s.rst = false →
    s.hostIn = .regWrite s.regBase .w32 v :: rest → (v = 0 ∧ i = .nop ∨ v = 1 ∧ i = .clr) →
    step s = exec i { s with hostIn := rest })

/-- A pending word that is none of the nineteen commands faults ILLEGAL_OP with EINFO the word, and no byte of memory
is touched (30_encoding R102; 60_exceptions R422, R430, R434). No window is held for it. -/
def Obligations.IllegalWordFaults : Prop :=
  ∀ (s : State) (p : Pending), cduNext s p → p.work = .notBegun → s.done = false →
    (∀ i, decodeCommand p.word.toNat ≠ .ok i) →
    ∃ t, step s = .next t ∧ FaultedAs s t 0x01 p.word.toNat ∧ t.mem = s.mem ∧ t.held = s.held

/-- Every pending command ends, also one that runs block by block and whatever host accesses wait: the machine reaches
IDLE in finitely many steps of the command's own (70_reset_and_hazards R488; the block by block runs are log 7's, and
that no access is served between their blocks is log 6's). -/
def Obligations.EveryCommandEnds : Prop :=
  ∀ (s : State) (p : Pending), Inv s → cduNext s p → ∃ t, Reaches s t ∧ t.phase = .idle

/-- The grouping of a command's work cannot be observed: a BCD command run tile by tile, and ZPF.INFLATE or ZPF.UNZIP run
block by block, that would complete when run whole reaches exactly the state that the whole run leaves (20_memory R85,
R86; log 7 for the tile by tile and block by block runs). -/
def Obligations.TileByTileIsWhole : Prop :=
  (∀ (s : State) (p : Pending) (size : Nat) (block : List Byte → List Texel), cduNext s p →
    p.work = .notBegun → p.byBlock = true → (pendingInstr p >>= blockFormatOf) = some (size, block) →
    (endCommand (bcdRule block size) p.ops s).err = false →
    Reaches s (endCommand (bcdRule block size) p.ops s)) ∧
  (∀ (s : State) (p : Pending) (r : Rule) (e : InflateEnv), cduNext s p → p.work = .notBegun → p.byBlock = true →
    s.mem.wf → streamOf s.memMap s.mem p.word p.ops = some (r, e) → (endCommand r p.ops s).err = false →
    Reaches s (endCommand r p.ops s))

/-- While a command is pending, no step of its own writes a byte outside the destination and scratch ranges that it is
entitled to, whether or not host accesses wait (20_memory R77, R85; 60_exceptions R429, R435). -/
def Obligations.CommandStaysInItsOutputs : Prop :=
  ∀ (s t : State) (p : Pending), Inv s → cduNext s p → stepsTo s t → sameOutside (pendingOutputs p) s t

/-! ## System commands and the host's register accesses -/

/-- NOP changes nothing in IDLE, also while a fault is recorded; its word written while BUSY is dropped with OVR set
(47_system_commands R400, R406). -/
def Obligations.NopChangesNothing : Prop :=
  decodeCommand 0x00000000 = .ok .nop ∧
  (∀ s : State, s.phase = .idle → exec .nop s = .next s) ∧
  (∀ (s : State) (p : Pending), s.phase = .busy p → exec .nop s = .next { s with ovr := true })

/-- CLR clears DONE, ERR, OVR, ECODE, EINFO, DST_POS and TILE and touches nothing else; its word written while BUSY is
dropped with OVR set (47_system_commands R401, R406). -/
def Obligations.ClrAcknowledges : Prop :=
  decodeCommand 0x00000001 = .ok .clr ∧
  (∀ s : State, s.phase = .idle → ∃ t, exec .clr s = .next t ∧ irq t = false ∧
    t.done = false ∧ t.err = false ∧ t.ovr = false ∧ t.ecode = 0 ∧ t.einfo = 0 ∧ t.dstPos = 0 ∧ t.tile = 0 ∧
    t.phase = .idle ∧ t.regs = s.regs ∧ t.irqEn = s.irqEn ∧ t.mem = s.mem ∧ t.freeCtr = s.freeCtr ∧
    t.held = s.held ∧ SamePlatform s t) ∧
  (∀ (s : State) (p : Pending), s.phase = .busy p → exec .clr s = .next { s with ovr := true })

/-- What a host write to CMD does, in the order of the rule: dropped while BUSY; NOP; CLR; dropped while ERR is 1;
else accepted, with DONE cleared, the word and a snapshot of the operand registers pending, and the command's windows held
(47_system_commands R404 to R406, 10_state R39, 70_reset_and_hazards R480). -/
def Obligations.CmdWriteOrder : Prop :=
  ∀ (s u : State) (v : Word), hostNext s (.regWrite s.regBase .w32 v) u → s.rst = false →
    (∀ p, u.phase = .busy p → step s = .next { u with ovr := true }) ∧
    (u.phase = .idle → v = 0 → step s = .next u) ∧
    (u.phase = .idle → v = 1 → step s = .next (acknowledge u)) ∧
    (u.phase = .idle → acceptable v → s.err = true → step s = .next { u with ovr := true }) ∧
    (u.phase = .idle → acceptable v → s.err = false → ∃ p t, step s = .next t ∧ t.phase = .busy p ∧
      p.word = v ∧ p.ops = s.regs ∧ p.work = .notBegun ∧ t.done = false ∧ t.err = false ∧ t.ovr = s.ovr ∧
      t.ecode = s.ecode ∧ t.einfo = s.einfo ∧ t.dstPos = s.dstPos ∧ t.tile = s.tile ∧ t.regs = s.regs ∧
      t.irqEn = s.irqEn ∧ t.mem = s.mem ∧ t.held = pendingWindows p ++ s.held ∧ SamePlatform u t)

/-- A host write in IDLE to a register other than CMD: it reads back with the hardwired bits 0 where the register is
writable, is ignored where it is read-only or reserved, and changes no other register, no flag and no byte of memory
(47_system_commands R403; 10_state R26, R27, R37). -/
def Obligations.RegisterWriteInIdle : Prop :=
  ∀ (s u : State) (off : Nat) (v : Word), hostNext s (.regWrite (s.regBase + off) .w32 v) u → s.rst = false →
    s.phase = .idle → off < 256 → off % 4 = 0 → off ≠ 0 →
    ∃ t, step s = .next t ∧ t.phase = .idle ∧ t.mem = s.mem ∧ t.freeCtr = s.freeCtr ∧ t.held = s.held ∧
      SamePlatform u t ∧ (∀ r, r ≠ regAt off → readReg r t = readReg r s) ∧
      readReg (regAt off) t =
        (if off = 0x0C then v &&& 0x3
         else if off = 0x10 then v &&& 0x107
         else if off ∈ [0x14, 0x18, 0x1C, 0x20, 0x24, 0x28, 0x30, 0x34, 0x38, 0x3C, 0x40] then v
         else readReg (regAt off) s)

/-- A host write while BUSY: to an operand register it is dropped and sets OVR; IRQ_EN takes it; a read-only or
reserved register ignores it and OVR is not set; the pending command is not disturbed (47_system_commands R403,
10_state R38, 70_reset_and_hazards R482). -/
def Obligations.RegisterWriteWhileBusy : Prop :=
  ∀ (s u : State) (p : Pending) (off : Nat) (v : Word), hostNext s (.regWrite (s.regBase + off) .w32 v) u →
    u.phase = .busy p → off < 256 → off % 4 = 0 → off ≠ 0 →
    step s = .next
      (if off = 0x0C then { u with irqEn := v &&& 0x3 }
       else if off ∈ [0x10, 0x14, 0x18, 0x1C, 0x20, 0x24, 0x28, 0x30, 0x34, 0x38, 0x3C, 0x40] then
         { u with ovr := true }
       else u)

/-- A host register read returns the register at its offset, its reserved bits 0, and changes nothing of the CDU, in
either phase; CMD and the reserved offsets read 0 (47_system_commands R402, 10_state R21, R22, R37). A read of STATUS that
shows BUSY = 0 gives the host all windows back (70_reset_and_hazards R480). -/
def Obligations.RegisterReadChangesNothing : Prop :=
  ∀ (s u : State) (off : Nat), hostNext s (.regRead (s.regBase + off) .w32) u → s.rst = false → off < 256 →
    off % 4 = 0 →
    step s = .next { u with
      busData := readReg (regAt off) u
      held := if off = 0x04 ∧ (statusWord u).getLsbD 0 = false then [] else u.held } ∧
    readReg (regAt off) u =
      (if off = 0x04 then statusWord u
       else if off = 0x08 then u.einfo
       else if off = 0x0C then u.irqEn &&& 0x3
       else if off = 0x10 then u.regs.mode &&& 0x107
       else if off = 0x14 then u.regs.srcBase
       else if off = 0x18 then u.regs.srcLen
       else if off = 0x1C then u.regs.srcPos
       else if off = 0x20 then u.regs.dstBase
       else if off = 0x24 then u.regs.dstLen
       else if off = 0x28 then u.regs.dstStride
       else if off = 0x2C then u.dstPos
       else if off = 0x30 then u.regs.width
       else if off = 0x34 then u.regs.height
       else if off = 0x38 then u.regs.count
       else if off = 0x3C then u.regs.tmpBase
       else if off = 0x40 then u.regs.tmpLen
       else if off = 0x44 then u.tile
       else 0)

/-- A host access to the register block that is not 32 bits wide, not aligned or not inside the block is refused
(10_state R21, 20_memory R74: outside the spec, "the model refuses it"; log 10). -/
def Obligations.OddRegisterAccessRefused : Prop :=
  ∀ (s u : State) (addr : Nat) (width : BusWidth) (v : Word),
    (hostNext s (.regWrite addr width v) u ∨ hostNext s (.regRead addr width) u) → s.rst = false →
    (width ≠ .w32 ∨ addr < s.regBase ∨ s.regBase + 256 ≤ addr ∨ (addr - s.regBase) % 4 ≠ 0) →
    step s = .refused (.badRegisterAccess addr)

/-- The bits of the STATUS word: BUSY, DONE, ERR, OVR in bits 0 to 3, ECODE in bits 15:8, every other bit 0
(10_state R24). -/
def Obligations.StatusWordBits : Prop :=
  ∀ s : State,
    (statusWord s).getLsbD 0 = busyFlag s ∧ (statusWord s).getLsbD 1 = s.done ∧ (statusWord s).getLsbD 2 = s.err ∧
    (statusWord s).getLsbD 3 = s.ovr ∧ (∀ i < 8, (statusWord s).getLsbD (8 + i) = s.ecode.getLsbD i) ∧
    (∀ i, 4 ≤ i → i < 8 → (statusWord s).getLsbD i = false) ∧ (∀ i, 16 ≤ i → (statusWord s).getLsbD i = false)

/-- The interrupt output is a function of the STATUS word and IRQ_EN at every moment: DONE and DONE_IE, or ERR and ERR_IE
(10_state R44). While `rst` is asserted neither flag is 1 (70_reset_and_hazards R471). -/
def Obligations.IrqIsALevel : Prop :=
  ∀ s : State, (s.rst = true → s.done = false ∧ s.err = false) →
    irq s = (((statusWord s).getLsbD 1 && s.irqEn.getLsbD 0) || ((statusWord s).getLsbD 2 && s.irqEn.getLsbD 1))

/-! ## Reset and the host's memory accesses -/

/-- After reset every register reads 0, the phase is IDLE and the interrupt output is low (10_state R45,
70_reset_and_hazards R471). -/
def Obligations.ResetRegistersZero : Prop :=
  (∀ r : Reg, readReg r State.reset = 0) ∧ State.reset.phase = .idle ∧ irq State.reset = false

/-- The reset input. The step that asserts `rst` (log 21: the model gives the registers their reset values already there)
leaves every register 0 and the phase IDLE, abandons a pending command without DONE or ERR, and changes no byte outside
the ranges that command was entitled to write; no window is held any more (log 26). While `rst` is asserted a register
access is refused. Releasing it leaves every register 0, the phase IDLE, no window held and memory as it was
(70_reset_and_hazards R470 to R473; logs 10 and 21). -/
def Obligations.AssertedResetAbandons : Prop :=
  (∀ s u : State, hostNext s .assertRst u → ∃ t, step s = .next t ∧ t.rst = true ∧ t.phase = .idle ∧
    (∀ r : Reg, readReg r t = 0) ∧ irq t = false ∧ t.held = [] ∧ sameOutside (busyOutputs u) s t) ∧
  (∀ (s u : State) (addr : Nat) (width : BusWidth) (v : Word), s.rst = true →
    (hostNext s (.regRead addr width) u ∨ hostNext s (.regWrite addr width v) u) →
    step s = .refused .registerAccessInReset) ∧
  (∀ s u : State, Inv s → s.rst = true → irq s = false ∧ (hostNext s .releaseRst u → ∃ t, step s = .next t ∧
    t.rst = false ∧ t.phase = .idle ∧ (∀ r : Reg, readReg r t = 0) ∧ irq t = false ∧ t.held = [] ∧ t.mem = s.mem))

/-- A host write to memory stores its one byte; a byte of a forbidden window is refused (70_reset_and_hazards R480,
93_implementation_defined U4; log 9). A byte that is forbidden stays so through every step, the command's end included,
until the host reads STATUS with the phase IDLE or `rst` is asserted; the windows of a command become forbidden when it is
accepted (`CmdWriteOrder`). That `rst` ends the span is the model's inference (log 26). -/
def Obligations.HostMemoryWrite : Prop :=
  (∀ (s u : State) (a : Nat) (b : Byte), hostNext s (.memWrite a b) u → s.mem.wf → memValid s.memMap a = true →
    ((forbiddenWindows u).any (inRange · a) = true → step s = .refused (.hostWroteWindow a)) ∧
    ((forbiddenWindows u).any (inRange · a) = false → ∃ t, step s = .next t ∧ memGet t.mem a = b ∧
      (∀ a', a' ≠ a → memGet t.mem a' = memGet s.mem a') ∧ t.regs = s.regs ∧ t.phase = u.phase ∧ t.held = s.held)) ∧
  (∀ (s t : State) (a : Nat), Inv s → stepsTo s t → (forbiddenWindows s).any (inRange · a) = true →
    (forbiddenWindows t).any (inRange · a) = true ∨
    ∃ act u, hostNext s act u ∧ (act = .assertRst ∨ act = .regRead (s.regBase + 0x04) .w32 ∧ u.phase = .idle))

/-! ## Start checks and faults -/

/-- Two windows fail the overlap test exactly when they share a byte address; an empty window shares none
(20_memory R80, 60_exceptions R425). -/
def Obligations.OverlapMeansSharedByte : Prop :=
  (∀ x y : Range, anyOverlap [x, y] = true ↔ ∃ a, inRange x a = true ∧ inRange y a = true) ∧
  (∀ x y z : Range, anyOverlap [x, y, z] = true ↔
    ∃ a, (inRange x a = true ∧ inRange y a = true) ∨ (inRange x a = true ∧ inRange z a = true) ∨
      (inRange y a = true ∧ inRange z a = true))

/-- While a fault is recorded a command word other than those of NOP and CLR is dropped with OVR set, and nothing else
changes (47_system_commands R405, 60_exceptions R437; log 12 for the form that runs in IDLE). -/
def Obligations.NoCommandWhileErr : Prop :=
  ∀ (i : Instr) (s : State), formatOf i = .command → i ≠ .nop → i ≠ .clr → s.phase = .idle → s.err = true →
    exec i s = .next { s with ovr := true }

/-- A start check that applies ends any command with that fault; no byte of memory changes. The codes are those of the
table: 0x02 UNSUPPORTED_FORMAT, 0x03 RESOURCE_LIMIT, 0x04 OVERLAP, 0x05 TRUNCATED, 0x09 BAD_MODE, each with its
information word (60_exceptions R421, R424, R430, R433, R434; log 12 for the form that runs in IDLE). -/
def Obligations.StartFaultTouchesNothing : Prop :=
  ∀ (i : Instr) (r : Rule) (s : State) (o : Operands) (t : Trap), ruleOf i = some r → atCommand s o →
    r.check o = some t → ∃ u, exec i s = .next u ∧ FaultedAs s u (trapCode t).toNat (trapInfo t).toNat ∧
      u.mem = s.mem ∧
      (∀ op, t = .unsupportedFormat op → FaultedAs s u 0x02 op) ∧
      (∀ sub, t = .resourceLimit sub → FaultedAs s u 0x03 sub) ∧
      (t = .overlap → FaultedAs s u 0x04 0) ∧
      (∀ off, t = .truncated off → FaultedAs s u 0x05 off) ∧
      (∀ gray, t = .badMode gray → FaultedAs s u 0x09 gray)

/-- The start checks of every command, in their order of priority, each with its sub-code or offset: UNSUPPORTED_FORMAT
whatever the operands; BAD_MODE for NRM; the RESOURCE_LIMIT sub-codes 1 to 8, lowest first; OVERLAP of the windows used;
TRUNCATED where the length is COUNT. The dimensions count for BCD only, GRAY for NRM only. `anyOverlap` is
`OverlapMeansSharedByte`'s (60_exceptions R433, R431; 40_bcd_common_bc1 R152; 44_zpf_filters R281, R291; 45_zpf_inflate
R328; 46_nrm_normalizer R360). -/
def Obligations.StartFaultPriority : Prop :=
  (∀ (i : Instr) (r : Rule) (o : Operands) (op : Nat), ruleOf i = some r →
    (i, op) ∈ [(Instr.bcdBc2, 0x11), (.bcdBc7s, 0x16)] → r.check o = some (.unsupportedFormat op)) ∧
  (∀ (i : Instr) (r : Rule) (o : Operands), ruleOf i = some r →
    i ∈ [Instr.bcdBc1, .bcdBc3, .bcdBc4, .bcdBc5, .bcdBc7] →
    r.check o =
      if o.width.toInt < 0 then some (.resourceLimit 1)
      else if o.height.toInt < 0 then some (.resourceLimit 2)
      else if 2 ^ 32 < o.srcBase.toNat + o.srcLen.toNat then some (.resourceLimit 3)
      else if 2 ^ 32 < o.dstBase.toNat + o.dstLen.toNat then some (.resourceLimit 4)
      else if 0 < o.width.toInt ∧ 0 < o.height.toInt ∧ (o.dstStride.toNat : ℤ) < 4 * o.width.toInt then
        some (.resourceLimit 6)
      else if 0 < o.width.toInt ∧ 0 < o.height.toInt ∧
          (o.dstLen.toNat : ℤ) < (o.height.toInt - 1) * o.dstStride.toNat + 4 * o.width.toInt then
        some (.resourceLimit 7)
      else if anyOverlap [srcWindow o, dstWindow o] then some .overlap
      else none) ∧
  (∀ (i : Instr) (r : Rule) (o : Operands), ruleOf i = some r →
    i ∈ [Instr.zpfRecon, .zpfIntlv, .zpfReord, .zpfDecon] →
    r.check o =
      if 2 ^ 32 < o.srcBase.toNat + o.srcLen.toNat then some (.resourceLimit 3)
      else if 2 ^ 32 < o.dstBase.toNat + o.dstLen.toNat then some (.resourceLimit 4)
      else if o.dstLen.toNat < o.count.toNat then some (.resourceLimit 7)
      else if anyOverlap [srcWindow o, dstWindow o] then some .overlap
      else if 0 < o.count.toNat ∧ o.srcLen.toNat < o.srcPos.toNat then some (.truncated o.srcPos.toNat)
      else if 0 < o.count.toNat ∧ o.srcLen.toNat < o.srcPos.toNat + o.count.toNat then
        some (.truncated o.srcLen.toNat)
      else none) ∧
  (∀ (r : Rule) (o : Operands), ruleOf .zpfFilt = some r →
    r.check o =
      if 2 ^ 32 < o.srcBase.toNat + o.srcLen.toNat then some (.resourceLimit 3)
      else if 2 ^ 32 < o.dstBase.toNat + o.dstLen.toNat then some (.resourceLimit 4)
      else if 2 ^ 32 < o.tmpBase.toNat + o.tmpLen.toNat then some (.resourceLimit 5)
      else if o.dstLen.toNat < o.count.toNat then some (.resourceLimit 7)
      else if o.tmpLen.toNat < o.count.toNat then some (.resourceLimit 8)
      else if anyOverlap [srcWindow o, dstWindow o, tmpWindow o] then some .overlap
      else if 0 < o.count.toNat ∧ o.srcLen.toNat < o.srcPos.toNat then some (.truncated o.srcPos.toNat)
      else if 0 < o.count.toNat ∧ o.srcLen.toNat < o.srcPos.toNat + o.count.toNat then
        some (.truncated o.srcLen.toNat)
      else none) ∧
  (∀ (r : Rule) (o : Operands), ruleOf .zpfInflate = some r →
    r.check o =
      if 2 ^ 32 < o.srcBase.toNat + o.srcLen.toNat then some (.resourceLimit 3)
      else if 2 ^ 32 < o.dstBase.toNat + o.dstLen.toNat then some (.resourceLimit 4)
      else if anyOverlap [srcWindow o, dstWindow o] then some .overlap
      else none) ∧
  (∀ (r : Rule) (o : Operands), ruleOf .zpfUnzip = some r →
    r.check o =
      if 2 ^ 32 < o.srcBase.toNat + o.srcLen.toNat then some (.resourceLimit 3)
      else if 2 ^ 32 < o.dstBase.toNat + o.dstLen.toNat then some (.resourceLimit 4)
      else if 2 ^ 32 < o.tmpBase.toNat + o.tmpLen.toNat then some (.resourceLimit 5)
      else if anyOverlap [srcWindow o, dstWindow o, tmpWindow o] then some .overlap
      else none) ∧
  (∀ (i : Instr) (z : Nat) (r : Rule) (o : Operands), ruleOf i = some r →
    (i, z) ∈ [(Instr.nrmF32, 16), (.nrmF16, 8), (.nrmU32, 16)] →
    r.check o =
      if grayOf o = 6 ∨ grayOf o = 7 then some (.badMode (grayOf o))
      else if 2 ^ 32 < o.srcBase.toNat + o.srcLen.toNat then some (.resourceLimit 3)
      else if 2 ^ 32 < o.dstBase.toNat + o.dstLen.toNat then some (.resourceLimit 4)
      else if o.dstLen.toNat < 8 * o.count.toNat then some (.resourceLimit 7)
      else if anyOverlap [srcWindow o, dstWindow o] then some .overlap
      else if 0 < o.count.toNat ∧ o.srcLen.toNat < o.srcPos.toNat then some (.truncated o.srcPos.toNat)
      else if 0 < o.count.toNat ∧ o.srcLen.toNat < o.srcPos.toNat + z * o.count.toNat then
        some (.truncated (o.srcPos.toNat + z * ((o.srcLen.toNat - o.srcPos.toNat) / z)))
      else none)

/-- BCD.BC2 and BCD.BC7S fault UNSUPPORTED_FORMAT with EINFO the opcode, whatever the operands hold; nothing else
changes and no memory is accessed (41_bcd_bc3_bc4_bc5 R214, R215; 60_exceptions R423, R430; log 12 for the form that
runs in IDLE). -/
def Obligations.UnsupportedFormats : Prop :=
  ∀ (s : State) (o : Operands), atCommand s o →
    (∃ t, exec .bcdBc2 s = .next t ∧ FaultedAs s t 0x02 0x11 ∧ t.mem = s.mem) ∧
    (∃ t, exec .bcdBc7s s = .next t ∧ FaultedAs s t 0x02 0x16 ∧ t.mem = s.mem)

/-- BUS_ERROR is reported only for an invalid address of the command's entitled set, so it cannot occur where the host
keeps its duty (60_exceptions R429, 20_memory R78; log 8 for the free choice of the address, log 12 for the form that
runs in IDLE). -/
def Obligations.BusErrorNamesInvalidAddress : Prop :=
  ∀ (i : Instr) (r : Rule) (s t : State) (o : Operands), ruleOf i = some r → atCommand s o → exec i s = .next t →
    t.err = true → t.ecode = 0x08 →
    ∃ x ∈ r.source o :: r.outputs o, ∃ a, inRange x a = true ∧ memValid s.memMap a = false ∧
      t.einfo = BitVec.ofNat 32 a

/-- After any fault of a command, or its completion, every byte outside its destination and scratch ranges is as before
and `SRC_POS` moves only on completion (60_exceptions R430, R432, R435). The end of a command gives the host no window
back (70_reset_and_hazards R480). Log 12 for the form that runs in IDLE. -/
def Obligations.FaultLeavesTheRest : Prop :=
  ∀ (i : Instr) (r : Rule) (s t : State) (o : Operands), ruleOf i = some r → atCommand s o → exec i s = .next t →
    sameOutside (r.outputs o) s t ∧ t.phase = .idle ∧ (t.err = true → t.regs = s.regs ∧ t.done = false) ∧
      (t.err = false → t.done = true) ∧ t.held = heldAfter r o s

/-! ## The block decompressor -/

/-- A BCD decode command whose checks pass, whose source holds all the blocks it needs, and whose addresses are valid,
completes: SRC_POS advances by `16` or `8` bytes a tile, DST_POS is the extent, TILE the number of tiles; every byte of
memory that is not of a texel inside the plane is as before (40_bcd_common_bc1 R152, R153, R156, R157, R159; log 12 for
the form that runs in IDLE). -/
def Obligations.BcdCompletes : Prop :=
  ∀ (i : Instr) (size : Nat) (block : List Byte → List Texel) (s : State) (o : Operands),
    (i, size, block) ∈ [(Instr.bcdBc1, 8, bc1Block), (.bcdBc3, 16, bc3Block), (.bcdBc4, 8, bc4Block),
      (.bcdBc5, 16, bc5Block), (.bcdBc7, 16, bc7Block)] →
    atCommand s o → bcdCheck o = none →
    (tileCount o = 0 ∨ o.srcPos.toNat + tileCount o * size ≤ o.srcLen.toNat) →
    entitledValid (bcdRule block size) o s →
    ∃ t, exec i s = .next t ∧
      CompletedAs s t (tileCount o * size) (planeExtent o) (BitVec.ofNat 32 (tileCount o)) ∧
      (∀ a, (∀ x y c, x < planeWidth o → y < planeHeight o → c < 4 → a ≠ texelAddr o x y + c) →
        memGet t.mem a = memGet s.mem a)

/-- The picture a completed BCD decode command leaves: for every texel inside the plane, the four bytes at its address
are the texel of the block of its tile, tiles numbered left to right, top to bottom, texels row by row (40_bcd_common_bc1
R153, R155; 00_scope R11; log 12 for the form that runs in IDLE). -/
def Obligations.BcdPlaneContents : Prop :=
  ∀ (i : Instr) (size : Nat) (block : List Byte → List Texel) (s t : State) (o : Operands),
    (i, size, block) ∈ [(Instr.bcdBc1, 8, bc1Block), (.bcdBc3, 16, bc3Block), (.bcdBc4, 8, bc4Block),
      (.bcdBc5, 16, bc5Block), (.bcdBc7, 16, bc7Block)] →
    atCommand s o → s.mem.wf → exec i s = .next t → t.err = false →
    ∀ x y, x < planeWidth o → y < planeHeight o →
      ∃ T, (block (sourceBytes s o ((y / 4 * tilesX o + x / 4) * size) size))[4 * (y % 4) + x % 4]? = some T ∧
        peekBytes t.mem (texelAddr o x y) 4 = [T.r, T.g, T.b, T.a]

/-- Where a BCD decode command runs out of source bytes: TRUNCATED, with EINFO the offset at which the first block that
is not whole would start; bytes outside the destination extent are as before (40_bcd_common_bc1 R154, R158;
60_exceptions R426, R430, R435; log 12 for the form that runs in IDLE). -/
def Obligations.BcdTruncated : Prop :=
  ∀ (i : Instr) (size : Nat) (block : List Byte → List Texel) (s : State) (o : Operands),
    (i, size, block) ∈ [(Instr.bcdBc1, 8, bc1Block), (.bcdBc3, 16, bc3Block), (.bcdBc4, 8, bc4Block),
      (.bcdBc5, 16, bc5Block), (.bcdBc7, 16, bc7Block)] →
    atCommand s o → bcdCheck o = none → 0 < tileCount o →
    o.srcLen.toNat < o.srcPos.toNat + tileCount o * size → entitledValid (bcdRule block size) o s →
    ∃ t, exec i s = .next t ∧
      FaultedAs s t 0x05 (o.srcPos.toNat + size * ((o.srcLen.toNat - o.srcPos.toNat) / size)) ∧
      sameOutside ((bcdRule block size).outputs o) s t

/-- The colours and the alpha of a BC1 block. The 5- and 6-bit fields are widened by repeating their top bits; the
four-colour palette is the endpoints and their thirds, rounded down, all opaque; a texel is the palette entry of its
two index bits: the four-colour entry with `c0 > c1`, and otherwise an endpoint, the rounded-down half, or transparent
black (40_bcd_common_bc1 R160 to R164; the rounding and the widening are the spec's defaults, log 11). -/
def Obligations.Bc1AlphaRule : Prop :=
  (∀ c : Nat, expand565 c =
    ⟨8 * (c / 2048 % 32) + c / 2048 % 32 / 4, 4 * (c / 32 % 64) + c / 32 % 64 / 16, 8 * (c % 32) + c % 32 / 4⟩) ∧
  (∀ e0 e1 : Rgb, (∀ ch ∈ [Rgb.r, Rgb.g, Rgb.b], ch e0 < 256 ∧ ch e1 < 256) → ∃ p0 p1 p2 p3,
    bc1Four e0 e1 = [p0, p1, p2, p3] ∧ texelIs p0 (fun ch => ch e0) 255 ∧ texelIs p1 (fun ch => ch e1) 255 ∧
    texelIs p2 (fun ch => (2 * ch e0 + ch e1) / 3) 255 ∧ texelIs p3 (fun ch => (ch e0 + 2 * ch e1) / 3) 255) ∧
  (∀ (bs : List Byte) (i : Nat) (e0 e1 : Rgb) (k : Nat), i < 16 → e0 = expand565 (leAt bs 0 2) →
    e1 = expand565 (leAt bs 2 2) → k = slice (leAt bs 4 4) (2 * i + 1) (2 * i) →
    ∃ t, (bc1Block bs)[i]? = some t ∧ k < 4 ∧
      (leAt bs 0 2 > leAt bs 2 2 → t.a = 255) ∧
      (leAt bs 0 2 ≤ leAt bs 2 2 → if k = 3 then t = ⟨0, 0, 0, 0⟩ else t.a = 255) ∧
      (k = 0 → texelIs t (fun ch => ch e0) 255) ∧
      (k = 1 → texelIs t (fun ch => ch e1) 255) ∧
      (k = 2 → leAt bs 0 2 > leAt bs 2 2 → texelIs t (fun ch => (2 * ch e0 + ch e1) / 3) 255) ∧
      (k = 3 → leAt bs 0 2 > leAt bs 2 2 → texelIs t (fun ch => (ch e0 + 2 * ch e1) / 3) 255) ∧
      (k = 2 → leAt bs 0 2 ≤ leAt bs 2 2 → texelIs t (fun ch => (ch e0 + ch e1) / 2) 255))

/-- How BC3, BC4 and BC5 use the alpha block: BC3 takes its alpha from the first half and its colour from the
four-colour palette of the second; BC4 broadcasts one channel; BC5 has red and green and a zero third channel, opaque
(41_bcd_bc3_bc4_bc5 R200, R201, R205, R210, R211). -/
def Obligations.AlphaBlockUse : Prop :=
  ∀ (bs : List Byte) (i : Nat), i < 16 → ∃ va vr vg c,
    (alphaBlock (bs.take 8))[i]? = some vr ∧ (alphaBlock ((bs.drop 8).take 8))[i]? = some vg ∧
    (alphaBlock bs)[i]? = some va ∧
    (bc1Four (expand565 (leAt (bs.drop 8) 0 2)) (expand565 (leAt (bs.drop 8) 2 2)))[slice (leAt (bs.drop 8) 4 4)
      (2 * i + 1) (2 * i)]? = some c ∧
    (bc3Block bs)[i]? = some ⟨c.r, c.g, c.b, BitVec.ofNat 8 vr⟩ ∧
    (bc4Block bs)[i]? = some ⟨BitVec.ofNat 8 va, BitVec.ofNat 8 va, BitVec.ofNat 8 va, 255⟩ ∧
    (bc5Block bs)[i]? = some ⟨BitVec.ofNat 8 vr, BitVec.ofNat 8 vg, 0, 255⟩

/-- Every value of an alpha block is a byte, and is the table entry of its three index bits: an endpoint at 0 and 1; with
`a0 > a1` the sevenths, rounded down, at 2 to 7; with `a0 ≤ a1` the fifths, rounded down, at 2 to 5 and the constants 0
and 255 at 6 and 7 (41_bcd_bc3_bc4_bc5 R190 to R194; the rounding is the spec's default, log 11). -/
def Obligations.AlphaBlockValues : Prop :=
  ∀ (bs : List Byte) (i a0 a1 k : Nat), i < 16 → a0 = leAt bs 0 1 → a1 = leAt bs 1 1 →
    k = slice (leAt bs 2 6) (3 * i + 2) (3 * i) →
    ∃ v, (alphaBlock bs)[i]? = some v ∧ v ≤ 255 ∧ k < 8 ∧
      (k = 0 → v = a0) ∧ (k = 1 → v = a1) ∧
      (2 ≤ k → a0 > a1 → v = ((8 - k) * a0 + (k - 1) * a1) / 7) ∧
      (2 ≤ k → k ≤ 5 → a0 ≤ a1 → v = ((6 - k) * a0 + (k - 1) * a1) / 5) ∧
      (k = 6 → a0 ≤ a1 → v = 0) ∧ (k = 7 → a0 ≤ a1 → v = 255)

/-- The block rows have a meaning only inside a command that parses blocks of their kind: with no command pending each of
the thirteen is refused by name (00_scope R2; the model's choice of a refusal is log 12). -/
def Obligations.BlockRowsNeedACommand : Prop :=
  ∀ (s : State) (f : Bc7Fields) (x : BitVec 120) (fin : Bool), s.phase = .idle →
    ∀ i ∈ [Instr.bc7Mode0 f, .bc7Mode1 f, .bc7Mode2 f, .bc7Mode3 f, .bc7Mode4 f, .bc7Mode5 f, .bc7Mode6 f,
      .bc7Mode7 f, .bc7Reserved x, .deflateStored fin, .deflateFixed fin, .deflateDynamic fin, .deflateReserved fin],
      exec i s = .refused .noBlockExpected

/-- Each BC7 block row fills the tile buffer of a pending BCD.BC7 with the sixteen texels of its fields and changes
nothing else; the reserved row gives sixteen transparent black texels whatever its other bits are (42_bcd_bc7 R222,
R237; 10_state R43; log 7 for the rows as instructions). -/
def Obligations.Bc7RowsFillTheTile : Prop :=
  ∀ (s : State) (p : Pending) (k : Nat) (tile : List Texel), s.phase = .busy p → p.word = bc7Word →
    p.work = .bcd k tile →
    (∀ f : Bc7Fields,
      exec (.bc7Mode0 f) s = .next (setWork p (.bcd k ((List.range 16).map (bc7Texel (bc7Params 0) f))) s) ∧
      exec (.bc7Mode1 f) s = .next (setWork p (.bcd k ((List.range 16).map (bc7Texel (bc7Params 1) f))) s) ∧
      exec (.bc7Mode2 f) s = .next (setWork p (.bcd k ((List.range 16).map (bc7Texel (bc7Params 2) f))) s) ∧
      exec (.bc7Mode3 f) s = .next (setWork p (.bcd k ((List.range 16).map (bc7Texel (bc7Params 3) f))) s) ∧
      exec (.bc7Mode4 f) s = .next (setWork p (.bcd k ((List.range 16).map (bc7Texel (bc7Params 4) f))) s) ∧
      exec (.bc7Mode5 f) s = .next (setWork p (.bcd k ((List.range 16).map (bc7Texel (bc7Params 5) f))) s) ∧
      exec (.bc7Mode6 f) s = .next (setWork p (.bcd k ((List.range 16).map (bc7Texel (bc7Params 6) f))) s) ∧
      exec (.bc7Mode7 f) s = .next (setWork p (.bcd k ((List.range 16).map (bc7Texel (bc7Params 7) f))) s)) ∧
    (∀ x : BitVec 120,
      exec (.bc7Reserved x) s = .next (setWork p (.bcd k (List.replicate 16 ⟨0, 0, 0, 0⟩)) s))

/-- The BC7 modes without alpha are opaque: in a well-formed block of modes 0 to 3 every endpoint has alpha 255, and so
has every texel (42_bcd_bc7 R229). -/
def Obligations.Bc7ModesWithoutAlphaOpaque : Prop :=
  ∀ (m : Nat) (f : Bc7Fields), m ≤ 3 → bc7FieldsOk m f = true →
    (bc7Params m).ab = 0 ∧ (∀ e, bc7Alpha (bc7Params m) f e = 255) ∧ ∀ t ∈ bc7Texels m f, t.a = 255

/-- BC7 interpolation: weight 0 gives the first endpoint, weight 64 the second, and every result lies between them
(42_bcd_bc7 R235). -/
def Obligations.Bc7LerpBetween : Prop :=
  ∀ x y w : Nat, w ≤ 64 → bc7Lerp x y 0 = x ∧ bc7Lerp x y 64 = y ∧ min x y ≤ bc7Lerp x y w ∧
    bc7Lerp x y w ≤ max x y

/-! ## The byte filters -/

/-- The six inverse laws of the filters, for every byte string (44_zpf_filters R290). -/
def Obligations.FilterInverseLaws : Prop :=
  ∀ b : List Byte,
    decon (recon b) = b ∧ recon (decon b) = b ∧ reord (intlv b) = b ∧ intlv (reord b) = b ∧
    decon (reord (intlv (recon b))) = b ∧ intlv (recon (decon (reord b))) = b ∧
    (recon b).length = b.length ∧ (decon b).length = b.length ∧ (intlv b).length = b.length ∧
    (reord b).length = b.length

/-- The filters position by position, as the rules write them (44_zpf_filters R282, R284, R286, R288). -/
def Obligations.FilterPositions : Prop :=
  ∀ (b : List Byte) (i : Nat), i < b.length →
    (recon b)[i]? = (if i = 0 then b[0]? else
      ((recon b)[i - 1]?.bind fun prev => b[i]?.map fun y => prev + y - 128)) ∧
    (decon b)[i]? = (if i = 0 then b[0]? else
      (b[i - 1]?.bind fun prev => b[i]?.map fun y => y - prev + 128)) ∧
    (intlv b)[i]? = (if i % 2 = 0 then b[i / 2]? else b[i / 2 + (b.length + 1) / 2]?) ∧
    (reord b)[i]? = (if i < (b.length + 1) / 2 then b[2 * i]? else b[2 * (i - (b.length + 1) / 2) + 1]?)

/-- A filter command whose checks pass and whose addresses are valid completes: the COUNT bytes at DST_BASE are its
filter of the COUNT source bytes at the cursor, every other byte of memory is as before, SRC_POS advances by COUNT and
DST_POS is COUNT (44_zpf_filters R280, R283, R285, R287, R289, R293, R294; log 12 for the form that runs in IDLE). -/
def Obligations.FilterCompletes : Prop :=
  ∀ (i : Instr) (f : List Byte → List Byte) (s : State) (o : Operands),
    (i, f) ∈ [(Instr.zpfRecon, recon), (.zpfIntlv, intlv), (.zpfReord, reord), (.zpfDecon, decon)] →
    atCommand s o → s.mem.wf → filterCheck false o = none → entitledValid (filterRule f) o s →
    ∃ t, exec i s = .next t ∧ CompletedAs s t (countOf o) (countOf o) s.tile ∧
      peekBytes t.mem o.dstBase.toNat (countOf o) = f (sourceBytes s o 0 (countOf o)) ∧
      sameOutside [⟨o.dstBase.toNat, countOf o⟩] s t

/-- ZPF.FILT completes: the destination holds the deconstructed, reordered source bytes; every byte outside the
destination's and the scratch window's first COUNT bytes is as before (44_zpf_filters R292, R294; log 12 for the form
that runs in IDLE). -/
def Obligations.FiltCompletes : Prop :=
  ∀ (s : State) (o : Operands), atCommand s o → s.mem.wf → filterCheck true o = none → entitledValid filtRule o s →
    ∃ t, exec .zpfFilt s = .next t ∧ CompletedAs s t (countOf o) (countOf o) s.tile ∧
      peekBytes t.mem o.dstBase.toNat (countOf o) = decon (reord (sourceBytes s o 0 (countOf o))) ∧
      sameOutside [⟨o.dstBase.toNat, countOf o⟩, ⟨o.tmpBase.toNat, countOf o⟩] s t

/-- The truncation checks of the filter commands and of NRM, known from the operands alone: EINFO is the offset of the
first item that cannot be read whole, and the check answers so exactly where the checks before it pass, COUNT is above 0
and the source is short (44_zpf_filters R281 steps 7 and 8; 46_nrm_normalizer R360 steps 6 and 7; 60_exceptions R426).
-/
def Obligations.CountedTruncation : Prop :=
  (∀ (b : Bool) (o : Operands) (x : Nat), filterCheck b o = some (.truncated x) →
    0 < countOf o ∧ o.srcLen.toNat < o.srcPos.toNat + countOf o ∧
      x = max o.srcPos.toNat o.srcLen.toNat) ∧
  (∀ (fmt : NrmFormat) (o : Operands) (x : Nat), nrmCheck fmt o = some (.truncated x) →
    0 < countOf o ∧ o.srcLen.toNat < o.srcPos.toNat + pixelBytes fmt * countOf o ∧
      ∃ k, x = o.srcPos.toNat + pixelBytes fmt * k ∧ k < countOf o ∧
        (k = 0 ∨ x ≤ o.srcLen.toNat) ∧ o.srcLen.toNat < x + pixelBytes fmt) ∧
  (∀ (b : Bool) (o : Operands), wraps (srcWindow o) = false → wraps (dstWindow o) = false →
    countOf o ≤ o.dstLen.toNat →
    (b = true → wraps (tmpWindow o) = false ∧ countOf o ≤ o.tmpLen.toNat ∧
      anyOverlap [srcWindow o, dstWindow o, tmpWindow o] = false) →
    anyOverlap [srcWindow o, dstWindow o] = false → 0 < countOf o → o.srcLen.toNat < o.srcPos.toNat + countOf o →
    filterCheck b o = some (.truncated (max o.srcPos.toNat o.srcLen.toNat))) ∧
  (∀ (fmt : NrmFormat) (o : Operands), grayOf o < 6 → wraps (srcWindow o) = false → wraps (dstWindow o) = false →
    8 * countOf o ≤ o.dstLen.toNat → anyOverlap [srcWindow o, dstWindow o] = false → 0 < countOf o →
    o.srcLen.toNat < o.srcPos.toNat + pixelBytes fmt * countOf o →
    nrmCheck fmt o = some (.truncated
      (o.srcPos.toNat + pixelBytes fmt * ((o.srcLen.toNat - o.srcPos.toNat) / pixelBytes fmt))))

/-! ## The inflater -/

/-- ZPF.INFLATE completes when its stream inflates: the destination holds the output, SRC_POS advances by the stream's
bytes, DST_POS is the output length, and every other byte of memory is as before (45_zpf_inflate R310, R325, R328;
log 12 for the form that runs in IDLE). -/
def Obligations.InflateCompletes : Prop :=
  ∀ (s : State) (o : Operands) (out : List Byte) (used : Nat), atCommand s o → s.mem.wf → inflateCheck o = none →
    entitledValid inflateRule o s → inflateStream (inflateEnv s.memMap o s.mem) = .ok (out, used) →
    ∃ t, exec .zpfInflate s = .next t ∧ CompletedAs s t used out.length s.tile ∧
      peekBytes t.mem o.dstBase.toNat out.length = out ∧ sameOutside [⟨o.dstBase.toNat, out.length⟩] s t

/-- ZPF.UNZIP completes when its stream inflates: the destination holds the interleaved, reconstructed output; every
byte outside it and the scratch window's first `min(DST_LEN, TMP_LEN)` bytes is as before (44_zpf_filters R291; log 12
for the form that runs in IDLE). -/
def Obligations.UnzipCompletes : Prop :=
  ∀ (s : State) (o : Operands) (out : List Byte) (used : Nat), atCommand s o → s.mem.wf → unzipCheck o = none →
    entitledValid unzipRule o s → inflateStream (unzipEnv s.memMap o s.mem) = .ok (out, used) →
    ∃ t, exec .zpfUnzip s = .next t ∧ CompletedAs s t used out.length s.tile ∧
      peekBytes t.mem o.dstBase.toNat out.length = intlv (recon out) ∧
      sameOutside [⟨o.dstBase.toNat, out.length⟩, ⟨o.tmpBase.toNat, unzipLimit o⟩] s t

/-- A stream that does not inflate ends ZPF.INFLATE and ZPF.UNZIP with that fault, with code 0x05 TRUNCATED, 0x06
MALFORMED_STREAM or 0x07 OUTPUT_OVERFLOW and its offset, sub-code or limit; every byte outside the entitled ranges is as
before (45_zpf_inflate R328 to R331; 60_exceptions R421, R427, R428, R430, R435; log 12 for the form that runs in IDLE).
-/
def Obligations.BadStreamFaults : Prop :=
  ∀ (i : Instr) (r : Rule) (env : List Region → Operands → Memory → InflateEnv) (s : State) (o : Operands) (t : Trap),
    (i = .zpfInflate ∧ r = inflateRule ∧ env = inflateEnv ∨ i = .zpfUnzip ∧ r = unzipRule ∧ env = unzipEnv) →
    atCommand s o → r.check o = none → entitledValid r o s → inflateStream (env s.memMap o s.mem) = .error t →
    ∃ u, exec i s = .next u ∧ FaultedAs s u (trapCode t).toNat (trapInfo t).toNat ∧
      (∀ off, t = .truncated off → FaultedAs s u 0x05 off) ∧
      (∀ sub, t = .malformedStream sub → FaultedAs s u 0x06 sub) ∧
      (∀ limit, t = .outputOverflow limit → FaultedAs s u 0x07 limit) ∧
      sameOutside (r.outputs o) s u

/-- A raw stream of one final stored block holding `bs` inflates to `bs` and uses five bytes more than `bs` has
(45_zpf_inflate R311 to R313, R324, R325). -/
def Obligations.StoredBlockInflates : Prop :=
  ∀ (mm : List Region) (o : Operands) (m : Memory) (bs : List Byte), zlibOf o = false → bs.length < 65536 →
    bs.length ≤ o.dstLen.toNat → o.srcPos.toNat + 5 + bs.length ≤ o.srcLen.toNat →
    allValid mm [streamSource o, dstWindow o] →
    peekBytes m (o.srcBase.toNat + o.srcPos.toNat) (5 + bs.length) =
      [0x01, BitVec.ofNat 8 (bs.length % 256), BitVec.ofNat 8 (bs.length / 256),
        BitVec.ofNat 8 (255 - bs.length % 256), BitVec.ofNat 8 (255 - bs.length / 256)] ++ bs →
    inflateStream (inflateEnv mm o m) = .ok (bs, 5 + bs.length)

/-- A stream that inflates stays inside the source window and inside the output limit (45_zpf_inflate R325, R331). -/
def Obligations.InflateStaysInWindows : Prop :=
  ∀ (e : InflateEnv) (out : List Byte) (used : Nat), e.start = streamStart e.ops →
    inflateStream e = .ok (out, used) → e.ops.srcPos.toNat + used ≤ e.ops.srcLen.toNat ∧ out.length ≤ e.limit

/-- The LZ77 copy: every copied byte is the byte `dist` before it in the output, also where the copy reads bytes it has
itself written (45_zpf_inflate R323). -/
def Obligations.CopyReadsItsOwnOutput : Prop :=
  ∀ (e : InflateEnv) (dist n : Nat) (st st' : Inf), 0 < dist → dist ≤ st.rev.length →
    copyBytes e dist n st = .ok st' →
    st'.rev.length = st.rev.length + n ∧ st'.len = st.len + n ∧ st'.rev.drop n = st.rev ∧
      ∀ i < n, st'.rev[i]? = st'.rev[i + dist]?

/-- The fixed literal/length code, codeword by codeword, and the fixed distance code; both sets are complete
(45_zpf_inflate R314, R317, R318). -/
def Obligations.FixedCodes : Prop :=
  completeSet fixedLitLengths = true ∧ completeSet fixedDistLengths = true ∧
  canonicalCode fixedLitLengths =
    (List.range 288).map (fun s =>
      if s < 144 then ⟨8, 0x30 + s, s⟩
      else if s < 256 then ⟨9, 0x190 + (s - 144), s⟩
      else if s < 280 then ⟨7, s - 256, s⟩
      else ⟨8, 0xC0 + (s - 280), s⟩) ∧
  canonicalCode fixedDistLengths = (List.range 32).map fun d => ⟨5, d, d⟩

/-- A stored, fixed or dynamic block of a pending ZPF.INFLATE or ZPF.UNZIP whose body decodes: its bytes are stored after those
already emitted, the bit position, the length and the last-block flag advance, and nothing else changes
(45_zpf_inflate R312, R313, R320, R323; 10_state R43; log 7 for the blocks as instructions). -/
def Obligations.DeflateBlocksRun : Prop :=
  ∀ (i : Bool → Instr) (body : InflateEnv → Inf → Except Trap Inf) (fin : Bool) (s : State) (p : Pending)
    (w : InflateWork) (r : Rule) (e : InflateEnv) (st : Inf),
    (i, body) ∈ [(Instr.deflateStored, storedBlock), (Instr.deflateFixed, fixedBlock),
      (Instr.deflateDynamic, dynamicBlock)] →
    s.phase = .busy p → p.work = .inflate w → streamOf s.memMap s.mem p.word p.ops = some (r, e) → s.mem.wf →
    body e (blockStart e w) = .ok st →
    ∃ t, exec (i fin) s = .next t ∧
      t.phase = .busy { p with work := .inflate (blockWork fin w st) } ∧ w.len ≤ st.len ∧
      peekBytes t.mem (e.outBase + w.len) (st.len - w.len) = (st.rev.take (st.len - w.len)).reverse ∧
      sameOutside [⟨e.outBase + w.len, st.len - w.len⟩] s t ∧
      t = { s with mem := t.mem, phase := t.phase }

/-- A block of the reserved type ends a pending ZPF.INFLATE or ZPF.UNZIP with MALFORMED_STREAM, sub-code 1, whatever
BFINAL is (45_zpf_inflate R312, R329; 60_exceptions R427, R430, R435; log 7 for the blocks as instructions). -/
def Obligations.DeflateReservedFaults : Prop :=
  ∀ (fin : Bool) (s : State) (p : Pending) (w : InflateWork) (r : Rule) (e : InflateEnv), s.phase = .busy p →
    p.work = .inflate w → streamOf s.memMap s.mem p.word p.ops = some (r, e) → s.done = false →
    ∃ t, exec (.deflateReserved fin) s = .next t ∧ FaultedAs s t 0x06 1 ∧ sameOutside (r.outputs p.ops) s t ∧
      t.held = s.held

/-! ## The normaliser -/

/-- An NRM command whose checks pass and whose addresses are valid completes: pixel `k` of the destination is the
normalised pixel `k` of the source, every byte outside the `8 · COUNT` destination bytes is as before, SRC_POS advances
by `Z · COUNT` and DST_POS is `8 · COUNT` (46_nrm_normalizer R360, R373 to R377; log 12 for the form that runs in IDLE).
-/
def Obligations.NrmCompletes : Prop :=
  ∀ (i : Instr) (fmt : NrmFormat) (s : State) (o : Operands),
    (i, fmt) ∈ [(Instr.nrmF32, NrmFormat.f32), (.nrmF16, .f16), (.nrmU32, .u32)] →
    atCommand s o → s.mem.wf → nrmCheck fmt o = none → entitledValid (nrmRule fmt) o s →
    ∃ t, exec i s = .next t ∧ CompletedAs s t (pixelBytes fmt * countOf o) (8 * countOf o) s.tile ∧
      (∀ k < countOf o, peekBytes t.mem (o.dstBase.toNat + 8 * k) 8 =
        pixelOut (nrmPixel fmt (grayOf o) (pixelChannels fmt (sourceBytes s o (k * pixelBytes fmt) (pixelBytes fmt))))) ∧
      sameOutside [⟨o.dstBase.toNat, 8 * countOf o⟩] s t

/-- An NRM command with the reserved gray setting 6 or 7 faults BAD_MODE with EINFO the setting, whatever the other
operands hold; no byte of memory changes (46_nrm_normalizer R369; 60_exceptions R439, R430; log 12 for the form that
runs in IDLE). -/
def Obligations.NrmBadMode : Prop :=
  ∀ (i : Instr) (s : State) (o : Operands), i ∈ [Instr.nrmF32, .nrmF16, .nrmU32] → atCommand s o →
    (grayOf o = 6 ∨ grayOf o = 7) →
    ∃ t, exec i s = .next t ∧ FaultedAs s t 0x09 (grayOf o) ∧ t.mem = s.mem

/-- The range and the premultiplication of every normalised pixel: each channel is at most 65535 and each colour at most
the alpha; the gray settings 1 to 5 are opaque and 1 to 4 give equal colours (46_nrm_normalizer R378). The channel
patterns are those of the format's width. -/
def Obligations.NrmPixelProperties : Prop :=
  ∀ (fmt : NrmFormat) (g : Nat) (x : Rgba Nat), x.r < 2 ^ 32 → x.g < 2 ^ 32 → x.b < 2 ^ 32 → x.a < 2 ^ 32 →
    (nrmPixel fmt g x).a ≤ 65535 ∧ (nrmPixel fmt g x).r ≤ (nrmPixel fmt g x).a ∧
    (nrmPixel fmt g x).g ≤ (nrmPixel fmt g x).a ∧ (nrmPixel fmt g x).b ≤ (nrmPixel fmt g x).a ∧
    (1 ≤ g → g ≤ 5 → (nrmPixel fmt g x).a = 65535) ∧
    (1 ≤ g → g ≤ 4 → (nrmPixel fmt g x).r = (nrmPixel fmt g x).g ∧ (nrmPixel fmt g x).g = (nrmPixel fmt g x).b) ∧
    (unitValue fmt x.a = 0 → nrmPixel fmt 0 x = ⟨0, 0, 0, 0⟩) ∧
    (unitValue fmt x.r = 1 → unitValue fmt x.g = 1 → unitValue fmt x.b = 1 → unitValue fmt x.a = 1 →
      nrmPixel fmt 0 x = ⟨65535, 65535, 65535, 65535⟩)

/-- Raising the value of input channels never lowers an output channel (46_nrm_normalizer R378 item 7): the normalised
pixel is monotone in the four channel values, under every format and gray setting, infinities included; a NaN channel
must be left alone, since it has no value. Likewise the transform after the clamp is monotone in the unit values. -/
def Obligations.NrmMonotone : Prop :=
  (∀ (fmt : NrmFormat) (g : Nat) (x y : Rgba Nat),
    channelLe fmt x.r y.r → channelLe fmt x.g y.g → channelLe fmt x.b y.b → channelLe fmt x.a y.a →
    (nrmPixel fmt g x).r ≤ (nrmPixel fmt g y).r ∧ (nrmPixel fmt g x).g ≤ (nrmPixel fmt g y).g ∧
    (nrmPixel fmt g x).b ≤ (nrmPixel fmt g y).b ∧ (nrmPixel fmt g x).a ≤ (nrmPixel fmt g y).a) ∧
  (∀ (g : Nat) (u v : Rgba ℚ), 0 ≤ u.r → 0 ≤ u.g → 0 ≤ u.b → 0 ≤ u.a →
    u.r ≤ v.r → u.g ≤ v.g → u.b ≤ v.b → u.a ≤ v.a →
    (premultiplied (grayTransform g u)).r ≤ (premultiplied (grayTransform g v)).r ∧
    (premultiplied (grayTransform g u)).g ≤ (premultiplied (grayTransform g v)).g ∧
    (premultiplied (grayTransform g u)).b ≤ (premultiplied (grayTransform g v)).b ∧
    (premultiplied (grayTransform g u)).a ≤ (premultiplied (grayTransform g v)).a)

/-- The closed form for unsigned pixels without a gray setting (46_nrm_normalizer R373). -/
def Obligations.NrmUnsignedClosedForm : Prop :=
  ∀ x : Rgba Nat, nrmPixel .u32 0 x =
    ⟨x.r * x.a / (65537 * (2 ^ 32 - 1)), x.g * x.a / (65537 * (2 ^ 32 - 1)), x.b * x.a / (65537 * (2 ^ 32 - 1)),
      x.a / 65537⟩
end

