-- ==== Sys2Proof/Laws/Memory.lean ====
section
/-! SUPPORT. The laws of memory: what a read gives after a write, that every operation keeps the canonical form, and
one lemma for each memory access of a command that says all it can do. -/

namespace Sys2Proof.Machine

/-! ## One byte -/

theorem memGet_nil (a : Nat) : memGet [] a = memDefault := rfl

/-- A write leaves every other address alone, whatever the list. -/
theorem memGet_memPut_ne (m : Memory) (a a' : Nat) (b : Byte) (h : a' ≠ a) : memGet (memPut m a b) a' = memGet m a' := by
  induction m with
  | nil => unfold memPut; split <;> simp [memGet, h]
  | cons c t ih =>
    obtain ⟨k, v⟩ := c
    unfold memPut
    split
    · split <;> simp [memGet, h]
    · split
      · next h1 => subst h1; split <;> simp [memGet, h]
      · simp [memGet, ih]

/-- An address below every listed one reads as `memDefault`. -/
theorem memGet_of_lt (m : Memory) (a : Nat) (h : ∀ c ∈ m, a < c.1) : memGet m a = memDefault := by
  induction m with
  | nil => rfl
  | cons c t ih =>
    have h1 := h c (by simp)
    rw [memGet, if_neg (by omega)]
    exact ih fun d hd => h d (by simp [hd])

/-- A canonical memory reads back what was written. -/
theorem memGet_memPut_same (m : Memory) (a : Nat) (b : Byte) (h : m.wf) : memGet (memPut m a b) a = b := by
  induction m with
  | nil => unfold memPut; split <;> simp_all [memGet]
  | cons c t ih =>
    obtain ⟨k, v⟩ := c
    obtain ⟨hp, hc⟩ := h
    rw [List.pairwise_cons] at hp
    have ht : Memory.wf t := ⟨hp.2, fun d hd => hc d (by simp [hd])⟩
    have hk : ∀ d ∈ t, k < d.1 := fun d hd => hp.1 d hd
    unfold memPut
    split
    · next h1 =>
      split
      · next h2 =>
        rw [h2]
        apply memGet_of_lt
        intro d hd
        rcases List.mem_cons.1 hd with rfl | hd
        · exact h1
        · exact lt_trans h1 (hk d hd)
      · simp [memGet]
    · split
      · next h1 =>
        subst h1
        split
        · next h2 => rw [h2]; exact memGet_of_lt _ _ hk
        · simp [memGet]
      · next h1 => simp [memGet, h1, ih ht]

/-- The addresses a write lists were listed before, or are the one written. -/
theorem mem_memPut (m : Memory) (a : Nat) (b : Byte) (c : Host.Cell) (h : c ∈ memPut m a b) :
    c ∈ m ∨ (c = (a, b) ∧ b ≠ memDefault) := by
  induction m with
  | nil => unfold memPut at h; split at h <;> simp_all
  | cons d t ih =>
    obtain ⟨k, v⟩ := d
    unfold memPut at h
    split at h
    · split at h
      · exact .inl h
      · rcases List.mem_cons.1 h with rfl | h
        · exact .inr ⟨rfl, by assumption⟩
        · exact .inl h
    · split at h
      · split at h
        · exact .inl (by simp [h])
        · rcases List.mem_cons.1 h with rfl | h
          · exact .inr ⟨rfl, by assumption⟩
          · exact .inl (by simp [h])
      · rcases List.mem_cons.1 h with rfl | h
        · exact .inl (by simp)
        · rcases ih h with h | h
          · exact .inl (by simp [h])
          · exact .inr h

/-- A write inside the memory space keeps the canonical form. -/
theorem memPut_wf (m : Memory) (a : Nat) (b : Byte) (h : m.wf) (ha : a < Config.addrSpace) : (memPut m a b).wf := by
  constructor
  · induction m with
    | nil => unfold memPut; split <;> simp
    | cons c t ih =>
      obtain ⟨k, v⟩ := c
      obtain ⟨hp, hc⟩ := h
      rw [List.pairwise_cons] at hp
      have ht : Memory.wf t := ⟨hp.2, fun d hd => hc d (by simp [hd])⟩
      unfold memPut
      split
      · next h1 =>
        split
        · exact List.pairwise_cons.2 hp
        · refine List.pairwise_cons.2 ⟨?_, List.pairwise_cons.2 hp⟩
          intro d hd
          rcases List.mem_cons.1 hd with rfl | hd
          · exact h1
          · exact lt_trans h1 (hp.1 d hd)
      · split
        · next h1 =>
          split
          · exact hp.2
          · exact List.pairwise_cons.2 ⟨fun d hd => h1 ▸ hp.1 d hd, hp.2⟩
        · next h1 h2 =>
          refine List.pairwise_cons.2 ⟨?_, ih ht⟩
          intro d hd
          rcases mem_memPut t a b d hd with hd | ⟨rfl, _⟩
          · exact hp.1 d hd
          · change k < a; omega
  · intro c hc
    rcases mem_memPut m a b c hc with hc | ⟨rfl, hb⟩
    · exact h.2 c hc
    · exact ⟨hb, ha⟩

/-- The empty memory is canonical. -/
theorem nil_wf : Memory.wf [] := ⟨List.Pairwise.nil, by simp⟩

/-- The memory at reset is canonical. -/
theorem reset_mem_wf : State.reset.mem.wf := nil_wf

/-- A valid address is inside the memory space. -/
theorem lt_of_memValid {mm : List Region} {a : Nat} (h : memValid mm a = true) : a < Config.addrSpace := by
  simp only [memValid, Bool.and_eq_true, decide_eq_true_eq] at h
  exact h.1

/-! ## Strings of bytes -/

/-- `readByte` answers exactly on the valid addresses, with the byte there. -/
theorem readByte_eq_ok {mm : List Region} {m : Memory} {a : Nat} {b : Byte} :
    readByte mm m a = .ok b ↔ memValid mm a = true ∧ b = memGet m a := by
  cases hv : memValid mm a with
  | false => simp [readByte, hv]
  | true =>
    simp only [readByte, hv, if_true, Except.ok.injEq, true_and]
    exact eq_comm

@[simp] theorem peekBytes_length (m : Memory) (a n : Nat) : (peekBytes m a n).length = n := by
  induction n generalizing a with
  | zero => rfl
  | succ n ih => simp [peekBytes, ih]

theorem peekBytes_getD (m : Memory) (a n i : Nat) (h : i < n) (d : Byte) :
    (peekBytes m a n).getD i d = memGet m (a + i) := by
  induction n generalizing a i with
  | zero => omega
  | succ n ih =>
    cases i with
    | zero => simp [peekBytes]
    | succ i =>
      have := ih (a + 1) i (by omega)
      simp only [peekBytes, List.getD_cons_succ, this]
      congr 1; omega

/-- Two memories that agree on the addresses peeked at give the same bytes. -/
theorem peekBytes_congr (m m' : Memory) (a n : Nat) (h : ∀ i < n, memGet m' (a + i) = memGet m (a + i)) :
    peekBytes m' a n = peekBytes m a n := by
  induction n generalizing a with
  | zero => rfl
  | succ n ih =>
    have h0 := h 0 (by omega)
    simp only [Nat.add_zero] at h0
    rw [peekBytes, peekBytes, h0, ih]
    intro i hi
    have := h (i + 1) (by omega)
    rwa [show a + 1 + i = a + (i + 1) by omega]

/-- `readBytes` answers exactly when the whole string is valid, with the bytes memory holds. -/
theorem readBytes_eq_ok {mm : List Region} {m : Memory} {a n : Nat} {bs : List Byte} :
    readBytes mm m a n = .ok bs ↔ (∀ i < n, memValid mm (a + i) = true) ∧ bs = peekBytes m a n := by
  induction n generalizing a bs with
  | zero =>
    simp only [readBytes, peekBytes, Except.ok.injEq, Nat.not_lt_zero, false_implies, implies_true, true_and]
    exact eq_comm
  | succ n ih =>
    have hs : (∀ i < n + 1, memValid mm (a + i) = true) ↔
        memValid mm a = true ∧ ∀ i < n, memValid mm (a + 1 + i) = true := by
      constructor
      · intro h
        refine ⟨by simpa using h 0 (by omega), fun i hi => ?_⟩
        rw [show a + 1 + i = a + (i + 1) by omega]; exact h _ (by omega)
      · rintro ⟨h0, h⟩ i hi
        cases i with
        | zero => simpa using h0
        | succ i => rw [show a + (i + 1) = a + 1 + i by omega]; exact h i (by omega)
    rw [hs]
    cases hv : memValid mm a with
    | false => simp [readBytes, readByte, hv, bind, Except.bind]
    | true =>
      cases hr : readBytes mm m (a + 1) n with
      | error t =>
        have hn : ¬∀ i < n, memValid mm (a + 1 + i) = true := fun hall => by
          have := (ih (a := a + 1) (bs := peekBytes m (a + 1) n)).2 ⟨hall, rfl⟩
          rw [hr] at this; cases this
        simp [readBytes, readByte, hv, hr, hn, bind, Except.bind]
      | ok bs' =>
        obtain ⟨hall, rfl⟩ := (ih (a := a + 1)).1 hr
        simp only [readBytes, readByte, hv, hr, peekBytes, bind, Except.bind, pure, Except.pure, if_true,
          Except.ok.injEq, true_and]
        exact ⟨fun h => ⟨hall, h.symm⟩, fun h => h.2.symm⟩

/-- `storeByte` answers exactly on the valid addresses. -/
theorem storeByte_eq_ok {mm : List Region} {m m' : Memory} {a : Nat} {b : Byte} :
    storeByte mm m a b = .ok m' ↔ memValid mm a = true ∧ m' = memPut m a b := by
  cases hv : memValid mm a with
  | false => simp [storeByte, hv]
  | true =>
    simp only [storeByte, hv, if_true, Except.ok.injEq, true_and]
    exact eq_comm

/-- The first byte stored by `storeBytes`. -/
theorem storeBytes_cons {mm : List Region} {m m' : Memory} {a : Nat} {b : Byte} {bs : List Byte} :
    storeBytes mm m a (b :: bs) = .ok m' ↔
      memValid mm a = true ∧ storeBytes mm (memPut m a b) (a + 1) bs = .ok m' := by
  cases hv : memValid mm a <;> simp [storeBytes, storeByte, hv, bind, Except.bind]

/-- `storeBytes` keeps the canonical form. -/
theorem storeBytes_wf {mm : List Region} {m m' : Memory} {a : Nat} {bs : List Byte}
    (h : storeBytes mm m a bs = .ok m') (hm : m.wf) : m'.wf := by
  induction bs generalizing m a with
  | nil => cases h; exact hm
  | cons b bs ih =>
    obtain ⟨hv, h⟩ := storeBytes_cons.1 h
    exact ih h (memPut_wf m a b hm (lt_of_memValid hv))

/-- `storeBytes` leaves every byte outside the string alone. -/
theorem storeBytes_frame {mm : List Region} {m m' : Memory} {a : Nat} {bs : List Byte}
    (h : storeBytes mm m a bs = .ok m') {a' : Nat} (ha : ¬(a ≤ a' ∧ a' < a + bs.length)) :
    memGet m' a' = memGet m a' := by
  induction bs generalizing m a with
  | nil => cases h; rfl
  | cons b bs ih =>
    obtain ⟨-, h⟩ := storeBytes_cons.1 h
    simp only [List.length_cons] at ha
    rw [ih h (by omega), memGet_memPut_ne _ _ _ _ (by omega)]

/-- `storeBytes` stores the string. -/
theorem storeBytes_peek {mm : List Region} {m m' : Memory} {a : Nat} {bs : List Byte}
    (h : storeBytes mm m a bs = .ok m') (hm : m.wf) : peekBytes m' a bs.length = bs := by
  induction bs generalizing m a with
  | nil => rfl
  | cons b bs ih =>
    obtain ⟨hv, h⟩ := storeBytes_cons.1 h
    have hwf := memPut_wf m a b hm (lt_of_memValid hv)
    rw [List.length_cons, peekBytes, ih h hwf, storeBytes_frame h (by omega), memGet_memPut_same m a b hm]

/-- `storeBytes` answers when every address it stores to is valid. -/
theorem storeBytes_ok {mm : List Region} (m : Memory) {a : Nat} {bs : List Byte}
    (h : ∀ i < bs.length, memValid mm (a + i) = true) : ∃ m', storeBytes mm m a bs = .ok m' := by
  induction bs generalizing m a with
  | nil => exact ⟨m, rfl⟩
  | cons b bs ih =>
    simp only [List.length_cons] at h
    obtain ⟨m', hm'⟩ := ih (memPut m a b) (a := a + 1) (fun i hi => by
      rw [show a + 1 + i = a + (i + 1) by omega]; exact h _ (by omega))
    exact ⟨m', storeBytes_cons.2 ⟨by simpa using h 0 (by omega), hm'⟩⟩

/-! ## Unspecified bytes -/

/-- `fillFree` keeps the canonical form. -/
theorem fillFree_wf {mm : List Region} {ctr : Nat} {a n : Nat} {m : Memory} (h : m.wf) : (fillFree mm ctr a n m).wf := by
  induction n generalizing a m with
  | zero => exact h
  | succ n ih =>
    rw [fillFree]
    split
    · next hv => exact ih (memPut_wf m a _ h (lt_of_memValid hv))
    · exact ih h

/-- `fillFree` leaves every byte outside its range alone. -/
theorem fillFree_frame {mm : List Region} {ctr : Nat} {a n : Nat} {m : Memory} {a' : Nat} (h : ¬(a ≤ a' ∧ a' < a + n)) :
    memGet (fillFree mm ctr a n m) a' = memGet m a' := by
  induction n generalizing a m with
  | zero => rfl
  | succ n ih =>
    rw [fillFree, ih (by omega)]
    split
    · exact memGet_memPut_ne _ _ _ _ (by omega)
    · rfl

theorem fillFreeRanges_wf {mm : List Region} {ctr : Nat} {rs : List Range} {m : Memory} (h : m.wf) :
    (fillFreeRanges mm ctr rs m).wf := by
  induction rs generalizing m with
  | nil => exact h
  | cons r rs ih => exact ih (fillFree_wf h)

theorem fillFreeRanges_frame {mm : List Region} {ctr : Nat} {rs : List Range} {m : Memory} {a : Nat}
    (h : rs.any (inRange · a) = false) : memGet (fillFreeRanges mm ctr rs m) a = memGet m a := by
  induction rs generalizing m with
  | nil => rfl
  | cons r rs ih =>
    simp only [List.any_cons, Bool.or_eq_false_iff] at h
    rw [fillFreeRanges, ih h.2, fillFree_frame]
    have := h.1
    simp only [inRange, Bool.and_eq_false_iff, decide_eq_false_iff_not] at this
    omega

/-- Making ranges unspecified keeps the canonical form. -/
theorem havoc_wf {rs : List Range} {s : State} (h : s.mem.wf) : (havoc rs s).mem.wf := by
  cases rs with
  | nil => exact h
  | cons r rs => exact fillFreeRanges_wf h

/-- Making ranges unspecified leaves every byte outside them alone. -/
theorem havoc_frame {rs : List Range} {s : State} {a : Nat} (h : rs.any (inRange · a) = false) :
    memGet (havoc rs s).mem a = memGet s.mem a := by
  cases rs with
  | nil => rfl
  | cons r rs => exact fillFreeRanges_frame h

end Sys2Proof.Machine
end

