-- ==== Sys2Proof/Laws/State.lean ====
section
/-! SUPPORT. One lemma per field per update of the state, so that no later proof unfolds a record update. -/

namespace Sys2Proof.Machine

/-! ### `takeFault` (60_exceptions R430) -/

@[simp] theorem takeFault_regs (t : Trap) (s : State) : (takeFault t s).regs = s.regs := rfl
@[simp] theorem takeFault_irqEn (t : Trap) (s : State) : (takeFault t s).irqEn = s.irqEn := rfl
@[simp] theorem takeFault_done (t : Trap) (s : State) : (takeFault t s).done = s.done := rfl
@[simp] theorem takeFault_err (t : Trap) (s : State) : (takeFault t s).err = true := rfl
@[simp] theorem takeFault_ovr (t : Trap) (s : State) : (takeFault t s).ovr = s.ovr := rfl
@[simp] theorem takeFault_ecode (t : Trap) (s : State) : (takeFault t s).ecode = trapCode t := rfl
@[simp] theorem takeFault_einfo (t : Trap) (s : State) : (takeFault t s).einfo = trapInfo t := rfl
@[simp] theorem takeFault_dstPos (t : Trap) (s : State) : (takeFault t s).dstPos = 0 := rfl
@[simp] theorem takeFault_tile (t : Trap) (s : State) : (takeFault t s).tile = 0 := rfl
@[simp] theorem takeFault_phase (t : Trap) (s : State) : (takeFault t s).phase = .idle := rfl
@[simp] theorem takeFault_held (t : Trap) (s : State) : (takeFault t s).held = s.held := rfl
@[simp] theorem takeFault_mem (t : Trap) (s : State) : (takeFault t s).mem = s.mem := rfl
@[simp] theorem takeFault_memMap (t : Trap) (s : State) : (takeFault t s).memMap = s.memMap := rfl
@[simp] theorem takeFault_regBase (t : Trap) (s : State) : (takeFault t s).regBase = s.regBase := rfl
@[simp] theorem takeFault_rst (t : Trap) (s : State) : (takeFault t s).rst = s.rst := rfl
@[simp] theorem takeFault_hostIn (t : Trap) (s : State) : (takeFault t s).hostIn = s.hostIn := rfl
@[simp] theorem takeFault_busData (t : Trap) (s : State) : (takeFault t s).busData = s.busData := rfl
@[simp] theorem takeFault_freeCtr (t : Trap) (s : State) : (takeFault t s).freeCtr = s.freeCtr := rfl

/-! ### `acknowledge` (47_system_commands R401) -/

@[simp] theorem acknowledge_regs (s : State) : (acknowledge s).regs = s.regs := rfl
@[simp] theorem acknowledge_irqEn (s : State) : (acknowledge s).irqEn = s.irqEn := rfl
@[simp] theorem acknowledge_done (s : State) : (acknowledge s).done = false := rfl
@[simp] theorem acknowledge_err (s : State) : (acknowledge s).err = false := rfl
@[simp] theorem acknowledge_ovr (s : State) : (acknowledge s).ovr = false := rfl
@[simp] theorem acknowledge_ecode (s : State) : (acknowledge s).ecode = 0 := rfl
@[simp] theorem acknowledge_einfo (s : State) : (acknowledge s).einfo = 0 := rfl
@[simp] theorem acknowledge_dstPos (s : State) : (acknowledge s).dstPos = 0 := rfl
@[simp] theorem acknowledge_tile (s : State) : (acknowledge s).tile = 0 := rfl
@[simp] theorem acknowledge_phase (s : State) : (acknowledge s).phase = s.phase := rfl
@[simp] theorem acknowledge_held (s : State) : (acknowledge s).held = s.held := rfl
@[simp] theorem acknowledge_mem (s : State) : (acknowledge s).mem = s.mem := rfl
@[simp] theorem acknowledge_memMap (s : State) : (acknowledge s).memMap = s.memMap := rfl
@[simp] theorem acknowledge_regBase (s : State) : (acknowledge s).regBase = s.regBase := rfl
@[simp] theorem acknowledge_rst (s : State) : (acknowledge s).rst = s.rst := rfl
@[simp] theorem acknowledge_hostIn (s : State) : (acknowledge s).hostIn = s.hostIn := rfl
@[simp] theorem acknowledge_busData (s : State) : (acknowledge s).busData = s.busData := rfl
@[simp] theorem acknowledge_freeCtr (s : State) : (acknowledge s).freeCtr = s.freeCtr := rfl

/-! ### `dropWrite` (10_state R38) -/

@[simp] theorem dropWrite_regs (s : State) : (dropWrite s).regs = s.regs := rfl
@[simp] theorem dropWrite_irqEn (s : State) : (dropWrite s).irqEn = s.irqEn := rfl
@[simp] theorem dropWrite_done (s : State) : (dropWrite s).done = s.done := rfl
@[simp] theorem dropWrite_err (s : State) : (dropWrite s).err = s.err := rfl
@[simp] theorem dropWrite_ovr (s : State) : (dropWrite s).ovr = true := rfl
@[simp] theorem dropWrite_ecode (s : State) : (dropWrite s).ecode = s.ecode := rfl
@[simp] theorem dropWrite_einfo (s : State) : (dropWrite s).einfo = s.einfo := rfl
@[simp] theorem dropWrite_dstPos (s : State) : (dropWrite s).dstPos = s.dstPos := rfl
@[simp] theorem dropWrite_tile (s : State) : (dropWrite s).tile = s.tile := rfl
@[simp] theorem dropWrite_phase (s : State) : (dropWrite s).phase = s.phase := rfl
@[simp] theorem dropWrite_held (s : State) : (dropWrite s).held = s.held := rfl
@[simp] theorem dropWrite_mem (s : State) : (dropWrite s).mem = s.mem := rfl
@[simp] theorem dropWrite_memMap (s : State) : (dropWrite s).memMap = s.memMap := rfl
@[simp] theorem dropWrite_regBase (s : State) : (dropWrite s).regBase = s.regBase := rfl
@[simp] theorem dropWrite_rst (s : State) : (dropWrite s).rst = s.rst := rfl
@[simp] theorem dropWrite_hostIn (s : State) : (dropWrite s).hostIn = s.hostIn := rfl
@[simp] theorem dropWrite_busData (s : State) : (dropWrite s).busData = s.busData := rfl
@[simp] theorem dropWrite_freeCtr (s : State) : (dropWrite s).freeCtr = s.freeCtr := rfl

/-! ### `complete` (10_state R39) -/

@[simp] theorem complete_regs (o : Operands) (f : Finished) (s : State) :
    (complete o f s).regs = { s.regs with srcPos := BitVec.ofNat 32 (o.srcPos.toNat + f.used) } := rfl
@[simp] theorem complete_irqEn (o : Operands) (f : Finished) (s : State) : (complete o f s).irqEn = s.irqEn := rfl
@[simp] theorem complete_done (o : Operands) (f : Finished) (s : State) : (complete o f s).done = true := rfl
@[simp] theorem complete_err (o : Operands) (f : Finished) (s : State) : (complete o f s).err = s.err := rfl
@[simp] theorem complete_ovr (o : Operands) (f : Finished) (s : State) : (complete o f s).ovr = s.ovr := rfl
@[simp] theorem complete_ecode (o : Operands) (f : Finished) (s : State) : (complete o f s).ecode = s.ecode := rfl
@[simp] theorem complete_einfo (o : Operands) (f : Finished) (s : State) : (complete o f s).einfo = s.einfo := rfl
@[simp] theorem complete_dstPos (o : Operands) (f : Finished) (s : State) :
    (complete o f s).dstPos = BitVec.ofNat 32 f.dstPos := rfl
@[simp] theorem complete_phase (o : Operands) (f : Finished) (s : State) : (complete o f s).phase = .idle := rfl
@[simp] theorem complete_held (o : Operands) (f : Finished) (s : State) : (complete o f s).held = s.held := rfl
@[simp] theorem complete_mem (o : Operands) (f : Finished) (s : State) : (complete o f s).mem = f.mem := rfl
@[simp] theorem complete_memMap (o : Operands) (f : Finished) (s : State) :
    (complete o f s).memMap = s.memMap := rfl
@[simp] theorem complete_regBase (o : Operands) (f : Finished) (s : State) :
    (complete o f s).regBase = s.regBase := rfl
@[simp] theorem complete_rst (o : Operands) (f : Finished) (s : State) : (complete o f s).rst = s.rst := rfl
@[simp] theorem complete_hostIn (o : Operands) (f : Finished) (s : State) :
    (complete o f s).hostIn = s.hostIn := rfl
@[simp] theorem complete_busData (o : Operands) (f : Finished) (s : State) :
    (complete o f s).busData = s.busData := rfl
@[simp] theorem complete_freeCtr (o : Operands) (f : Finished) (s : State) :
    (complete o f s).freeCtr = s.freeCtr := rfl

theorem complete_tile_some (o : Operands) (f : Finished) (s : State) (n : Nat) (h : f.tile = some n) :
    (complete o f s).tile = BitVec.ofNat 32 n := by
  simp [complete, h]

theorem complete_tile_none (o : Operands) (f : Finished) (s : State) (h : f.tile = none) :
    (complete o f s).tile = s.tile := by
  simp [complete, h]

/-! ### `havoc` (60_exceptions R435) -/

@[simp] theorem havoc_regs (rs : List Range) (s : State) : (havoc rs s).regs = s.regs := by cases rs <;> rfl
@[simp] theorem havoc_irqEn (rs : List Range) (s : State) : (havoc rs s).irqEn = s.irqEn := by cases rs <;> rfl
@[simp] theorem havoc_done (rs : List Range) (s : State) : (havoc rs s).done = s.done := by cases rs <;> rfl
@[simp] theorem havoc_err (rs : List Range) (s : State) : (havoc rs s).err = s.err := by cases rs <;> rfl
@[simp] theorem havoc_ovr (rs : List Range) (s : State) : (havoc rs s).ovr = s.ovr := by cases rs <;> rfl
@[simp] theorem havoc_ecode (rs : List Range) (s : State) : (havoc rs s).ecode = s.ecode := by cases rs <;> rfl
@[simp] theorem havoc_einfo (rs : List Range) (s : State) : (havoc rs s).einfo = s.einfo := by cases rs <;> rfl
@[simp] theorem havoc_dstPos (rs : List Range) (s : State) : (havoc rs s).dstPos = s.dstPos := by cases rs <;> rfl
@[simp] theorem havoc_tile (rs : List Range) (s : State) : (havoc rs s).tile = s.tile := by cases rs <;> rfl
@[simp] theorem havoc_phase (rs : List Range) (s : State) : (havoc rs s).phase = s.phase := by cases rs <;> rfl
@[simp] theorem havoc_held (rs : List Range) (s : State) : (havoc rs s).held = s.held := by cases rs <;> rfl
@[simp] theorem havoc_memMap (rs : List Range) (s : State) : (havoc rs s).memMap = s.memMap := by cases rs <;> rfl
@[simp] theorem havoc_regBase (rs : List Range) (s : State) :
    (havoc rs s).regBase = s.regBase := by cases rs <;> rfl
@[simp] theorem havoc_rst (rs : List Range) (s : State) : (havoc rs s).rst = s.rst := by cases rs <;> rfl
@[simp] theorem havoc_hostIn (rs : List Range) (s : State) : (havoc rs s).hostIn = s.hostIn := by cases rs <;> rfl
@[simp] theorem havoc_busData (rs : List Range) (s : State) :
    (havoc rs s).busData = s.busData := by cases rs <;> rfl

/-! ### `faultRunning` (60_exceptions R430, R435) -/

@[simp] theorem faultRunning_regs (r : Rule) (o : Operands) (t : Trap) (s : State) :
    (faultRunning r o t s).regs = s.regs := by simp [faultRunning]
@[simp] theorem faultRunning_irqEn (r : Rule) (o : Operands) (t : Trap) (s : State) :
    (faultRunning r o t s).irqEn = s.irqEn := by simp [faultRunning]
@[simp] theorem faultRunning_done (r : Rule) (o : Operands) (t : Trap) (s : State) :
    (faultRunning r o t s).done = s.done := by simp [faultRunning]
@[simp] theorem faultRunning_err (r : Rule) (o : Operands) (t : Trap) (s : State) :
    (faultRunning r o t s).err = true := by simp [faultRunning]
@[simp] theorem faultRunning_ovr (r : Rule) (o : Operands) (t : Trap) (s : State) :
    (faultRunning r o t s).ovr = s.ovr := by simp [faultRunning]
@[simp] theorem faultRunning_ecode (r : Rule) (o : Operands) (t : Trap) (s : State) :
    (faultRunning r o t s).ecode = trapCode t := by simp [faultRunning]
@[simp] theorem faultRunning_einfo (r : Rule) (o : Operands) (t : Trap) (s : State) :
    (faultRunning r o t s).einfo = trapInfo t := by simp [faultRunning]
@[simp] theorem faultRunning_dstPos (r : Rule) (o : Operands) (t : Trap) (s : State) :
    (faultRunning r o t s).dstPos = 0 := by simp [faultRunning]
@[simp] theorem faultRunning_tile (r : Rule) (o : Operands) (t : Trap) (s : State) :
    (faultRunning r o t s).tile = 0 := by simp [faultRunning]
@[simp] theorem faultRunning_phase (r : Rule) (o : Operands) (t : Trap) (s : State) :
    (faultRunning r o t s).phase = .idle := by simp [faultRunning]
@[simp] theorem faultRunning_held (r : Rule) (o : Operands) (t : Trap) (s : State) :
    (faultRunning r o t s).held = s.held := by simp [faultRunning]
@[simp] theorem faultRunning_mem (r : Rule) (o : Operands) (t : Trap) (s : State) :
    (faultRunning r o t s).mem = (havoc (r.outputs o) s).mem := by simp [faultRunning]
@[simp] theorem faultRunning_memMap (r : Rule) (o : Operands) (t : Trap) (s : State) :
    (faultRunning r o t s).memMap = s.memMap := by simp [faultRunning]
@[simp] theorem faultRunning_regBase (r : Rule) (o : Operands) (t : Trap) (s : State) :
    (faultRunning r o t s).regBase = s.regBase := by simp [faultRunning]
@[simp] theorem faultRunning_rst (r : Rule) (o : Operands) (t : Trap) (s : State) :
    (faultRunning r o t s).rst = s.rst := by simp [faultRunning]
@[simp] theorem faultRunning_hostIn (r : Rule) (o : Operands) (t : Trap) (s : State) :
    (faultRunning r o t s).hostIn = s.hostIn := by simp [faultRunning]
@[simp] theorem faultRunning_busData (r : Rule) (o : Operands) (t : Trap) (s : State) :
    (faultRunning r o t s).busData = s.busData := by simp [faultRunning]
@[simp] theorem faultRunning_freeCtr (r : Rule) (o : Operands) (t : Trap) (s : State) :
    (faultRunning r o t s).freeCtr = (havoc (r.outputs o) s).freeCtr := by simp [faultRunning]

/-! ### `finishCommand` (10_state R39) -/

@[simp] theorem finishCommand_regs (r : Rule) (o : Operands) (f : Finished) (s : State) :
    (finishCommand r o f s).regs =
      { s.regs with srcPos := BitVec.ofNat 32 (o.srcPos.toNat + f.used) } := by simp [finishCommand]
@[simp] theorem finishCommand_irqEn (r : Rule) (o : Operands) (f : Finished) (s : State) :
    (finishCommand r o f s).irqEn = s.irqEn := by simp [finishCommand]
@[simp] theorem finishCommand_done (r : Rule) (o : Operands) (f : Finished) (s : State) :
    (finishCommand r o f s).done = true := by simp [finishCommand]
@[simp] theorem finishCommand_err (r : Rule) (o : Operands) (f : Finished) (s : State) :
    (finishCommand r o f s).err = s.err := by simp [finishCommand]
@[simp] theorem finishCommand_ovr (r : Rule) (o : Operands) (f : Finished) (s : State) :
    (finishCommand r o f s).ovr = s.ovr := by simp [finishCommand]
@[simp] theorem finishCommand_ecode (r : Rule) (o : Operands) (f : Finished) (s : State) :
    (finishCommand r o f s).ecode = s.ecode := by simp [finishCommand]
@[simp] theorem finishCommand_einfo (r : Rule) (o : Operands) (f : Finished) (s : State) :
    (finishCommand r o f s).einfo = s.einfo := by simp [finishCommand]
@[simp] theorem finishCommand_dstPos (r : Rule) (o : Operands) (f : Finished) (s : State) :
    (finishCommand r o f s).dstPos = BitVec.ofNat 32 f.dstPos := by simp [finishCommand]
@[simp] theorem finishCommand_tile (r : Rule) (o : Operands) (f : Finished) (s : State) :
    (finishCommand r o f s).tile = (complete o f s).tile := by simp [finishCommand]
@[simp] theorem finishCommand_phase (r : Rule) (o : Operands) (f : Finished) (s : State) :
    (finishCommand r o f s).phase = .idle := by simp [finishCommand]
@[simp] theorem finishCommand_held (r : Rule) (o : Operands) (f : Finished) (s : State) :
    (finishCommand r o f s).held = s.held := by simp [finishCommand]
@[simp] theorem finishCommand_mem (r : Rule) (o : Operands) (f : Finished) (s : State) :
    (finishCommand r o f s).mem = (havoc (r.scratch o) (complete o f s)).mem := by simp [finishCommand]
@[simp] theorem finishCommand_memMap (r : Rule) (o : Operands) (f : Finished) (s : State) :
    (finishCommand r o f s).memMap = s.memMap := by simp [finishCommand]
@[simp] theorem finishCommand_regBase (r : Rule) (o : Operands) (f : Finished) (s : State) :
    (finishCommand r o f s).regBase = s.regBase := by simp [finishCommand]
@[simp] theorem finishCommand_rst (r : Rule) (o : Operands) (f : Finished) (s : State) :
    (finishCommand r o f s).rst = s.rst := by simp [finishCommand]
@[simp] theorem finishCommand_hostIn (r : Rule) (o : Operands) (f : Finished) (s : State) :
    (finishCommand r o f s).hostIn = s.hostIn := by simp [finishCommand]
@[simp] theorem finishCommand_busData (r : Rule) (o : Operands) (f : Finished) (s : State) :
    (finishCommand r o f s).busData = s.busData := by simp [finishCommand]
@[simp] theorem finishCommand_freeCtr (r : Rule) (o : Operands) (f : Finished) (s : State) :
    (finishCommand r o f s).freeCtr = (havoc (r.scratch o) (complete o f s)).freeCtr := by simp [finishCommand]

/-! ### `acceptCommand` (47_system_commands R404) -/

@[simp] theorem acceptCommand_regs (v : Word) (s : State) : (acceptCommand v s).regs = s.regs := rfl
@[simp] theorem acceptCommand_irqEn (v : Word) (s : State) : (acceptCommand v s).irqEn = s.irqEn := rfl
@[simp] theorem acceptCommand_done (v : Word) (s : State) : (acceptCommand v s).done = false := rfl
@[simp] theorem acceptCommand_err (v : Word) (s : State) : (acceptCommand v s).err = s.err := rfl
@[simp] theorem acceptCommand_ovr (v : Word) (s : State) : (acceptCommand v s).ovr = s.ovr := rfl
@[simp] theorem acceptCommand_ecode (v : Word) (s : State) : (acceptCommand v s).ecode = s.ecode := rfl
@[simp] theorem acceptCommand_einfo (v : Word) (s : State) : (acceptCommand v s).einfo = s.einfo := rfl
@[simp] theorem acceptCommand_dstPos (v : Word) (s : State) : (acceptCommand v s).dstPos = s.dstPos := rfl
@[simp] theorem acceptCommand_tile (v : Word) (s : State) : (acceptCommand v s).tile = s.tile := rfl
@[simp] theorem acceptCommand_phase (v : Word) (s : State) :
    (acceptCommand v s).phase = .busy (newPending v s) := rfl
@[simp] theorem acceptCommand_held (v : Word) (s : State) : (acceptCommand v s).held = s.held := rfl
@[simp] theorem acceptCommand_mem (v : Word) (s : State) : (acceptCommand v s).mem = s.mem := rfl
@[simp] theorem acceptCommand_memMap (v : Word) (s : State) : (acceptCommand v s).memMap = s.memMap := rfl
@[simp] theorem acceptCommand_regBase (v : Word) (s : State) : (acceptCommand v s).regBase = s.regBase := rfl
@[simp] theorem acceptCommand_rst (v : Word) (s : State) : (acceptCommand v s).rst = s.rst := rfl
@[simp] theorem acceptCommand_hostIn (v : Word) (s : State) : (acceptCommand v s).hostIn = s.hostIn := rfl
@[simp] theorem acceptCommand_busData (v : Word) (s : State) : (acceptCommand v s).busData = s.busData := rfl
@[simp] theorem acceptCommand_freeCtr (v : Word) (s : State) : (acceptCommand v s).freeCtr = s.freeCtr + 1 := rfl

/-! ### `setWork` (10_state R43) -/

@[simp] theorem setWork_regs (p : Pending) (w : Work) (s : State) : (setWork p w s).regs = s.regs := rfl
@[simp] theorem setWork_irqEn (p : Pending) (w : Work) (s : State) : (setWork p w s).irqEn = s.irqEn := rfl
@[simp] theorem setWork_done (p : Pending) (w : Work) (s : State) : (setWork p w s).done = s.done := rfl
@[simp] theorem setWork_err (p : Pending) (w : Work) (s : State) : (setWork p w s).err = s.err := rfl
@[simp] theorem setWork_ovr (p : Pending) (w : Work) (s : State) : (setWork p w s).ovr = s.ovr := rfl
@[simp] theorem setWork_ecode (p : Pending) (w : Work) (s : State) : (setWork p w s).ecode = s.ecode := rfl
@[simp] theorem setWork_einfo (p : Pending) (w : Work) (s : State) : (setWork p w s).einfo = s.einfo := rfl
@[simp] theorem setWork_dstPos (p : Pending) (w : Work) (s : State) : (setWork p w s).dstPos = s.dstPos := rfl
@[simp] theorem setWork_tile (p : Pending) (w : Work) (s : State) : (setWork p w s).tile = s.tile := rfl
@[simp] theorem setWork_phase (p : Pending) (w : Work) (s : State) :
    (setWork p w s).phase = .busy { p with work := w } := rfl
@[simp] theorem setWork_held (p : Pending) (w : Work) (s : State) : (setWork p w s).held = s.held := rfl
@[simp] theorem setWork_mem (p : Pending) (w : Work) (s : State) : (setWork p w s).mem = s.mem := rfl
@[simp] theorem setWork_memMap (p : Pending) (w : Work) (s : State) : (setWork p w s).memMap = s.memMap := rfl
@[simp] theorem setWork_regBase (p : Pending) (w : Work) (s : State) : (setWork p w s).regBase = s.regBase := rfl
@[simp] theorem setWork_rst (p : Pending) (w : Work) (s : State) : (setWork p w s).rst = s.rst := rfl
@[simp] theorem setWork_hostIn (p : Pending) (w : Work) (s : State) : (setWork p w s).hostIn = s.hostIn := rfl
@[simp] theorem setWork_busData (p : Pending) (w : Work) (s : State) : (setWork p w s).busData = s.busData := rfl
@[simp] theorem setWork_freeCtr (p : Pending) (w : Work) (s : State) : (setWork p w s).freeCtr = s.freeCtr := rfl

/-! ### `holdWindows` (70_reset_and_hazards R480) -/

@[simp] theorem holdWindows_regs (s : State) : (holdWindows s).regs = s.regs := rfl
@[simp] theorem holdWindows_irqEn (s : State) : (holdWindows s).irqEn = s.irqEn := rfl
@[simp] theorem holdWindows_done (s : State) : (holdWindows s).done = s.done := rfl
@[simp] theorem holdWindows_err (s : State) : (holdWindows s).err = s.err := rfl
@[simp] theorem holdWindows_ovr (s : State) : (holdWindows s).ovr = s.ovr := rfl
@[simp] theorem holdWindows_ecode (s : State) : (holdWindows s).ecode = s.ecode := rfl
@[simp] theorem holdWindows_einfo (s : State) : (holdWindows s).einfo = s.einfo := rfl
@[simp] theorem holdWindows_dstPos (s : State) : (holdWindows s).dstPos = s.dstPos := rfl
@[simp] theorem holdWindows_tile (s : State) : (holdWindows s).tile = s.tile := rfl
@[simp] theorem holdWindows_phase (s : State) : (holdWindows s).phase = s.phase := rfl
@[simp] theorem holdWindows_mem (s : State) : (holdWindows s).mem = s.mem := rfl
@[simp] theorem holdWindows_memMap (s : State) : (holdWindows s).memMap = s.memMap := rfl
@[simp] theorem holdWindows_regBase (s : State) : (holdWindows s).regBase = s.regBase := rfl
@[simp] theorem holdWindows_rst (s : State) : (holdWindows s).rst = s.rst := rfl
@[simp] theorem holdWindows_hostIn (s : State) : (holdWindows s).hostIn = s.hostIn := rfl
@[simp] theorem holdWindows_busData (s : State) : (holdWindows s).busData = s.busData := rfl
@[simp] theorem holdWindows_freeCtr (s : State) : (holdWindows s).freeCtr = s.freeCtr := rfl
@[simp] theorem holdWindows_held (s : State) : (holdWindows s).held = busyWindows s ++ s.held := rfl

/-! ### `readRegister` (47_system_commands R402, 70_reset_and_hazards R480) -/

@[simp] theorem readRegister_regs (r : Reg) (s : State) : (readRegister r s).regs = s.regs := rfl
@[simp] theorem readRegister_irqEn (r : Reg) (s : State) : (readRegister r s).irqEn = s.irqEn := rfl
@[simp] theorem readRegister_done (r : Reg) (s : State) : (readRegister r s).done = s.done := rfl
@[simp] theorem readRegister_err (r : Reg) (s : State) : (readRegister r s).err = s.err := rfl
@[simp] theorem readRegister_ovr (r : Reg) (s : State) : (readRegister r s).ovr = s.ovr := rfl
@[simp] theorem readRegister_ecode (r : Reg) (s : State) : (readRegister r s).ecode = s.ecode := rfl
@[simp] theorem readRegister_einfo (r : Reg) (s : State) : (readRegister r s).einfo = s.einfo := rfl
@[simp] theorem readRegister_dstPos (r : Reg) (s : State) : (readRegister r s).dstPos = s.dstPos := rfl
@[simp] theorem readRegister_tile (r : Reg) (s : State) : (readRegister r s).tile = s.tile := rfl
@[simp] theorem readRegister_phase (r : Reg) (s : State) : (readRegister r s).phase = s.phase := rfl
@[simp] theorem readRegister_mem (r : Reg) (s : State) : (readRegister r s).mem = s.mem := rfl
@[simp] theorem readRegister_memMap (r : Reg) (s : State) : (readRegister r s).memMap = s.memMap := rfl
@[simp] theorem readRegister_regBase (r : Reg) (s : State) : (readRegister r s).regBase = s.regBase := rfl
@[simp] theorem readRegister_rst (r : Reg) (s : State) : (readRegister r s).rst = s.rst := rfl
@[simp] theorem readRegister_hostIn (r : Reg) (s : State) : (readRegister r s).hostIn = s.hostIn := rfl
@[simp] theorem readRegister_busData (r : Reg) (s : State) : (readRegister r s).busData = readReg r s := rfl
@[simp] theorem readRegister_freeCtr (r : Reg) (s : State) : (readRegister r s).freeCtr = s.freeCtr := rfl
@[simp] theorem readRegister_held (r : Reg) (s : State) :
    (readRegister r s).held = if r = .status ∧ busyFlag s = false then [] else s.held := rfl

/-! ### `assertReset` (70_reset_and_hazards R471) -/

@[simp] theorem assertReset_regs (s : State) : (assertReset s).regs = Operands.reset := rfl
@[simp] theorem assertReset_irqEn (s : State) : (assertReset s).irqEn = 0 := rfl
@[simp] theorem assertReset_done (s : State) : (assertReset s).done = false := rfl
@[simp] theorem assertReset_err (s : State) : (assertReset s).err = false := rfl
@[simp] theorem assertReset_ovr (s : State) : (assertReset s).ovr = false := rfl
@[simp] theorem assertReset_ecode (s : State) : (assertReset s).ecode = 0 := rfl
@[simp] theorem assertReset_einfo (s : State) : (assertReset s).einfo = 0 := rfl
@[simp] theorem assertReset_dstPos (s : State) : (assertReset s).dstPos = 0 := rfl
@[simp] theorem assertReset_tile (s : State) : (assertReset s).tile = 0 := rfl
@[simp] theorem assertReset_phase (s : State) : (assertReset s).phase = .idle := rfl
@[simp] theorem assertReset_held (s : State) : (assertReset s).held = [] := rfl
@[simp] theorem assertReset_mem (s : State) : (assertReset s).mem = (havoc (busyOutputs s) s).mem := rfl
@[simp] theorem assertReset_memMap (s : State) : (assertReset s).memMap = s.memMap := by simp [assertReset]
@[simp] theorem assertReset_regBase (s : State) : (assertReset s).regBase = s.regBase := by simp [assertReset]
@[simp] theorem assertReset_rst (s : State) : (assertReset s).rst = true := rfl
@[simp] theorem assertReset_hostIn (s : State) : (assertReset s).hostIn = s.hostIn := by simp [assertReset]
@[simp] theorem assertReset_busData (s : State) : (assertReset s).busData = s.busData := by simp [assertReset]
@[simp] theorem assertReset_freeCtr (s : State) : (assertReset s).freeCtr = (havoc (busyOutputs s) s).freeCtr := rfl

end Sys2Proof.Machine
end

