-- ==== Sys2Proof/Laws/Ops.lean ====
section
/-! SUPPORT. One lemma for each shared operation that says all it can do: `BUS_ERROR`'s choice, the end of a command,
the meaning of a command over its rule. -/

namespace Sys2Proof.Machine

/-- An entitled set that is wholly valid rules `BUS_ERROR`'s choice out (60_exceptions R429). -/
theorem busChoice_of_valid {r : Rule} {o : Operands} {s : State}
    (h : ∀ x ∈ r.source o :: r.outputs o, ∀ a, inRange x a = true → memValid s.memMap a = true) :
    busChoice r o s = none := by
  unfold busChoice
  simp only
  split
  · rfl
  · split
    · next h2 =>
      simp only [Bool.and_eq_true, List.any_eq_true, Bool.not_eq_true'] at h2
      obtain ⟨⟨x, hx, hr⟩, hv⟩ := h2
      rw [h x hx _ hr] at hv
      cases hv
    · rfl

/-- A start check that applies ends the command (60_exceptions R433). -/
theorem endCommand_check {r : Rule} {o : Operands} {s : State} {t : Trap} (h : r.check o = some t) :
    endCommand r o s = takeFault t s := by
  simp [endCommand, h]

/-- A command whose checks pass and whose run finishes is completed. -/
theorem endCommand_ok {r : Rule} {o : Operands} {s : State} {f : Finished} (h : r.check o = none)
    (hb : busChoice r o s = none) (hr : r.run s.memMap o s.mem = .ok f) :
    endCommand r o s = finishCommand r o f s := by
  simp [endCommand, h, hb, hr]

/-- A command whose checks pass and whose run faults ends with that fault. -/
theorem endCommand_error {r : Rule} {o : Operands} {s : State} {t : Trap} (h : r.check o = none)
    (hb : busChoice r o s = none) (hr : r.run s.memMap o s.mem = .error t) :
    endCommand r o s = faultRunning r o t s := by
  simp [endCommand, h, hb, hr]

/-- All the ways a command can end. -/
theorem endCommand_cases (r : Rule) (o : Operands) (s : State) :
    (∃ t, r.check o = some t ∧ endCommand r o s = takeFault t s) ∨
    (∃ t, r.check o = none ∧ endCommand r o s = faultRunning r o t s) ∨
    (∃ f, r.check o = none ∧ r.run s.memMap o s.mem = .ok f ∧ endCommand r o s = finishCommand r o f s) := by
  unfold endCommand
  split
  · next t h => exact .inl ⟨t, h, rfl⟩
  · next h =>
    split
    · next a _ => exact .inr (.inl ⟨_, h, rfl⟩)
    · split
      · next t _ => exact .inr (.inl ⟨t, h, rfl⟩)
      · next f hf => exact .inr (.inr ⟨f, h, hf, rfl⟩)

/-- Every command ends (70_reset_and_hazards R488). -/
@[simp] theorem endCommand_phase (r : Rule) (o : Operands) (s : State) : (endCommand r o s).phase = .idle := by
  rcases endCommand_cases r o s with ⟨t, _, h⟩ | ⟨t, _, h⟩ | ⟨f, _, _, h⟩ <;> simp [h]

/-- The end of a command gives the host no window back (70_reset_and_hazards R480). -/
@[simp] theorem endCommand_held (r : Rule) (o : Operands) (s : State) : (endCommand r o s).held = s.held := by
  rcases endCommand_cases r o s with ⟨t, _, h⟩ | ⟨t, _, h⟩ | ⟨f, _, _, h⟩ <;> simp [h]

/-- The meaning of a command while it is pending. -/
theorem runRule_busy {r : Rule} {s : State} {p : Pending} (h : s.phase = .busy p) :
    runRule r s = .next (endCommand r p.ops s) := by
  simp [runRule, h]

/-- The meaning of a command word in IDLE with no fault recorded. -/
theorem runRule_idle {r : Rule} {s : State} (h : s.phase = .idle) (he : s.err = false) :
    runRule r s =
      .next (endCommand r s.regs { s with done := false, held := r.windows s.regs ++ s.held }) := by
  simp [runRule, h, he]

/-- A command word while a fault is recorded is dropped (47_system_commands R405). -/
theorem runRule_err {r : Rule} {s : State} (h : s.phase = .idle) (he : s.err = true) :
    runRule r s = .next (dropWrite s) := by
  simp [runRule, h, he]

/-- A command over a rule never stops the machine. -/
theorem runRule_next (r : Rule) (s : State) : ∃ t, runRule r s = .next t := by
  unfold runRule
  split
  · exact ⟨_, rfl⟩
  · split <;> exact ⟨_, rfl⟩

/-- The run of a rule keeps the canonical form. -/
def Rule.KeepsMemory (r : Rule) : Prop :=
  ∀ mm o m f, r.run mm o m = .ok f → Memory.wf m → Memory.wf f.mem

/-- The end of a command keeps the canonical form. -/
theorem endCommand_wf {r : Rule} (hr : r.KeepsMemory) {o : Operands} {s : State} (h : s.mem.wf) :
    (endCommand r o s).mem.wf := by
  rcases endCommand_cases r o s with ⟨t, _, he⟩ | ⟨t, _, he⟩ | ⟨f, _, hf, he⟩
  · rw [he, takeFault_mem]; exact h
  · rw [he, faultRunning_mem]; exact havoc_wf h
  · rw [he, finishCommand_mem]; exact havoc_wf (by simpa using hr _ _ _ _ hf h)

/-! ## The host's memory writes -/

/-- All that a host memory write can do (70_reset_and_hazards R480; logs 9, 18). -/
theorem hostMemWrite_cases (a : Nat) (b : Byte) (s : State) :
    (memValid s.memMap a = false ∧ hostMemWrite a b s = .fault (.hostAddress a)) ∨
    (memValid s.memMap a = true ∧ (forbiddenWindows s).any (inRange · a) = true ∧
      hostMemWrite a b s = .refuse (.hostWroteWindow a)) ∨
    (memValid s.memMap a = true ∧ (forbiddenWindows s).any (inRange · a) = false ∧
      hostMemWrite a b s = .goto { s with mem := memPut s.mem a b }) := by
  cases hv : memValid s.memMap a <;> cases hf : (forbiddenWindows s).any (inRange · a) <;> simp [hostMemWrite, hv, hf]

/-- In IDLE the forbidden windows are the held ones. -/
theorem forbiddenWindows_idle {s : State} (h : s.phase = .idle) : forbiddenWindows s = s.held := by
  simp [forbiddenWindows, busyWindows, h]

/-! ## Sequencing -/

/-- Taking a sequenced computation apart. -/
theorem bind_eq_ok {α β : Type} {x : Except Trap α} {f : α → Except Trap β} {b : β} :
    (x >>= f) = .ok b ↔ ∃ a, x = .ok a ∧ f a = .ok b := by
  cases x <;> simp [bind, Except.bind]

/-- Taking a mapped computation apart. -/
theorem map_eq_ok {α β : Type} {x : Except Trap α} {f : α → β} {b : β} :
    x.map f = .ok b ↔ ∃ a, x = .ok a ∧ f a = b := by
  cases x <;> simp [Except.map]

end Sys2Proof.Machine
end

