-- ==== Sys2Proof/Laws/PerInstr.lean ====
section
/-! SUPPORT. The per-instruction family `EncodeFits`: an instruction's bits fit its format (30_encoding R100, R112,
R117). -/

namespace Sys2Proof.Laws.EncodeFits

open Sys2Proof.Machine

/-- The bits of a well-formed instruction fit the width of its format. -/
def Statement (i : Instr) : Prop := wellFormed i = true → encodeValue i < 2 ^ formatBits (formatOf i)

/-- Packed fields take no more room than their widths together. -/
theorem pack_lt (ws vs : List Nat) : pack (ws.zip vs) < 2 ^ ws.sum := by
  induction ws generalizing vs with
  | nil => simp [pack]
  | cons w ws ih =>
    cases vs with
    | nil => simp [pack]
    | cons v vs =>
      have h1 : v % 2 ^ w < 2 ^ w := Nat.mod_lt _ (by positivity)
      have h2 : pack (ws.zip vs) + 1 ≤ 2 ^ ws.sum := ih vs
      rw [List.zip_cons_cons, pack, List.sum_cons, pow_add]
      calc v % 2 ^ w + 2 ^ w * pack (ws.zip vs) < 2 ^ w + 2 ^ w * pack (ws.zip vs) := by omega
        _ = 2 ^ w * (pack (ws.zip vs) + 1) := by ring
        _ ≤ 2 ^ w * 2 ^ ws.sum := Nat.mul_le_mul_left _ h2

/-- A block's fields fill the block when its widths do (R112). -/
theorem encodeBc7_lt (m : Nat) (f : Bc7Fields) (h : (bc7Widths m).sum = 128) : encodeBc7 m f < 2 ^ 128 :=
  h ▸ pack_lt (bc7Widths m) (bc7Values m f)

theorem nop : Statement .nop := fun _ => by decide
theorem clr : Statement .clr := fun _ => by decide
theorem bcdBc1 : Statement .bcdBc1 := fun _ => by decide
theorem bcdBc2 : Statement .bcdBc2 := fun _ => by decide
theorem bcdBc3 : Statement .bcdBc3 := fun _ => by decide
theorem bcdBc4 : Statement .bcdBc4 := fun _ => by decide
theorem bcdBc5 : Statement .bcdBc5 := fun _ => by decide
theorem bcdBc7 : Statement .bcdBc7 := fun _ => by decide
theorem bcdBc7s : Statement .bcdBc7s := fun _ => by decide
theorem zpfRecon : Statement .zpfRecon := fun _ => by decide
theorem zpfIntlv : Statement .zpfIntlv := fun _ => by decide
theorem zpfReord : Statement .zpfReord := fun _ => by decide
theorem zpfDecon : Statement .zpfDecon := fun _ => by decide
theorem zpfInflate : Statement .zpfInflate := fun _ => by decide
theorem zpfUnzip : Statement .zpfUnzip := fun _ => by decide
theorem zpfFilt : Statement .zpfFilt := fun _ => by decide
theorem nrmF32 : Statement .nrmF32 := fun _ => by decide
theorem nrmF16 : Statement .nrmF16 := fun _ => by decide
theorem nrmU32 : Statement .nrmU32 := fun _ => by decide
theorem bc7Mode0 (f : Bc7Fields) : Statement (.bc7Mode0 f) := fun _ => encodeBc7_lt 0 f (by decide)
theorem bc7Mode1 (f : Bc7Fields) : Statement (.bc7Mode1 f) := fun _ => encodeBc7_lt 1 f (by decide)
theorem bc7Mode2 (f : Bc7Fields) : Statement (.bc7Mode2 f) := fun _ => encodeBc7_lt 2 f (by decide)
theorem bc7Mode3 (f : Bc7Fields) : Statement (.bc7Mode3 f) := fun _ => encodeBc7_lt 3 f (by decide)
theorem bc7Mode4 (f : Bc7Fields) : Statement (.bc7Mode4 f) := fun _ => encodeBc7_lt 4 f (by decide)
theorem bc7Mode5 (f : Bc7Fields) : Statement (.bc7Mode5 f) := fun _ => encodeBc7_lt 5 f (by decide)
theorem bc7Mode6 (f : Bc7Fields) : Statement (.bc7Mode6 f) := fun _ => encodeBc7_lt 6 f (by decide)
theorem bc7Mode7 (f : Bc7Fields) : Statement (.bc7Mode7 f) := fun _ => encodeBc7_lt 7 f (by decide)

theorem bc7Reserved (ignored : BitVec 120) : Statement (.bc7Reserved ignored) := fun _ => by
  have := ignored.isLt
  simp only [encodeValue, formatOf, formatBits]
  omega

theorem deflateStored (bfinal : Bool) : Statement (.deflateStored bfinal) := fun _ => by cases bfinal <;> decide
theorem deflateFixed (bfinal : Bool) : Statement (.deflateFixed bfinal) := fun _ => by cases bfinal <;> decide
theorem deflateDynamic (bfinal : Bool) : Statement (.deflateDynamic bfinal) := fun _ => by cases bfinal <;> decide
theorem deflateReserved (bfinal : Bool) : Statement (.deflateReserved bfinal) := fun _ => by cases bfinal <;> decide

end Sys2Proof.Laws.EncodeFits
end

