-- ==== Sys2Proof/Laws/Units.lean ====
section
/-! SUPPORT. The units: what a stored tile, the tile loop, the filters, the pixel loop and the inflater do to memory and
to lengths, each said once. -/

namespace Sys2Proof.Machine

/-! ## BCD -/

/-- A stored tile keeps the canonical form. -/
theorem storeTile_wf {mm : List Region} {o : Operands} {k i : Nat} {ts : List Texel} {m m' : Memory}
    (h : storeTile mm o k i ts m = .ok m') (hm : m.wf) : m'.wf := by
  induction ts generalizing i m with
  | nil => cases h; exact hm
  | cons t ts ih =>
    unfold storeTile at h
    split at h
    · obtain ⟨m1, h1, h2⟩ := bind_eq_ok.1 h
      exact ih h2 (storeBytes_wf h1 hm)
    · exact ih h hm

/-- A stored tile leaves alone every byte that is not of one of its texels inside the plane (40_bcd_common_bc1 R156). -/
theorem storeTile_frame {mm : List Region} {o : Operands} {k i : Nat} {ts : List Texel} {m m' : Memory}
    (h : storeTile mm o k i ts m = .ok m') {a : Nat}
    (ha : ∀ j, i ≤ j → j < i + ts.length → texelX o k j < planeWidth o → texelY o k j < planeHeight o →
      ¬(texelAddr o (texelX o k j) (texelY o k j) ≤ a ∧ a < texelAddr o (texelX o k j) (texelY o k j) + 4)) :
    memGet m' a = memGet m a := by
  induction ts generalizing i m with
  | nil => cases h; rfl
  | cons t ts ih =>
    simp only [List.length_cons] at ha
    unfold storeTile at h
    split at h
    · next hin =>
      obtain ⟨m1, h1, h2⟩ := bind_eq_ok.1 h
      rw [ih h2 (fun j hj hj' => ha j (by omega) (by omega))]
      exact storeBytes_frame h1 (ha i (le_refl i) (by omega) hin.1 hin.2)
    · exact ih h (fun j hj hj' => ha j (by omega) (by omega))

theorem bcdLoop_wf {block : List Byte → List Texel} {size n k : Nat} {mm : List Region} {o : Operands} {m m' : Memory}
    (h : bcdLoop block size mm o n k m = .ok m') (hm : m.wf) : m'.wf := by
  induction n generalizing k m with
  | zero => cases h; exact hm
  | succ n ih =>
    obtain ⟨m1, h1, h2⟩ := bind_eq_ok.1 h
    obtain ⟨bs, -, h3⟩ := bind_eq_ok.1 h1
    exact ih h2 (storeTile_wf h3 hm)

theorem bcdRule_keepsMemory (block : List Byte → List Texel) (size : Nat) : (bcdRule block size).KeepsMemory := by
  intro mm o m f h hm
  obtain ⟨m', h1, rfl⟩ := map_eq_ok.1 h
  exact bcdLoop_wf h1 hm

theorem unsupportedRule_keepsMemory (op : Nat) : (unsupportedRule op).KeepsMemory := by
  intro mm o m f h
  cases h

@[simp] theorem bc1Color_length (bs : List Byte) (b : Bool) : (bc1Color bs b).length = 16 := by simp [bc1Color]
@[simp] theorem alphaBlock_length (bs : List Byte) : (alphaBlock bs).length = 16 := by simp [alphaBlock]
@[simp] theorem bc1Block_length (bs : List Byte) : (bc1Block bs).length = 16 := by simp [bc1Block]
@[simp] theorem bc3Block_length (bs : List Byte) : (bc3Block bs).length = 16 := by simp [bc3Block]
@[simp] theorem bc4Block_length (bs : List Byte) : (bc4Block bs).length = 16 := by simp [bc4Block]
@[simp] theorem bc5Block_length (bs : List Byte) : (bc5Block bs).length = 16 := by simp [bc5Block]
@[simp] theorem bc7Texels_length (m : Nat) (f : Bc7Fields) : (bc7Texels m f).length = 16 := by simp [bc7Texels]
@[simp] theorem bc7ReservedTexels_length : bc7ReservedTexels.length = 16 := rfl
@[simp] theorem bc7Block_length (bs : List Byte) : (bc7Block bs).length = 16 := by
  unfold bc7Block; split <;> simp

/-! ## ZPF filters -/

@[simp] theorem reconFrom_length (p : Byte) (bs : List Byte) : (reconFrom p bs).length = bs.length := by
  induction bs generalizing p with
  | nil => rfl
  | cons b bs ih => simp [reconFrom, ih]

@[simp] theorem deconFrom_length (p : Byte) (bs : List Byte) : (deconFrom p bs).length = bs.length := by
  induction bs generalizing p with
  | nil => rfl
  | cons b bs ih => simp [deconFrom, ih]

theorem recon_length (bs : List Byte) : (recon bs).length = bs.length := by cases bs <;> simp [recon]

theorem decon_length (bs : List Byte) : (decon bs).length = bs.length := by cases bs <;> simp [decon]

@[simp] theorem alternate_length (xs ys : List Byte) : (alternate xs ys).length = xs.length + ys.length := by
  induction xs generalizing ys with
  | nil => simp [alternate]
  | cons x xs ih =>
    cases ys with
    | nil => simp [alternate]
    | cons y ys => simp [alternate, ih]; omega

theorem intlv_length (bs : List Byte) : (intlv bs).length = bs.length := by
  simp [intlv, firstHalf]; omega

theorem filterRule_keepsMemory (f : List Byte → List Byte) : (filterRule f).KeepsMemory := by
  intro mm o m fin h hm
  obtain ⟨bs, -, h⟩ := bind_eq_ok.1 h
  obtain ⟨m1, h1, h⟩ := bind_eq_ok.1 h
  cases h
  exact storeBytes_wf h1 hm

theorem filtRule_keepsMemory : filtRule.KeepsMemory := by
  intro mm o m fin h hm
  obtain ⟨bs, -, h⟩ := bind_eq_ok.1 h
  obtain ⟨m1, h1, h⟩ := bind_eq_ok.1 h
  obtain ⟨m2, h2, h⟩ := bind_eq_ok.1 h
  cases h
  exact storeBytes_wf h2 (storeBytes_wf h1 hm)

/-! ## NRM -/

theorem nrmLoop_wf {fmt : NrmFormat} {n k : Nat} {mm : List Region} {o : Operands} {m m' : Memory}
    (h : nrmLoop fmt mm o n k m = .ok m') (hm : m.wf) : m'.wf := by
  induction n generalizing k m with
  | zero => cases h; exact hm
  | succ n ih =>
    obtain ⟨m1, h1, h2⟩ := bind_eq_ok.1 h
    obtain ⟨bs, -, h3⟩ := bind_eq_ok.1 h1
    exact ih h2 (storeBytes_wf h3 hm)

theorem nrmRule_keepsMemory (fmt : NrmFormat) : (nrmRule fmt).KeepsMemory := by
  intro mm o m f h hm
  obtain ⟨m', h1, rfl⟩ := map_eq_ok.1 h
  exact nrmLoop_wf h1 hm

@[simp] theorem leBytes_length (n v : Nat) : (leBytes n v).length = n := by
  induction n generalizing v with
  | zero => rfl
  | succ n ih => simp [leBytes, ih]

@[simp] theorem pixelOut_length (p : Rgba Nat) : (pixelOut p).length = 8 := by simp [pixelOut]

/-! ## The inflater -/

/-- What the decoder can do to its output from one state to another: it only appends; what it appended is inside the
limit and at valid addresses (45_zpf_inflate R331). -/
def Appends (e : InflateEnv) (st st' : Inf) : Prop :=
  ∃ new : List Byte, st'.rev = new ++ st.rev ∧ st'.len = st.len + new.length ∧ (new ≠ [] → st'.len ≤ e.limit) ∧
    ∀ i < new.length, memValid e.mm (e.outBase + st.len + i) = true

theorem Appends.refl (e : InflateEnv) (st : Inf) (q : Nat) : Appends e st { st with q := q } :=
  ⟨[], rfl, rfl, by simp, by simp⟩

theorem Appends.trans {e : InflateEnv} {s t u : Inf} (h1 : Appends e s t) (h2 : Appends e t u) : Appends e s u := by
  obtain ⟨n1, r1, l1, m1, v1⟩ := h1
  obtain ⟨n2, r2, l2, m2, v2⟩ := h2
  refine ⟨n2 ++ n1, by rw [r2, r1, List.append_assoc], by simp [l2, l1]; omega, ?_, ?_⟩
  · intro h
    by_cases hn : n2 = []
    · subst hn
      simp only [List.nil_append] at h
      have := m1 h
      simp only [List.length_nil] at l2
      omega
    · exact m2 hn
  · intro i hi
    simp only [List.length_append] at hi
    by_cases hlt : i < n1.length
    · exact v1 i hlt
    · have := v2 (i - n1.length) (by omega)
      rwa [show e.outBase + t.len + (i - n1.length) = e.outBase + s.len + i by omega] at this

/-- `Emit` appends its byte (R312). -/
theorem emit_eq_ok {e : InflateEnv} {b : Byte} {st st' : Inf} (h : emit e b st = .ok st') :
    st' = { st with rev := b :: st.rev, len := st.len + 1 } ∧ st.len < e.limit ∧
      memValid e.mm (e.outBase + st.len) = true := by
  unfold emit at h
  split at h
  · cases h
  · split at h
    · cases h
      exact ⟨rfl, by omega, by assumption⟩
    · cases h

theorem emit_appends {e : InflateEnv} {b : Byte} {st st' : Inf} (h : emit e b st = .ok st') : Appends e st st' := by
  obtain ⟨rfl, hl, hv⟩ := emit_eq_ok h
  refine ⟨[b], rfl, rfl, fun _ => hl, fun i hi => ?_⟩
  simp only [List.length_singleton, Nat.lt_one_iff] at hi
  simpa [hi] using hv

theorem copyBytes_appends {e : InflateEnv} {d n : Nat} {st st' : Inf} (h : copyBytes e d n st = .ok st') :
    Appends e st st' := by
  induction n generalizing st with
  | zero => cases h; exact Appends.refl e _ _
  | succ n ih =>
    obtain ⟨s1, h1, h2⟩ := bind_eq_ok.1 h
    exact (emit_appends h1).trans (ih h2)

theorem storedBytes_appends {e : InflateEnv} {n : Nat} {st st' : Inf} (h : storedBytes e n st = .ok st') :
    Appends e st st' := by
  induction n generalizing st with
  | zero => cases h; exact Appends.refl e _ _
  | succ n ih =>
    obtain ⟨v, -, h⟩ := bind_eq_ok.1 h
    obtain ⟨s1, h1, h2⟩ := bind_eq_ok.1 h
    exact ((Appends.refl e st _).trans (emit_appends h1)).trans (ih h2)

theorem storedBlock_appends {e : InflateEnv} {st st' : Inf} (h : storedBlock e st = .ok st') : Appends e st st' := by
  obtain ⟨len, -, h⟩ := bind_eq_ok.1 h
  obtain ⟨nlen, -, h⟩ := bind_eq_ok.1 h
  split at h
  · cases h
  · exact (Appends.refl e st _).trans (storedBytes_appends h)

theorem lengthSymbol_appends {e : InflateEnv} {dd : List Codeword} {s : Nat} {st st' : Inf}
    (h : lengthSymbol e dd s st = .ok st') : Appends e st st' := by
  obtain ⟨lx, -, h⟩ := bind_eq_ok.1 h
  obtain ⟨⟨d, q⟩, -, h⟩ := bind_eq_ok.1 h
  simp only at h
  split at h
  · cases h
  · obtain ⟨dx, -, h⟩ := bind_eq_ok.1 h
    split at h
    · cases h
    · exact (Appends.refl e st _).trans (copyBytes_appends h)

theorem huffmanBlock_appends {e : InflateEnv} {ll dd : List Codeword} {fuel : Nat} {st st' : Inf}
    (h : huffmanBlock e ll dd fuel st = .ok st') : Appends e st st' := by
  induction fuel generalizing st with
  | zero => cases h
  | succ fuel ih =>
    obtain ⟨⟨s, q⟩, -, h⟩ := bind_eq_ok.1 h
    simp only at h
    split at h
    · obtain ⟨s1, h1, h2⟩ := bind_eq_ok.1 h
      exact ((Appends.refl e st _).trans (emit_appends h1)).trans (ih h2)
    · split at h
      · cases h; exact Appends.refl e st q
      · split at h
        · cases h
        · obtain ⟨s1, h1, h2⟩ := bind_eq_ok.1 h
          exact ((Appends.refl e st _).trans (lengthSymbol_appends h1)).trans (ih h2)

theorem dynamicBlock_appends {e : InflateEnv} {st st' : Inf} (h : dynamicBlock e st = .ok st') : Appends e st st' := by
  obtain ⟨⟨ll, dd, q⟩, -, h⟩ := bind_eq_ok.1 h
  exact (Appends.refl e st _).trans (huffmanBlock_appends h)

/-- A block of any type only appends (R312). -/
theorem blockBody_appends {btype : Nat} {e : InflateEnv} {st st' : Inf} (h : blockBody btype e st = .ok st') :
    Appends e st st' := by
  match btype, h with
  | 0, h => exact storedBlock_appends h
  | 1, h => exact huffmanBlock_appends h
  | 2, h => exact dynamicBlock_appends h
  | _ + 3, h => cases h

theorem inflateBlocks_appends {e : InflateEnv} {fuel : Nat} {st st' : Inf} (h : inflateBlocks e fuel st = .ok st') :
    Appends e st st' := by
  induction fuel generalizing st with
  | zero => cases h
  | succ fuel ih =>
    obtain ⟨bf, -, h⟩ := bind_eq_ok.1 h
    obtain ⟨bt, -, h⟩ := bind_eq_ok.1 h
    obtain ⟨s1, h1, h⟩ := bind_eq_ok.1 h
    have ha := (Appends.refl e st _).trans (blockBody_appends h1)
    split at h
    · cases h; exact ha
    · exact ha.trans (ih h)

/-- A stream that inflates stays inside its output limit, at valid addresses (R331). -/
theorem inflateStream_bound {e : InflateEnv} {out : List Byte} {used : Nat} (h : inflateStream e = .ok (out, used)) :
    out.length ≤ e.limit ∧ ∀ i < out.length, memValid e.mm (e.outBase + i) = true := by
  obtain ⟨_, -, h⟩ := bind_eq_ok.1 h
  obtain ⟨st, h1, h⟩ := bind_eq_ok.1 h
  obtain ⟨_, -, h⟩ := bind_eq_ok.1 h
  cases h
  obtain ⟨new, hr, hl, hm, hv⟩ := inflateBlocks_appends h1
  simp only [List.append_nil, Nat.zero_add, Nat.add_zero] at hr hl hv
  rw [List.length_reverse, hr]
  refine ⟨?_, hv⟩
  by_cases hn : new = []
  · simp [hn]
  · rw [← hl]; exact hm hn

theorem inflateRule_keepsMemory : inflateRule.KeepsMemory := by
  intro mm o m fin h hm
  obtain ⟨⟨out, used⟩, -, h⟩ := bind_eq_ok.1 h
  obtain ⟨m1, h1, h⟩ := bind_eq_ok.1 h
  cases h
  exact storeBytes_wf h1 hm

theorem unzipRule_keepsMemory : unzipRule.KeepsMemory := by
  intro mm o m fin h hm
  obtain ⟨⟨out, used⟩, -, h⟩ := bind_eq_ok.1 h
  obtain ⟨m1, h1, h⟩ := bind_eq_ok.1 h
  obtain ⟨m2, h2, h⟩ := bind_eq_ok.1 h
  cases h
  exact storeBytes_wf h2 (storeBytes_wf h1 hm)

/-- The rule of every command keeps the canonical form. -/
theorem ruleOf_keepsMemory {i : Instr} {r : Rule} (h : ruleOf i = some r) : r.KeepsMemory := by
  cases i <;> simp only [ruleOf, Option.some.injEq, reduceCtorEq] at h <;> subst h <;>
    first
      | exact bcdRule_keepsMemory _ _
      | exact unsupportedRule_keepsMemory _
      | exact filterRule_keepsMemory _
      | exact filtRule_keepsMemory
      | exact inflateRule_keepsMemory
      | exact unzipRule_keepsMemory
      | exact nrmRule_keepsMemory _

/-- The meaning of every command that has a rule. -/
theorem exec_ruleOf {i : Instr} {r : Rule} (h : ruleOf i = some r) (s : State) : exec i s = runRule r s := by
  cases i <;> simp only [ruleOf, Option.some.injEq, reduceCtorEq] at h <;> subst h <;> rfl

/-! ## The pending command's own steps -/

/-- What a step of the pending command leaves of its acceptance: the held windows stay, and the command either ends or
is pending with the same word and the same snapshot (10_state R39, 70_reset_and_hazards R480). -/
def CarriesOn (s t : State) (p : Pending) : Prop :=
  t.held = s.held ∧ (t.phase = .idle ∨ ∃ p', t.phase = .busy p' ∧ p'.word = p.word ∧ p'.ops = p.ops)

/-- An instruction run while a command is pending. -/
theorem exec_carriesOn (i : Instr) (s t : State) (p : Pending) (hp : s.phase = .busy p) (h : exec i s = .next t) :
    CarriesOn s t p := by
  cases hr : ruleOf i with
  | some r => rw [exec_ruleOf hr, runRule_busy hp] at h; cases h; exact ⟨by simp, .inl (by simp)⟩
  | none =>
    have hb : ∀ body b, runBlock body b s = .next t → CarriesOn s t p := by
      intro body b h
      unfold runBlock at h
      simp only [hp] at h
      split at h <;> try cases h
      split at h
      · next s' hs =>
        cases h
        obtain ⟨a, -, hs⟩ := bind_eq_ok.mp hs
        obtain ⟨m, -, hs⟩ := bind_eq_ok.mp hs
        cases hs
        exact ⟨rfl, .inr ⟨_, rfl, rfl, rfl⟩⟩
      · cases h; exact ⟨by simp, .inl (by simp)⟩
    have hf : ∀ ts, fillTile ts s = .next t → CarriesOn s t p := by
      intro ts h
      unfold fillTile at h
      simp only [hp] at h
      split at h <;> try cases h
      split at h <;> cases h
      exact ⟨rfl, .inr ⟨_, rfl, rfl, rfl⟩⟩
    cases i <;> simp only [ruleOf, reduceCtorEq] at hr <;> first
      | (simp only [exec, execDeflateStored, execDeflateFixed, execDeflateDynamic, execDeflateReserved] at h
         exact hb _ _ h)
      | exact hf _ h
      | (simp only [exec, execNop, execClr, hp] at h
         injection h with h
         subst h
         exact ⟨rfl, .inr ⟨_, hp, rfl, rfl⟩⟩)

/-- All that the pending command's turn can be: a fetch, or a step of its own that carries it on or ends it. -/
theorem cduTurn_cases {s : State} {p : Pending} :
    (∃ fmt bs, cduTurn p s = .fetch fmt bs s) ∨ (∃ t, cduTurn p s = .goto t ∧ CarriesOn s t p) := by
  have hst : ∀ r o x, startFault r o s = some x → CarriesOn s x p := by
    intro r o x h
    unfold startFault at h
    split at h
    · cases h; exact ⟨rfl, .inl rfl⟩
    · cases hb : busChoice r o s <;> simp [hb] at h
      subst h; exact ⟨by simp, .inl (by simp)⟩
  have hf : ∀ r o x, CarriesOn s (faultRunning r o x s) p := fun r o x => ⟨by simp, .inl (by simp)⟩
  have hc : ∀ r o f, CarriesOn s (finishCommand r o f s) p := fun r o f => ⟨by simp, .inl (by simp)⟩
  have hw : ∀ w, CarriesOn s (setWork p w s) p := fun w => ⟨rfl, .inr ⟨_, rfl, rfl, rfl⟩⟩
  have hm : ∀ w m, CarriesOn s (setWork p w { s with mem := m }) p := fun w m => ⟨rfl, .inr ⟨_, rfl, rfl, rfl⟩⟩
  have hx : ∀ x, CarriesOn s (takeFault x s) p := fun x => ⟨rfl, .inl rfl⟩
  have hbs : ∀ r e, CarriesOn s (beginStream r e p s) p := by
    intro r e; unfold beginStream
    split
    · exact hst _ _ _ ‹_›
    · split
      · exact hf _ _ _
      · exact hw _
  have hbt : ∀ r, CarriesOn s (beginTiles r p s) p := by
    intro r; unfold beginTiles
    split
    · exact hst _ _ _ ‹_›
    · exact hw _
  have he : ∀ r e w, CarriesOn s (endStream r e p w s) p := by
    intro r e w; unfold endStream
    simp only
    split
    · exact hf _ _ _
    · exact hc _ _ _
  unfold cduTurn
  split
  · unfold beginTurn
    simp only
    split
    · split
      · exact .inr ⟨_, rfl, hbs _ _⟩
      · split
        · exact .inr ⟨_, rfl, hbt _⟩
        · exact .inl ⟨_, _, rfl⟩
    · exact .inl ⟨_, _, rfl⟩
  · split
    · unfold tileTurn
      simp only
      split
      · exact .inr ⟨_, rfl, hc _ _ _⟩
      · split
        · split
          · exact .inr ⟨_, rfl, hf _ _ _⟩
          · split
            · exact .inl ⟨_, _, rfl⟩
            · exact .inr ⟨_, rfl, hw _⟩
        · split
          · exact .inr ⟨_, rfl, hf _ _ _⟩
          · exact .inr ⟨_, rfl, hm _ _⟩
    · exact .inr ⟨_, rfl, hx _⟩
  · split
    · unfold streamTurn
      split
      · exact .inr ⟨_, rfl, he _ _ _⟩
      · split
        · exact .inr ⟨_, rfl, hf _ _ _⟩
        · exact .inl ⟨_, _, rfl⟩
    · exact .inr ⟨_, rfl, hx _⟩

end Sys2Proof.Machine
end

