-- ==== Sys2Proof/Tests/Slice0.lean ====
section
/-! SUPPORT. Tests: ill-formed terms that `wellFormed` refuses, words written out from 30_encoding that decode to the
instruction they stand for, vectors of spec/95, 96 and 97 on one instruction each, and for every statement with hypotheses
a concrete state that meets them. -/

open Sys2Proof Sys2Proof.Machine

namespace Sys2Proof.Tests

set_option Elab.async false

/-! ## Helpers -/

/-- Bytes from numbers. -/
def bytes (l : List Nat) : List Byte := l.map (BitVec.ofNat 8)

/-- A 4 by 4 plane at 0x2000, `n` source bytes at 0x1000, `c` items, 64 bytes of scratch at 0x3000. -/
def opsOf (n c : Nat) : Operands :=
  { Operands.reset with
    srcBase := 0x1000, srcLen := BitVec.ofNat 32 n, dstBase := 0x2000, dstLen := 64, dstStride := 16, width := 4,
    height := 4, count := BitVec.ofNat 32 c, tmpBase := 0x3000, tmpLen := 64 }

/-- IDLE, with operands `o` and the source bytes in place. -/
def loaded (o : Operands) (src : List Nat) : State :=
  { State.reset with regs := o, mem := placeBytes 0x1000 (bytes src) [] }

/-- The same with a command pending. -/
def pendingWith (w : Word) (work : Work) (left : Nat) (byBlock : Bool) (s : State) : State :=
  holdWindows { s with phase := .busy ⟨w, s.regs, work, left, byBlock⟩ }

/-- The same with one host access waiting. -/
def withHost (act : HostAct) (s : State) : State := { s with hostIn := [act] }

/-- A test on the next state. -/
def after (out : Host.Outcome State Fault Refusal) (f : State → Bool) : Bool :=
  match out with
  | .next t => f t
  | .fault _ => false
  | .refused _ => false

/-- The instruction ends with this STATUS word, EINFO, SRC_POS and DST_POS, and these bytes stand at 0x2000. -/
def ends (i : Instr) (s : State) (status einfo srcPos dstPos : Word) (dst : List Nat) : Bool :=
  after (exec i s) fun t =>
    statusWord t == status && t.einfo == einfo && t.regs.srcPos == srcPos && t.dstPos == dstPos &&
      peekBytes t.mem 0x2000 dst.length == bytes dst

/-- The four bytes of texel `i` in the tile buffer. -/
def tileTexel (out : Host.Outcome State Fault Refusal) (i : Nat) (x : Texel) : Bool :=
  after out fun t =>
    match t.phase with
    | .idle => false
    | .busy p =>
      match p.work with
      | .bcd _ tile => tile[i]? == some x
      | .notBegun => false
      | .inflate _ => false

/-- A state that decodes a BC7 block at tile 0. -/
def atTile : State := pendingWith bc7Word (.bcd 0 []) 0 true (loaded (opsOf 16 0) [])

/-- Decode a BC7 block and run it. -/
def runBlockBytes (bs : List Nat) : Host.Outcome State Fault Refusal :=
  match decode .bc7Block (bytes bs) with
  | .ok i => exec i atTile
  | .error _ => .refused .noBlockExpected

/-- The start of a raw stream. -/
def freshStream : InflateWork := ⟨0, 0, false, 1, 0⟩

/-- A state that decodes a block of a raw stream at bit 0. -/
def atBlock (src : List Nat) : State :=
  pendingWith inflateWord (.inflate freshStream) 0 true (loaded (opsOf src.length 0) src)

/-- The working state after a block. -/
def workAfter (out : Host.Outcome State Fault Refusal) (q len : Nat) (last : Bool) : Bool :=
  after out fun t =>
    match t.phase with
    | .idle => false
    | .busy p =>
      match p.work with
      | .bcd _ _ => false
      | .notBegun => false
      | .inflate w => w.q == q && w.len == len && w.last == last

/-! ## Ill-formed terms -/

/-- A well-formed block of mode 4. -/
def okFields : Bc7Fields := ⟨0, 3, 1, [1, 31], [2, 30], [3, 29], [4, 63], [], 5, 6⟩

theorem test_wellFormed_mode4 : wellFormed (.bc7Mode4 okFields) = true := by decide

theorem test_illFormed_part : wellFormed (.bc7Mode4 { okFields with part := 1 }) = false := by decide

theorem test_illFormed_rot : wellFormed (.bc7Mode4 { okFields with rot := 4 }) = false := by decide

theorem test_illFormed_isel : wellFormed (.bc7Mode4 { okFields with isel := 2 }) = false := by decide

theorem test_illFormed_red : wellFormed (.bc7Mode4 { okFields with r := [1, 32] }) = false := by decide

theorem test_illFormed_green : wellFormed (.bc7Mode4 { okFields with g := [2] }) = false := by decide

theorem test_illFormed_blue : wellFormed (.bc7Mode4 { okFields with b := [3, 29, 0] }) = false := by decide

theorem test_illFormed_alpha : wellFormed (.bc7Mode4 { okFields with a := [4, 64] }) = false := by decide

theorem test_illFormed_pbits : wellFormed (.bc7Mode4 { okFields with p := [0] }) = false := by decide

theorem test_illFormed_idx1 : wellFormed (.bc7Mode4 { okFields with idx1 := 2 ^ 31 }) = false := by decide

theorem test_illFormed_idx2 : wellFormed (.bc7Mode4 { okFields with idx2 := 2 ^ 47 }) = false := by decide

theorem test_illFormed_pbit_value :
    wellFormed (.bc7Mode6 ⟨0, 0, 0, [1, 2], [1, 2], [1, 2], [1, 2], [0, 2], 0, 0⟩) = false := by decide

/-! ## Decoding: words written out from 30_encoding R101, R112, R113, R115, R117 -/

theorem test_decode_nop : decode .command (bytes [0x00, 0, 0, 0]) = .ok .nop := by decide
theorem test_decode_clr : decode .command (bytes [0x01, 0, 0, 0]) = .ok .clr := by decide
theorem test_decode_bcdBc1 : decode .command (bytes [0x10, 0, 0, 0]) = .ok .bcdBc1 := by decide
theorem test_decode_bcdBc2 : decode .command (bytes [0x11, 0, 0, 0]) = .ok .bcdBc2 := by decide
theorem test_decode_bcdBc3 : decode .command (bytes [0x12, 0, 0, 0]) = .ok .bcdBc3 := by decide
theorem test_decode_bcdBc4 : decode .command (bytes [0x13, 0, 0, 0]) = .ok .bcdBc4 := by decide
theorem test_decode_bcdBc5 : decode .command (bytes [0x14, 0, 0, 0]) = .ok .bcdBc5 := by decide
theorem test_decode_bcdBc7 : decode .command (bytes [0x15, 0, 0, 0]) = .ok .bcdBc7 := by decide
theorem test_decode_bcdBc7s : decode .command (bytes [0x16, 0, 0, 0]) = .ok .bcdBc7s := by decide
theorem test_decode_zpfRecon : decode .command (bytes [0x20, 0, 0, 0]) = .ok .zpfRecon := by decide
theorem test_decode_zpfIntlv : decode .command (bytes [0x21, 0, 0, 0]) = .ok .zpfIntlv := by decide
theorem test_decode_zpfReord : decode .command (bytes [0x22, 0, 0, 0]) = .ok .zpfReord := by decide
theorem test_decode_zpfDecon : decode .command (bytes [0x23, 0, 0, 0]) = .ok .zpfDecon := by decide
theorem test_decode_zpfInflate : decode .command (bytes [0x24, 0, 0, 0]) = .ok .zpfInflate := by decide
theorem test_decode_zpfUnzip : decode .command (bytes [0x25, 0, 0, 0]) = .ok .zpfUnzip := by decide
theorem test_decode_zpfFilt : decode .command (bytes [0x26, 0, 0, 0]) = .ok .zpfFilt := by decide
theorem test_decode_nrmF32 : decode .command (bytes [0x30, 0, 0, 0]) = .ok .nrmF32 := by decide
theorem test_decode_nrmF16 : decode .command (bytes [0x31, 0, 0, 0]) = .ok .nrmF16 := by decide
theorem test_decode_nrmU32 : decode .command (bytes [0x32, 0, 0, 0]) = .ok .nrmU32 := by decide

theorem test_decode_zero_bits : decode .command (bytes [0x10, 0, 0, 0x80]) = .error (.illegalCommand 0x80000010) := by
  decide

theorem test_decode_short : decode .command (bytes [0x10, 0, 0]) = .error .shortInput := by decide

theorem test_decode_bc7Mode0 : decode .bc7Block (bytes
    [0x3D, 0xE8, 0xB4, 0xE1, 0xBD, 0x79, 0x55, 0x8E, 0xC3, 0x56, 0x85, 0xF7, 0xE6, 0xD5, 0xC4, 0xB3]) =
    .ok (.bc7Mode0 ⟨14, 0, 0, [1, 4, 7, 10, 13, 0], [15, 14, 13, 12, 11, 10], [2, 7, 12, 1, 6, 11],
      [], [0, 1, 0, 1, 0, 1], 0x16789ABCDEF0, 0x0⟩) := by decide +kernel

theorem test_decode_bc7Mode1 : decode .bc7Block (bytes
    [0xFA, 0x01, 0x71, 0x28, 0xBF, 0xDF, 0xF3, 0xC2, 0xC1, 0x44, 0xC2, 0x7B, 0xF3, 0x6A, 0xE2, 0xD9]) =
    .ok (.bc7Mode1 ⟨62, 0, 0, [1, 4, 7, 10], [63, 62, 61, 60], [2, 7, 12, 17],
      [], [0, 1], 0x36789ABCDEF0, 0x0⟩) := by decide +kernel

theorem test_decode_bc7Mode2 : decode .bc7Block (bytes
    [0xF4, 0x03, 0x39, 0xAA, 0xC1, 0xEF, 0x3B, 0xDF, 0x5A, 0x1C, 0x16, 0xED, 0x86, 0xF7, 0xE6, 0xD5]) =
    .ok (.bc7Mode2 ⟨62, 0, 0, [1, 4, 7, 10, 13, 16], [31, 30, 29, 28, 27, 26], [2, 7, 12, 17, 22, 27],
      [], [], 0x1ABCDEF0, 0x0⟩) := by decide +kernel

theorem test_decode_bc7Mode3 : decode .bc7Block (bytes
    [0xE8, 0x07, 0x08, 0x07, 0xC5, 0xDF, 0xDF, 0xE7, 0x0B, 0x0E, 0x8C, 0x88, 0xC2, 0x7B, 0xF3, 0xEA]) =
    .ok (.bc7Mode3 ⟨62, 0, 0, [1, 4, 7, 10], [127, 126, 125, 124], [2, 7, 12, 17],
      [], [0, 1, 0, 1], 0x3ABCDEF0, 0x0⟩) := by decide +kernel

theorem test_decode_bc7Mode4 : decode .bc7Block (bytes
    [0xD0, 0x81, 0x7C, 0x2F, 0x8E, 0xBF, 0xC3, 0x7B, 0xF3, 0x6A, 0x43, 0x86, 0xCA, 0x0E, 0x53, 0x97]) =
    .ok (.bc7Mode4 ⟨0, 2, 1, [1, 4], [31, 30], [2, 7],
      [62, 59], [], 0x5ABCDEF0, 0x4BA987654321⟩) := by decide +kernel

theorem test_decode_bc7Mode5 : decode .bc7Block (bytes
    [0xA0, 0x01, 0xC2, 0xDF, 0x2F, 0x38, 0xF8, 0xEF, 0xC3, 0x7B, 0xF3, 0x6A, 0x43, 0x86, 0xCA, 0x8E]) =
    .ok (.bc7Mode5 ⟨0, 2, 0, [1, 4], [127, 126], [2, 7],
      [254, 251], [], 0x5ABCDEF0, 0x47654321⟩) := by decide +kernel

theorem test_decode_bc7Mode6 : decode .bc7Block (bytes
    [0xC0, 0x00, 0xE1, 0xEF, 0x17, 0x1C, 0xFC, 0x7B, 0xE1, 0xBD, 0x79, 0x35, 0xF1, 0xAC, 0x68, 0xA4]) =
    .ok (.bc7Mode6 ⟨0, 0, 0, [1, 4], [127, 126], [2, 7],
      [126, 123], [0, 1], 0x523456789ABCDEF0, 0x0⟩) := by decide +kernel

theorem test_decode_bc7Mode7 : decode .bc7Block (bytes
    [0x80, 0x7E, 0x20, 0x47, 0x7D, 0xDF, 0xB9, 0x38, 0x2C, 0xFA, 0x8D, 0xAB, 0xC2, 0x7B, 0xF3, 0xEA]) =
    .ok (.bc7Mode7 ⟨62, 0, 0, [1, 4, 7, 10], [31, 30, 29, 28], [2, 7, 12, 17],
      [30, 27, 24, 21], [0, 1, 0, 1], 0x3ABCDEF0, 0x0⟩) := by decide +kernel

theorem test_decode_bc7Reserved : decode .bc7Block (bytes
    [0x00, 0x01, 0, 0, 0, 0, 0, 0, 0, 0, 0, 0, 0, 0, 0, 0xA5]) =
    .ok (.bc7Reserved (0xA5 * 2 ^ 112 + 1)) := by decide +kernel

theorem test_decode_bc7_least_bit : bc7ModeOf 0x5E = some 1 := by decide

theorem test_decode_deflateStored : decode .deflateHeader (bytes [0b00000001]) = .ok (.deflateStored true) := by decide
theorem test_decode_deflateFixed : decode .deflateHeader (bytes [0b11111010]) = .ok (.deflateFixed false) := by decide
theorem test_decode_deflateDynamic : decode .deflateHeader (bytes [0b00000101]) = .ok (.deflateDynamic true) := by
  decide
theorem test_decode_deflateReserved : decode .deflateHeader (bytes [0b00000110]) = .ok (.deflateReserved false) := by
  decide

theorem test_tableWord_command : decodeTableWord 32 0x26 = some .zpfFilt := by decide

theorem test_tableWord_bc7 : (decodeTableWord 8 0x40).map formatOf = some .bc7Block := by decide +kernel

theorem test_tableWord_deflate : decodeTableWord 8 0x06 = some (.deflateReserved false) := by decide +kernel

/-! ## Instructions: vectors of spec/95, 96, 97 -/

-- 97 V90: NOP and CLR in the state a BCD.BC2 fault leaves (47 R401).
def faulted : State := { State.reset with err := true, ecode := 0x02, einfo := 0x11 }

theorem test_nop : after (exec .nop faulted) (fun t => statusWord t == 0x204 && t.einfo == 0x11) = true := by decide

theorem test_clr : after (exec .clr faulted) (fun t => statusWord t == 0 && t.einfo == 0) = true := by decide

-- 95 V10, first and last row of the tile.
theorem test_bcdBc1 : ends .bcdBc1 (loaded (opsOf 8 0) [0x00, 0xF8, 0x1F, 0x00, 0xE4, 0xE4, 0x1B, 0xFF]) 2 0 8 64
    [255, 0, 0, 255, 0, 0, 255, 255, 170, 0, 85, 255, 85, 0, 170, 255] = true := by decide +kernel

-- 95 V11: the three-colour palette.
theorem test_bcdBc1_three : ends .bcdBc1 (loaded (opsOf 8 0) [0x1F, 0x00, 0x00, 0xF8, 0xE4, 0xE4, 0x1B, 0xFF]) 2 0 8 64
    [0, 0, 255, 255, 255, 0, 0, 255, 127, 0, 127, 255, 0, 0, 0, 0] = true := by decide +kernel

-- 41 R214, R215.
theorem test_bcdBc2 : ends .bcdBc2 (loaded (opsOf 8 0) []) 0x204 0x11 0 0 [] = true := by decide +kernel

theorem test_bcdBc7s : ends .bcdBc7s (loaded (opsOf 8 0) []) 0x204 0x16 0 0 [] = true := by decide +kernel

-- 95 V25.
theorem test_bcdBc3 : ends .bcdBc3 (loaded (opsOf 16 0)
    [0xC8, 0x11, 0xD1, 0x2C, 0x9A, 0x45, 0xE7, 0x0B, 0x1F, 0x00, 0x00, 0xF8, 0xE4, 0xE4, 0x1B, 0xFF]) 2 0 16 64
    [0, 0, 255, 17, 255, 0, 0, 173, 85, 0, 170, 147, 170, 0, 85, 69] = true := by decide +kernel

-- 95 V26.
theorem test_bcdBc4 : ends .bcdBc4 (loaded (opsOf 8 0) [0xC8, 0x11, 0xD1, 0x2C, 0x9A, 0x45, 0xE7, 0x0B]) 2 0 8 64
    [17, 17, 17, 255, 173, 173, 173, 255, 147, 147, 147, 255, 69, 69, 69, 255] = true := by decide +kernel

-- 95 V27.
theorem test_bcdBc5 : ends .bcdBc5 (loaded (opsOf 16 0)
    [0xC8, 0x11, 0xD1, 0x2C, 0x9A, 0x45, 0xE7, 0x0B, 0x00, 0xFF, 0x88, 0xC6, 0xFA, 0x88, 0xC6, 0xFA]) 2 0 16 64
    [17, 0, 0, 255, 173, 255, 0, 255, 147, 51, 0, 255, 69, 102, 0, 255] = true := by decide +kernel

-- 95 V30, and V47's row with one byte too few.
theorem test_bcdBc7 : ends .bcdBc7 (loaded (opsOf 16 0)
    [0xBB, 0x4C, 0x34, 0xD9, 0xB4, 0x52, 0xCF, 0xE1, 0x4A, 0x85, 0xE5, 0x91, 0x31, 0xEC, 0xB1, 0x85]) 2 0 16 64
    [82, 99, 231, 255, 173, 156, 90, 255] = true := by decide +kernel

theorem test_bcdBc7_truncated : ends .bcdBc7 (loaded (opsOf 15 0) []) 0x504 0 0 0 [] = true := by decide +kernel

-- 95 V31 to V41: one texel of a block of each mode.
theorem test_bc7Mode0 : tileTexel (runBlockBytes
    [0xBB, 0x4C, 0x34, 0xD9, 0xB4, 0x52, 0xCF, 0xE1, 0x4A, 0x85, 0xE5, 0x91, 0x31, 0xEC, 0xB1, 0x85]) 3 ⟨164, 153, 130, 255⟩ =
    true := by decide +kernel

theorem test_bc7Mode1 : tileTexel (runBlockBytes
    [0x46, 0xA3, 0xC3, 0x5B, 0xBF, 0x57, 0x3C, 0x0D, 0x47, 0x4E, 0x69, 0x4B, 0x86, 0x8A, 0x3F, 0xCF]) 4 ⟨94, 178, 89, 255⟩ =
    true := by decide +kernel

theorem test_bc7Mode2 : tileTexel (runBlockBytes
    [0x2C, 0x4C, 0xEC, 0xD1, 0x6F, 0xC4, 0xF4, 0x4B, 0x38, 0x48, 0xB2, 0xCA, 0x46, 0x70, 0x4E, 0x78]) 6 ⟨140, 123, 90, 255⟩ =
    true := by decide +kernel

theorem test_bc7Mode3 : tileTexel (runBlockBytes
    [0x88, 0x32, 0xF4, 0x93, 0x41, 0xF4, 0x77, 0x25, 0x9F, 0xD4, 0x9A, 0xDD, 0x6E, 0x35, 0xC8, 0xC4]) 14 ⟨38, 174, 52, 255⟩ =
    true := by decide +kernel

theorem test_bc7Mode4 : tileTexel (runBlockBytes
    [0x10, 0x57, 0x4D, 0x8A, 0x79, 0xED, 0x4A, 0x88, 0x2D, 0x77, 0x6E, 0x2B, 0x9E, 0x22, 0x4C, 0x4F]) 7 ⟨82, 165, 231, 198⟩ =
    true := by decide +kernel

theorem test_bc7Mode5 : tileTexel (runBlockBytes
    [0xA0, 0xC3, 0x44, 0xBE, 0xF8, 0xF1, 0x5E, 0x97, 0x2A, 0x70, 0x96, 0x3E, 0x28, 0xD1, 0x8C, 0x7B]) 7 ⟨135, 165, 62, 243⟩ =
    true := by decide +kernel

theorem test_bc7Mode6 : tileTexel (runBlockBytes
    [0xC0, 0x8F, 0x36, 0xCB, 0x56, 0x86, 0x43, 0xB5, 0x1C, 0xD6, 0xE6, 0x79, 0xCE, 0x34, 0x8B, 0xBD]) 5 ⟨173, 214, 191, 104⟩ =
    true := by decide +kernel

theorem test_bc7Mode7 : tileTexel (runBlockBytes
    [0x80, 0x7F, 0x5C, 0xE3, 0x8E, 0x03, 0xC8, 0xFB, 0x1A, 0x1A, 0xFC, 0x48, 0xC6, 0xB0, 0x80, 0x4C]) 11 ⟨78, 12, 186, 93⟩ =
    true := by decide +kernel

theorem test_bc7Reserved : tileTexel (runBlockBytes
    [0x00, 0xFF, 0xFF, 0xFF, 0xFF, 0xFF, 0xFF, 0xFF, 0xFF, 0xFF, 0xFF, 0xFF, 0xFF, 0xFF, 0xFF, 0xFF]) 15 ⟨0, 0, 0, 0⟩ =
    true := by decide +kernel

-- 96 V51.
theorem test_zpfRecon : ends .zpfRecon (loaded (opsOf 8 4) [0x10, 0x81, 0x7F, 0x80, 0x01, 0x02, 0x03, 0x04]) 2 0 4 4
    [0x10, 0x11, 0x10, 0x10] = true := by decide +kernel

theorem test_zpfIntlv : ends .zpfIntlv (loaded (opsOf 8 5) [0x10, 0x81, 0x7F, 0x80, 0x01, 0x02, 0x03, 0x04]) 2 0 5 5
    [0x10, 0x80, 0x81, 0x01, 0x7F] = true := by decide +kernel

theorem test_zpfReord : ends .zpfReord (loaded (opsOf 8 8) [0x10, 0x81, 0x7F, 0x80, 0x01, 0x02, 0x03, 0x04]) 2 0 8 8
    [0x10, 0x7F, 0x01, 0x03, 0x81, 0x80, 0x02, 0x04] = true := by decide +kernel

theorem test_zpfDecon : ends .zpfDecon (loaded (opsOf 8 8) [0x10, 0x81, 0x7F, 0x80, 0x01, 0x02, 0x03, 0x04]) 2 0 8 8
    [0x10, 0xF1, 0x7E, 0x81, 0x01, 0x81, 0x81, 0x81] = true := by decide +kernel

theorem test_zpfRecon_truncated : ends .zpfRecon (loaded (opsOf 8 9) []) 0x504 8 0 0 [] = true := by decide +kernel

/-- The bytes at 0x2000 that a rule's run leaves: the composite commands also leave free values in the scratch window. -/
def runLeaves (r : Rule) (s : State) (used : Nat) (dst : List Nat) : Bool :=
  match r.run s.memMap s.regs s.mem with
  | .error _ => false
  | .ok f => f.used == used && f.dstPos == dst.length && peekBytes f.mem 0x2000 dst.length == bytes dst

theorem test_zpfFilt : runLeaves filtRule (loaded (opsOf 4 4) [0x10, 0x10, 0x11, 0x10]) 4 [0x10, 0x81, 0x7F, 0x80] = true := by
  decide +kernel

theorem test_zpfFilt_status : after (exec .zpfFilt (loaded (opsOf 4 4) [0x10, 0x10, 0x11, 0x10]))
    (fun t => statusWord t == 2 && t.regs.srcPos == 4 && t.dstPos == 4) = true := by decide +kernel

-- 96 V60, V65.
theorem test_zpfInflate_stored : ends .zpfInflate
    (loaded (opsOf 10 0) [0x01, 0x05, 0x00, 0xFA, 0xFF, 0x68, 0x65, 0x6C, 0x6C, 0x6F]) 2 0 10 5
    [0x68, 0x65, 0x6C, 0x6C, 0x6F] = true := by decide +kernel

theorem test_zpfInflate_dynamic : ends .zpfInflate
    (loaded (opsOf 15 0) [0x0D, 0xC1, 0x01, 0x01, 0x00, 0x00, 0x00, 0x40, 0xA0, 0xAD, 0xFC, 0x1F, 0x41, 0xE1, 0x03])
    2 0 15 5 [0x61, 0x62, 0x61, 0x62, 0x61] = true := by decide +kernel

theorem test_largest_distance : distBase.getD 29 0 + (2 ^ distExtra.getD 29 0 - 1) = Config.inflateMaxDist := by decide

-- 96 V73.
theorem test_zpfUnzip : runLeaves unzipRule
    (loaded (opsOf 9 0) [0x01, 0x04, 0x00, 0xFB, 0xFF, 0x10, 0x81, 0x7F, 0x80]) 9 [0x10, 0x10, 0x11, 0x10] = true := by
  decide +kernel

theorem test_zpfUnzip_status : after (exec .zpfUnzip
    (loaded (opsOf 9 0) [0x01, 0x04, 0x00, 0xFB, 0xFF, 0x10, 0x81, 0x7F, 0x80]))
    (fun t => statusWord t == 2 && t.regs.srcPos == 9 && t.dstPos == 4) = true := by decide +kernel

-- 96 V60, V62, V65, V72: the blocks one by one.
theorem test_deflateStored : workAfter (exec (.deflateStored true)
    (atBlock [0x01, 0x05, 0x00, 0xFA, 0xFF, 0x68, 0x65, 0x6C, 0x6C, 0x6F])) 80 5 true = true := by decide +kernel

theorem test_deflateFixed : workAfter (exec (.deflateFixed true) (atBlock [0x4B, 0x04, 0x01, 0x00])) 30 5 true = true := by
  decide +kernel

theorem test_deflateDynamic : workAfter (exec (.deflateDynamic true)
    (atBlock [0x0D, 0xC1, 0x01, 0x01, 0x00, 0x00, 0x00, 0x40, 0xA0, 0xAD, 0xFC, 0x1F, 0x41, 0xE1, 0x03])) 115 5 true =
    true := by decide +kernel

theorem test_deflateReserved : after (exec (.deflateReserved true) (atBlock [0x07]))
    (fun t => statusWord t == 0x604 && t.einfo == 1) = true := by decide +kernel

-- 97 V80 to V83.
theorem test_nrmF32 : ends .nrmF32 (loaded (opsOf 16 1)
    [0x00, 0x00, 0x00, 0x3F, 0x00, 0x00, 0x00, 0x40, 0x00, 0x00, 0x80, 0xBF, 0x00, 0x00, 0x00, 0x3F]) 2 0 16 8
    [0xFF, 0x3F, 0xFF, 0x7F, 0x00, 0x00, 0xFF, 0x7F] = true := by decide +kernel

theorem test_nrmF32_nan : ends .nrmF32 (loaded (opsOf 16 1)
    [0x00, 0x00, 0xC0, 0x7F, 0x01, 0x00, 0xC0, 0xFF, 0x01, 0x00, 0x80, 0x7F, 0x00, 0x00, 0x80, 0x3F]) 2 0 16 8
    [0x00, 0x00, 0x00, 0x00, 0x00, 0x00, 0xFF, 0xFF] = true := by decide +kernel

theorem test_nrmF16 : ends .nrmF16 (loaded (opsOf 8 1)
    [0x00, 0x38, 0x00, 0x34, 0x00, 0x30, 0x00, 0x3A]) 2 0 8 8
    [0xFF, 0x5F, 0xFF, 0x2F, 0xFF, 0x17, 0xFF, 0xBF] = true := by decide +kernel

theorem test_nrmF16_gray : ends .nrmF16 (loaded { opsOf 8 1 with mode := 4 }
    [0x00, 0x38, 0x00, 0x34, 0x00, 0x30, 0x00, 0x3A]) 2 0 8 8
    [0xFF, 0xBF, 0xFF, 0xBF, 0xFF, 0xBF, 0xFF, 0xFF] = true := by decide +kernel

theorem test_nrmU32 : ends .nrmU32 (loaded (opsOf 16 1)
    [0x78, 0x56, 0x34, 0x12, 0xF0, 0xDE, 0xBC, 0x9A, 0xA9, 0xCB, 0xED, 0x0F, 0xFE, 0xFF, 0xFF, 0xFF]) 2 0 16 8
    [0x34, 0x12, 0xBC, 0x9A, 0xED, 0x0F, 0xFE, 0xFF] = true := by decide +kernel

theorem test_nrmU32_badMode : ends .nrmU32 (loaded { opsOf 16 1 with mode := 6 } []) 0x904 6 0 0 [] = true := by
  decide +kernel


/-! ## Witnesses: concrete states that meet the hypotheses of the statements -/

/-- In a machine whose whole memory space is backed, every address below 2^32 is valid. -/
theorem allValid_full (mm : List Region) (rs : List Range) (hm : mm = [⟨0, 2 ^ 32⟩])
    (hr : (rs.all fun x => decide (x.base + x.len ≤ 2 ^ 32)) = true) : allValid mm rs := by
  intro x hx a ha
  have h := of_decide_eq_true (List.all_eq_true.mp hr x hx)
  have h' : a < 2 ^ 32 := by
    simp only [inRange, Bool.and_eq_true, decide_eq_true_eq] at ha
    omega
  subst hm
  simp only [memValid, Config.addrSpace, List.any_cons, List.any_nil, Nat.zero_le, Nat.zero_add, decide_true, h',
    Bool.true_and, Bool.or_false]

/-- A freshly accepted command over canonical memory meets the invariant. -/
theorem inv_pending (w : Word) (left : Nat) (bb : Bool) (o : Operands) (src : List Nat) (hw : acceptable w)
    (ho : o.mode &&& modeMask = o.mode) (hm : (placeBytes 0x1000 (bytes src) []).wf) :
    Inv (pendingWith w .notBegun left bb (loaded o src)) where
  mem := hm
  flags := by simp [oneFlag, pendingWith, holdWindows, loaded, State.reset]
  record := by simp [recordOk, pendingWith, holdWindows, loaded, State.reset]
  hardwired := ⟨ho, by simp [pendingWith, holdWindows, loaded, State.reset]⟩
  snapshot := ⟨rfl, hw⟩
  work := trivial
  held := fun _ hx => List.mem_append_left _ hx
  rst := by simp [resetOk, pendingWith, holdWindows, loaded, State.reset]

/-- A pending BCD.BC1 on one tile. -/
def bc1Pending : State := pendingWith 0x10 .notBegun 0 true (loaded (opsOf 8 0) [0x00, 0xF8, 0x1F, 0x00, 0xE4])

/-- A pending word that is no command. -/
def badPending : State := pendingWith 0x100 .notBegun 0 false (loaded (opsOf 8 0) [])

theorem bc1Pending_inv : Inv bc1Pending :=
  inv_pending 0x10 0 true (opsOf 8 0) _ (by unfold acceptable; decide) (by decide) (by decide +kernel)

theorem badPending_inv : Inv badPending :=
  inv_pending 0x100 0 false (opsOf 8 0) [] (by unfold acceptable; decide) (by decide) (by decide +kernel)

theorem witness_DecodeEncodeRoundTrip : wellFormed (.bc7Mode4 okFields) = true ∧ wellFormed .nrmU32 = true := by decide

theorem witness_Bc7BlockBitsExact : 2 ^ 128 - 1 < 2 ^ 128 ∧ wellFormed (decodeBc7 (2 ^ 128 - 1)) = true := by
  decide +kernel

theorem witness_StepKeepsInvariant : Inv badPending ∧ ∃ t, stepsTo badPending t :=
  ⟨badPending_inv, _, rfl⟩

theorem witness_StepRunsDecoded : nextTurn atTile = .fetch .bc7Block (List.replicate 16 0) atTile ∧
    decode .bc7Block (List.replicate 16 0) = .ok (.bc7Reserved 0) := ⟨by rfl, by decide +kernel⟩

theorem witness_StepFetchPlaces_word : cduNext (pendingWith 0x30 .notBegun 0 false State.reset) ⟨0x30, Operands.reset, .notBegun, 0, false⟩ ∧
    decodeCommand (0x30 : Word).toNat = .ok .nrmF32 :=
  ⟨⟨rfl, rfl, .inl rfl⟩, by decide⟩

theorem witness_StepFetchPlaces_tile : cduNext atTile ⟨bc7Word, opsOf 16 0, .bcd 0 [], 0, true⟩ ∧
    0 < tileCount (opsOf 16 0) ∧
    fetchBlock 16 atTile.memMap (opsOf 16 0) 0 atTile.mem = .ok (List.replicate 16 0) :=
  ⟨⟨rfl, rfl, .inl rfl⟩, by decide, by decide +kernel⟩

theorem witness_StepFetchPlaces_stream : ∃ p r e, cduNext (atBlock [0x07]) p ∧ p.work = .inflate freshStream ∧
    freshStream.last = false ∧
    streamOf (atBlock [0x07]).memMap (atBlock [0x07]).mem p.word p.ops = some (r, e) ∧ streamBits e 3 0 = .ok 7 :=
  ⟨⟨inflateWord, opsOf 1 0, .inflate freshStream, 0, true⟩, inflateRule, _, ⟨rfl, rfl, .inl rfl⟩, rfl, rfl, rfl,
    by decide +kernel⟩

theorem witness_StepFetchPlaces_host (v : Word) : (withHost (.regWrite 0 .w32 v) faulted).phase = .idle ∧
    (withHost (.regWrite 0 .w32 v) faulted).rst = false ∧
    (withHost (.regWrite 0 .w32 v) faulted).hostIn = .regWrite faulted.regBase .w32 v :: [] := ⟨rfl, rfl, rfl⟩

theorem witness_IllegalWordFaults : cduNext badPending ⟨0x100, opsOf 8 0, .notBegun, 0, false⟩ ∧
    badPending.done = false ∧ ∀ i, decodeCommand (0x100 : Word).toNat ≠ .ok i :=
  ⟨⟨rfl, rfl, .inl rfl⟩, rfl, fun i => by simp [decodeCommand, commandTable]⟩

theorem witness_EveryCommandEnds : Inv bc1Pending ∧ cduNext bc1Pending ⟨0x10, opsOf 8 0, .notBegun, 0, true⟩ :=
  ⟨bc1Pending_inv, rfl, rfl, .inl rfl⟩

theorem witness_TileByTileIsWhole : cduNext bc1Pending ⟨0x10, opsOf 8 0, .notBegun, 0, true⟩ ∧
    (pendingInstr ⟨0x10, opsOf 8 0, .notBegun, 0, true⟩ >>= blockFormatOf) = some (8, bc1Block) ∧
    (endCommand (bcdRule bc1Block 8) (opsOf 8 0) bc1Pending).err = false :=
  ⟨⟨rfl, rfl, .inl rfl⟩, rfl, by decide +kernel⟩

/-- The raw stream of 96 V60. -/
def helloStream : List Nat := [0x01, 0x05, 0x00, 0xFA, 0xFF, 0x68, 0x65, 0x6C, 0x6C, 0x6F]

/-- An inflating command accepted for that stream, to run block by block. -/
def helloPending (w : Word) : State := pendingWith w .notBegun 0 true (loaded (opsOf 10 0) helloStream)

theorem witness_BlockByBlockIsWhole :
    (∀ w, cduNext (helloPending w) ⟨w, opsOf 10 0, .notBegun, 0, true⟩ ∧ (helloPending w).mem.wf) ∧
    (∃ e, streamOf (helloPending 0).memMap (helloPending 0).mem inflateWord (opsOf 10 0) = some (inflateRule, e)) ∧
    (endCommand inflateRule (opsOf 10 0) (helloPending inflateWord)).err = false ∧
    (∃ e, streamOf (helloPending 0).memMap (helloPending 0).mem unzipWord (opsOf 10 0) = some (unzipRule, e)) ∧
    (endCommand unzipRule (opsOf 10 0) (helloPending unzipWord)).err = false :=
  ⟨fun w => ⟨⟨rfl, rfl, .inl rfl⟩, show (loaded (opsOf 10 0) helloStream).mem.wf by decide +kernel⟩, ⟨_, rfl⟩,
    by decide +kernel, ⟨_, rfl⟩, by decide +kernel⟩

theorem witness_CommandStaysInItsOutputs : Inv bc1Pending ∧
    cduNext bc1Pending ⟨0x10, opsOf 8 0, .notBegun, 0, true⟩ ∧ ∃ t, stepsTo bc1Pending t :=
  ⟨bc1Pending_inv, ⟨rfl, rfl, .inl rfl⟩, _, rfl⟩

/-- The same with a host access waiting that comes after the command. -/
theorem witness_CommandStaysInItsOutputs_waiting : Inv (withHost (.memRead 0) badPending) ∧
    cduNext (withHost (.memRead 0) badPending) ⟨0x100, opsOf 8 0, .notBegun, 0, false⟩ ∧
    ∃ t, stepsTo (withHost (.memRead 0) badPending) t :=
  ⟨{ badPending_inv with rst := by simp [resetOk, withHost, badPending, pendingWith, holdWindows, loaded, State.reset] },
    ⟨rfl, rfl, .inr rfl⟩, _, rfl⟩

theorem witness_NopChangesNothing : faulted.phase = .idle ∧
    badPending.phase = .busy ⟨0x100, opsOf 8 0, .notBegun, 0, false⟩ := ⟨rfl, rfl⟩

theorem witness_ClrAcknowledges : faulted.phase = .idle ∧ faulted.err = true ∧
    badPending.phase = .busy ⟨0x100, opsOf 8 0, .notBegun, 0, false⟩ := ⟨rfl, rfl, rfl⟩

/-- A BUSY machine that serves one host access before its own turn. -/
def busyWith (act : HostAct) : State := withHost act (pendingWith 0x100 .notBegun 1 false (loaded (opsOf 8 0) []))

/-- What that access acts on. -/
def busyThen : State := pendingWith 0x100 .notBegun 0 false (loaded (opsOf 8 0) [])

/-- An access waiting in IDLE is the next one served. -/
theorem hostNext_idle (s : State) (act : HostAct) (h : s.phase = .idle) :
    hostNext (withHost act s) act { withHost act s with hostIn := [] } := ⟨[], rfl, .inl ⟨h, rfl⟩⟩

/-- An access waiting while BUSY is the next one served. -/
theorem hostNext_busy (act : HostAct) : hostNext (busyWith act) act busyThen :=
  ⟨[], rfl, .inr ⟨_, rfl, rfl, Nat.zero_lt_one, rfl⟩⟩

theorem witness_CmdWriteOrder_busy (v : Word) : hostNext (busyWith (.regWrite 0 .w32 v)) (.regWrite 0 .w32 v) busyThen ∧
    (busyWith (.regWrite 0 .w32 v)).rst = false ∧
    busyThen.phase = .busy ⟨0x100, opsOf 8 0, .notBegun, 0, false⟩ := ⟨hostNext_busy _, rfl, rfl⟩

theorem witness_CmdWriteOrder_idle (v : Word) :
    hostNext (withHost (.regWrite 0 .w32 v) faulted) (.regWrite 0 .w32 v) { faulted with hostIn := [] } ∧
    faulted.rst = false ∧ faulted.phase = .idle ∧ faulted.err = true ∧ acceptable 0x10 ∧
    hostNext (withHost (.regWrite 0 .w32 v) State.reset) (.regWrite 0 .w32 v) State.reset ∧ State.reset.err = false :=
  ⟨hostNext_idle _ _ rfl, rfl, rfl, rfl, by unfold acceptable; decide, hostNext_idle _ _ rfl, rfl⟩

/-- The offsets at the ends of the register groups that the statements about writes tell apart. -/
def edgeOffsets : List Nat := [0x04, 0x08, 0x0C, 0x10, 0x14, 0x28, 0x2C, 0x30, 0x40, 0x44, 0x48, 0xFC]

theorem witness_RegisterWriteInIdle (off : Nat) :
    hostNext (withHost (.regWrite (0 + off) .w32 5) faulted) (.regWrite (0 + off) .w32 5) { faulted with hostIn := [] } ∧
    faulted.rst = false ∧ faulted.phase = .idle ∧ ∀ x ∈ edgeOffsets, x < 256 ∧ x % 4 = 0 ∧ x ≠ 0 :=
  ⟨hostNext_idle _ _ rfl, rfl, rfl, by decide⟩

theorem witness_RegisterWriteWhileBusy (off : Nat) :
    hostNext (busyWith (.regWrite (0 + off) .w32 5)) (.regWrite (0 + off) .w32 5) busyThen ∧
    busyThen.phase = .busy ⟨0x100, opsOf 8 0, .notBegun, 0, false⟩ ∧
    ∀ x ∈ edgeOffsets, x < 256 ∧ x % 4 = 0 ∧ x ≠ 0 := ⟨hostNext_busy _, rfl, by decide⟩

theorem witness_RegisterReadChangesNothing (off : Nat) :
    hostNext (busyWith (.regRead (0 + off) .w32)) (.regRead (0 + off) .w32) busyThen ∧
    hostNext (withHost (.regRead (0 + off) .w32) faulted) (.regRead (0 + off) .w32) { faulted with hostIn := [] } ∧
    ∀ x ∈ (0 :: edgeOffsets), x < 256 ∧ x % 4 = 0 := ⟨hostNext_busy _, hostNext_idle _ _ rfl, by decide⟩

theorem witness_OddRegisterAccessRefused :
    hostNext (withHost (.regWrite 0xFC .w64 0) faulted) (.regWrite 0xFC .w64 0) { faulted with hostIn := [] } ∧
    hostNext (withHost (.regRead 0x100 .w32) faulted) (.regRead 0x100 .w32) { faulted with hostIn := [] } ∧
    hostNext (withHost (.regRead 0x02 .w32) faulted) (.regRead 0x02 .w32) { faulted with hostIn := [] } ∧
    hostNext (withHost (.regRead 0xFF .w32) { faulted with regBase := 0x100 }) (.regRead 0xFF .w32)
      { faulted with regBase := 0x100, hostIn := [] } :=
  ⟨hostNext_idle _ _ rfl, hostNext_idle _ _ rfl, hostNext_idle _ _ rfl, hostNext_idle _ _ rfl⟩

theorem witness_IrqIsALevel : (faulted.rst = true → faulted.done = false ∧ faulted.err = false) ∧
    ({ State.reset with rst := true }.rst = true → State.reset.done = false ∧ State.reset.err = false) := by decide

theorem witness_AssertedResetAbandons : hostNext (busyWith .assertRst) .assertRst busyThen ∧
    hostNext (withHost .assertRst faulted) .assertRst { faulted with hostIn := [] } :=
  ⟨hostNext_busy _, hostNext_idle _ _ rfl⟩

/-- A machine in reset. -/
def inReset : State := { State.reset with rst := true, mem := [(0x1000, 0x5A)] }

theorem witness_AssertedResetAbandons_release (act : HostAct) : Inv (withHost act inReset) ∧
    (withHost act inReset).rst = true ∧ hostNext (withHost act inReset) act inReset :=
  ⟨{ mem := show inReset.mem.wf by decide
     flags := by simp [oneFlag, withHost, inReset, State.reset]
     record := by simp [recordOk, withHost, inReset, State.reset]
     hardwired := ⟨show State.reset.regs.mode &&& modeMask = State.reset.regs.mode by decide,
       show State.reset.irqEn &&& irqEnMask = State.reset.irqEn by decide⟩
     snapshot := trivial
     work := trivial
     held := fun _ hx => nomatch hx
     rst := fun _ => ⟨rfl, rfl, rfl, rfl, fun r => show readReg r inReset = 0 by cases r <;> decide⟩ }, rfl, hostNext_idle _ _ rfl⟩

/-- A pending BCD.BC1 and one host access to serve before its turn. -/
def bc1With (act : HostAct) : State := withHost act (pendingWith 0x10 .notBegun 1 false (loaded (opsOf 8 0) []))

/-- IDLE after a command whose end the host has not seen: its eight source bytes are still held. -/
def unseenEnd (act : HostAct) : State := withHost act { loaded (opsOf 8 0) [] with held := [⟨0x1000, 8⟩] }

-- 70 R480.
theorem test_held_after_end : (match step (unseenEnd (.memWrite 0x1007 1)) with
    | .refused (.hostWroteWindow a) => a == 0x1007
    | _ => false) = true := by decide +kernel

theorem test_status_read_ends_span : after (step (unseenEnd (.regRead 0x04 .w32))) (fun t => t.held == []) = true := by
  decide +kernel

theorem test_acceptance_holds : after (step (withHost (.regWrite 0 .w32 0x10) (loaded (opsOf 8 0) [])))
    (fun t => t.held == [⟨0x1000, 8⟩, ⟨0x2000, 64⟩]) = true := by decide +kernel

theorem witness_HostMemoryWrite_span : Inv badPending ∧ (∃ t, stepsTo badPending t) ∧ Inv bc1Pending ∧
    (∃ t, stepsTo bc1Pending t) ∧ ∀ x ∈ [0x1000, 0x1007, 0x2000, 0x203F],
      (forbiddenWindows bc1Pending).any (inRange · x) = true :=
  ⟨badPending_inv, ⟨_, rfl⟩, bc1Pending_inv, ⟨_, rfl⟩, by decide +kernel⟩

theorem witness_HostMemoryWrite :
    (∀ a b, hostNext (bc1With (.memWrite a b)) (.memWrite a b)
      (pendingWith 0x10 .notBegun 0 false (loaded (opsOf 8 0) []))) ∧
    (loaded (opsOf 8 0) []).mem.wf ∧
    (∀ x ∈ [0x1000, 0x1007, 0x2000, 0x203F], memValid (loaded (opsOf 8 0) []).memMap x = true ∧
      (forbiddenWindows (pendingWith 0x10 .notBegun 0 false (loaded (opsOf 8 0) []))).any (inRange · x) = true) ∧
    (∀ x ∈ [0x0FFF, 0x1008, 0x1FFF, 0x2040], memValid (loaded (opsOf 8 0) []).memMap x = true ∧
      (forbiddenWindows (pendingWith 0x10 .notBegun 0 false (loaded (opsOf 8 0) []))).any (inRange · x) = false) :=
  ⟨fun _ _ => ⟨[], rfl, .inr ⟨_, rfl, rfl, Nat.zero_lt_one, rfl⟩⟩, by decide +kernel, by decide +kernel,
    by decide +kernel⟩

theorem witness_NoCommandWhileErr : formatOf .bcdBc2 = .command ∧ faulted.phase = .idle ∧ faulted.err = true :=
  ⟨rfl, rfl, rfl⟩

theorem witness_StartFaultTouchesNothing : ruleOf .bcdBc2 = some (unsupportedRule 0x11) ∧
    atCommand (loaded (opsOf 8 0) []) (opsOf 8 0) ∧ atCommand bc1Pending (opsOf 8 0) ∧
    (unsupportedRule 0x11).check (opsOf 8 0) = some (.unsupportedFormat 0x11) :=
  ⟨rfl, ⟨rfl, rfl, trivial⟩, ⟨rfl, rfl, rfl, rfl⟩, rfl⟩

theorem witness_StartFaultPriority :
    ruleOf .bcdBc2 = some (unsupportedRule 0x11) ∧ ruleOf .bcdBc1 = some (bcdRule bc1Block 8) ∧
    ruleOf .zpfRecon = some (filterRule recon) ∧ ruleOf .zpfFilt = some filtRule ∧
    ruleOf .zpfInflate = some inflateRule ∧ ruleOf .zpfUnzip = some unzipRule ∧
    ruleOf .nrmF16 = some (nrmRule .f16) := ⟨rfl, rfl, rfl, rfl, rfl, rfl, rfl⟩

/-- Each sub-code of a BCD command at the edge of its range. -/
theorem witness_StartFaultPriority_bcd :
    bcdCheck { opsOf 8 0 with width := 0x80000000 } = some (.resourceLimit 1) ∧
    bcdCheck { opsOf 8 0 with width := 0, height := -1 } = some (.resourceLimit 2) ∧
    bcdCheck { opsOf 9 0 with srcBase := 0xFFFFFFF8 } = some (.resourceLimit 3) ∧
    bcdCheck { opsOf 8 0 with srcBase := 0xFFFFFFF8 } = none ∧
    bcdCheck { opsOf 8 0 with dstBase := 0xFFFFFFC1 } = some (.resourceLimit 4) ∧
    bcdCheck { opsOf 8 0 with dstStride := 15 } = some (.resourceLimit 6) ∧
    bcdCheck { opsOf 8 0 with dstLen := 63 } = some (.resourceLimit 7) ∧
    bcdCheck { opsOf 8 0 with dstBase := 0x1007 } = some .overlap ∧
    bcdCheck { opsOf 8 0 with dstBase := 0x1008, mode := 7 } = none := by decide +kernel

/-- Each sub-code of the other commands at the edge of its range, whatever the dimensions. -/
theorem witness_StartFaultPriority_others :
    filterCheck false { opsOf 8 65 with width := -1, mode := 6 } = some (.resourceLimit 7) ∧
    filterCheck false { opsOf 8 8 with dstBase := 0x1007 } = some .overlap ∧
    filterCheck true { opsOf 8 8 with tmpBase := 0xFFFFFFC1 } = some (.resourceLimit 5) ∧
    filterCheck true { opsOf 8 8 with tmpLen := 7 } = some (.resourceLimit 8) ∧
    filterCheck true { opsOf 8 8 with tmpBase := 0x203F } = some .overlap ∧
    unzipCheck { opsOf 8 0 with tmpBase := 0xFFFFFFC1 } = some (.resourceLimit 5) ∧
    inflateCheck { opsOf 8 0 with dstBase := 0x1007 } = some .overlap ∧
    nrmCheck .f16 { opsOf 72 9 with height := -1 } = some (.resourceLimit 7) ∧
    nrmCheck .f16 { opsOf 8 1 with mode := 6, srcBase := -1 } = some (.badMode 6) := by decide +kernel

theorem witness_UnsupportedFormats : atCommand (loaded (opsOf 8 0) []) (opsOf 8 0) ∧
    atCommand bc1Pending (opsOf 8 0) := ⟨⟨rfl, rfl, trivial⟩, ⟨rfl, rfl, rfl, rfl⟩⟩

/-- A platform that backs no memory, with a filter of one byte pending. -/
def noMemory : State := { pendingWith 0x20 .notBegun 0 false (loaded (opsOf 1 1) []) with memMap := [] }

theorem witness_BusErrorNamesInvalidAddress : ruleOf .zpfRecon = some (filterRule recon) ∧
    atCommand noMemory (opsOf 1 1) ∧ ∃ t, exec .zpfRecon noMemory = .next t ∧ t.err = true ∧ t.ecode = 0x08 := by
  have hc : (filterRule recon).check (opsOf 1 1) = none := by decide +kernel
  have hr : (filterRule recon).run noMemory.memMap (opsOf 1 1) noMemory.mem = .error (.busError 0x1000) := by
    decide +kernel
  refine ⟨rfl, ⟨rfl, rfl, rfl, rfl⟩, endCommand (filterRule recon) (opsOf 1 1) noMemory, rfl, ?_⟩
  unfold endCommand
  rw [hc]
  simp only
  split
  · exact ⟨rfl, rfl⟩
  · rw [hr]
    exact ⟨rfl, rfl⟩

theorem witness_FaultLeavesTheRest_fault : ruleOf .bcdBc7 = some (bcdRule bc7Block 16) ∧
    atCommand (loaded (opsOf 15 0) []) (opsOf 15 0) ∧
    ∃ t, exec .bcdBc7 (loaded (opsOf 15 0) []) = .next t ∧ t.err = true :=
  ⟨rfl, ⟨rfl, rfl, trivial⟩, _, rfl, by decide +kernel⟩

theorem witness_FaultLeavesTheRest_done : ruleOf .zpfRecon = some (filterRule recon) ∧
    atCommand (loaded (opsOf 4 4) []) (opsOf 4 4) ∧
    ∃ t, exec .zpfRecon (loaded (opsOf 4 4) []) = .next t ∧ t.err = false :=
  ⟨rfl, ⟨rfl, rfl, trivial⟩, _, rfl, by decide +kernel⟩

/-- One tile of a format of block size `n`, exactly as many source bytes as it needs. -/
theorem witness_BcdCompletes : (∀ n ∈ [8, 16], bcdCheck (opsOf n 0) = none ∧
      (opsOf n 0).srcPos.toNat + tileCount (opsOf n 0) * n ≤ (opsOf n 0).srcLen.toNat) ∧
    (∀ n : Nat,
      atCommand (loaded (opsOf n 0) []) (opsOf n 0) ∧ (loaded (opsOf n 0) []).mem.wf) ∧
    (∀ block : List Byte → List Texel, entitledValid (bcdRule block 8) (opsOf 8 0) (loaded (opsOf 8 0) []) ∧
      entitledValid (bcdRule block 16) (opsOf 16 0) (loaded (opsOf 16 0) [])) :=
  ⟨by decide +kernel, fun _ => ⟨⟨rfl, rfl, trivial⟩, by constructor <;> simp [loaded, placeBytes, bytes]⟩,
    fun _ => ⟨allValid_full _ _ rfl (by rfl), allValid_full _ _ rfl (by rfl)⟩⟩

theorem witness_BcdCompletes_empty : bcdCheck { opsOf 0 0 with width := 0 } = none ∧
    tileCount { opsOf 0 0 with width := 0 } = 0 ∧
    ∀ block : List Byte → List Texel,
      entitledValid (bcdRule block 8) { opsOf 0 0 with width := 0 } (loaded { opsOf 0 0 with width := 0 } []) :=
  ⟨by decide +kernel, by decide +kernel, fun _ => allValid_full _ _ rfl (by rfl)⟩

theorem witness_BcdPlaneContents : atCommand (loaded (opsOf 8 0) []) (opsOf 8 0) ∧ (loaded (opsOf 8 0) []).mem.wf ∧
    (∃ t, exec .bcdBc1 (loaded (opsOf 8 0) []) = .next t ∧ t.err = false) ∧
    3 < planeWidth (opsOf 8 0) ∧ 3 < planeHeight (opsOf 8 0) :=
  ⟨⟨rfl, rfl, trivial⟩, by decide +kernel, ⟨_, rfl, by decide +kernel⟩, by decide +kernel, by decide +kernel⟩

theorem witness_BcdTruncated : atCommand (loaded (opsOf 7 0) []) (opsOf 7 0) ∧
    (∀ n ∈ [7, 15], bcdCheck (opsOf n 0) = none ∧ 0 < tileCount (opsOf n 0) ∧
      (opsOf n 0).srcLen.toNat < (opsOf n 0).srcPos.toNat + tileCount (opsOf n 0) * (n + 1)) ∧
    ∀ block : List Byte → List Texel, entitledValid (bcdRule block 8) (opsOf 7 0) (loaded (opsOf 7 0) []) ∧
      entitledValid (bcdRule block 16) (opsOf 15 0) (loaded (opsOf 15 0) []) :=
  ⟨⟨rfl, rfl, trivial⟩, by decide +kernel,
    fun _ => ⟨allValid_full _ _ rfl (by rfl), allValid_full _ _ rfl (by rfl)⟩⟩

theorem witness_Bc1AlphaRule :
    leAt (bytes [0x01, 0x00, 0x00, 0x00, 0xE4]) 0 2 > leAt (bytes [0x01, 0x00, 0x00, 0x00, 0xE4]) 2 2 ∧
    leAt (bytes [0x00, 0x00, 0x00, 0x00, 0xE4]) 0 2 ≤ leAt (bytes [0x00, 0x00, 0x00, 0x00, 0xE4]) 2 2 ∧
    (∀ i < 4, slice (leAt (bytes [0x00, 0x00, 0x00, 0x00, 0xE4]) 4 4) (2 * i + 1) (2 * i) = i) ∧
    (∀ ch ∈ [Rgb.r, Rgb.g, Rgb.b], ch ⟨255, 0, 255⟩ < 256 ∧ ch ⟨0, 255, 0⟩ < 256) := by
  refine ⟨by decide +kernel, by decide +kernel, by decide +kernel, by simp⟩

theorem witness_AlphaBlockValues :
    leAt (bytes [8, 7, 0x88, 0xC6, 0xFA]) 0 1 > leAt (bytes [8, 7, 0x88, 0xC6, 0xFA]) 1 1 ∧
    leAt (bytes [7, 7, 0x88, 0xC6, 0xFA]) 0 1 ≤ leAt (bytes [7, 7, 0x88, 0xC6, 0xFA]) 1 1 ∧
    (∀ i < 8, slice (leAt (bytes [7, 7, 0x88, 0xC6, 0xFA]) 2 6) (3 * i + 2) (3 * i) = i) := by decide +kernel

theorem witness_BlockRowsNeedACommand : faulted.phase = .idle := rfl

theorem witness_Bc7RowsFillTheTile : atTile.phase = .busy ⟨bc7Word, opsOf 16 0, .bcd 0 [], 0, true⟩ := rfl

theorem witness_Bc7ModesWithoutAlphaOpaque : ∀ m ∈ [0, 1, 2, 3], bc7FieldsOk m (bc7FieldsOf m (2 ^ 128 - 1)) = true := by
  decide +kernel

theorem witness_FilterPositions : 0 < (bytes [1, 2, 3]).length ∧ 2 < (bytes [1, 2, 3]).length := by decide

theorem witness_FilterCompletes : (∀ n ∈ [0, 1, 5], filterCheck false (opsOf n n) = none) ∧
    (∀ n, atCommand (loaded (opsOf n n) []) (opsOf n n)) ∧ (loaded (opsOf 5 5) []).mem.wf ∧
    ∀ f : List Byte → List Byte, entitledValid (filterRule f) (opsOf 5 5) (loaded (opsOf 5 5) []) :=
  ⟨by decide +kernel, fun _ => ⟨rfl, rfl, trivial⟩, by decide +kernel,
    fun _ => allValid_full _ _ rfl (by rfl)⟩

theorem witness_FiltCompletes : atCommand (loaded (opsOf 5 5) []) (opsOf 5 5) ∧ (loaded (opsOf 5 5) []).mem.wf ∧
    filterCheck true (opsOf 5 5) = none ∧ entitledValid filtRule (opsOf 5 5) (loaded (opsOf 5 5) []) :=
  ⟨⟨rfl, rfl, trivial⟩, by decide +kernel, by decide +kernel, allValid_full _ _ rfl (by decide +kernel)⟩

theorem witness_CountedTruncation : filterCheck false (opsOf 4 5) = some (.truncated 4) ∧
    filterCheck true { opsOf 4 1 with srcPos := 5 } = some (.truncated 5) ∧
    nrmCheck .f16 (opsOf 15 2) = some (.truncated 8) ∧
    nrmCheck .f32 { opsOf 15 1 with srcPos := 16 } = some (.truncated 16) := by decide +kernel

theorem witness_CountedTruncation_checks : wraps (srcWindow (opsOf 4 5)) = false ∧
    wraps (dstWindow (opsOf 4 5)) = false ∧ wraps (tmpWindow (opsOf 4 5)) = false ∧
    8 * countOf (opsOf 4 5) ≤ (opsOf 4 5).dstLen.toNat ∧ countOf (opsOf 4 5) ≤ (opsOf 4 5).tmpLen.toNat ∧
    anyOverlap [srcWindow (opsOf 4 5), dstWindow (opsOf 4 5), tmpWindow (opsOf 4 5)] = false ∧
    anyOverlap [srcWindow (opsOf 4 5), dstWindow (opsOf 4 5)] = false ∧ 0 < countOf (opsOf 4 5) ∧
    grayOf { opsOf 4 5 with mode := 5 } < 6 ∧
    (opsOf 4 5).srcLen.toNat < (opsOf 4 5).srcPos.toNat + countOf (opsOf 4 5) := by decide +kernel

theorem witness_InflateCompletes : atCommand (loaded (opsOf 10 0) helloStream) (opsOf 10 0) ∧
    (loaded (opsOf 10 0) helloStream).mem.wf ∧ inflateCheck (opsOf 10 0) = none ∧
    entitledValid inflateRule (opsOf 10 0) (loaded (opsOf 10 0) helloStream) ∧
    inflateStream (inflateEnv (loaded (opsOf 10 0) helloStream).memMap (opsOf 10 0)
      (loaded (opsOf 10 0) helloStream).mem) = .ok (bytes [0x68, 0x65, 0x6C, 0x6C, 0x6F], 10) :=
  ⟨⟨rfl, rfl, trivial⟩, by decide +kernel, by decide +kernel, allValid_full _ _ rfl (by decide +kernel),
    by decide +kernel⟩

theorem witness_UnzipCompletes : atCommand (loaded (opsOf 10 0) helloStream) (opsOf 10 0) ∧
    (loaded (opsOf 10 0) helloStream).mem.wf ∧ unzipCheck (opsOf 10 0) = none ∧
    entitledValid unzipRule (opsOf 10 0) (loaded (opsOf 10 0) helloStream) ∧
    inflateStream (unzipEnv (loaded (opsOf 10 0) helloStream).memMap (opsOf 10 0)
      (loaded (opsOf 10 0) helloStream).mem) = .ok (bytes [0x68, 0x65, 0x6C, 0x6C, 0x6F], 10) :=
  ⟨⟨rfl, rfl, trivial⟩, by decide +kernel, by decide +kernel, allValid_full _ _ rfl (by decide +kernel),
    by decide +kernel⟩

theorem witness_BadStreamFaults : atCommand (loaded (opsOf 1 0) [0x07]) (opsOf 1 0) ∧
    inflateCheck (opsOf 1 0) = none ∧ entitledValid inflateRule (opsOf 1 0) (loaded (opsOf 1 0) [0x07]) ∧
    unzipCheck (opsOf 1 0) = none ∧ entitledValid unzipRule (opsOf 1 0) (loaded (opsOf 1 0) [0x07]) ∧
    inflateStream (inflateEnv (loaded (opsOf 1 0) [0x07]).memMap (opsOf 1 0) (loaded (opsOf 1 0) [0x07]).mem) =
      .error (.malformedStream 1) ∧
    inflateStream (unzipEnv (loaded (opsOf 1 0) [0x07]).memMap (opsOf 1 0) (loaded (opsOf 1 0) [0x07]).mem) =
      .error (.malformedStream 1) :=
  ⟨⟨rfl, rfl, trivial⟩, by decide +kernel, allValid_full _ _ rfl (by decide +kernel), by decide +kernel,
    allValid_full _ _ rfl (by decide +kernel), by decide +kernel, by decide +kernel⟩

theorem witness_StoredBlockInflates : zlibOf (opsOf 10 0) = false ∧
    (bytes [0x68, 0x65, 0x6C, 0x6C, 0x6F]).length < 65536 ∧
    (bytes [0x68, 0x65, 0x6C, 0x6C, 0x6F]).length ≤ (opsOf 10 0).dstLen.toNat ∧
    (opsOf 10 0).srcPos.toNat + 5 + 5 ≤ (opsOf 10 0).srcLen.toNat ∧
    allValid State.reset.memMap [streamSource (opsOf 10 0), dstWindow (opsOf 10 0)] ∧
    peekBytes (loaded (opsOf 10 0) helloStream).mem 0x1000 10 =
      [0x01, BitVec.ofNat 8 5, BitVec.ofNat 8 0, BitVec.ofNat 8 (255 - 5), BitVec.ofNat 8 (255 - 0)] ++
        bytes [0x68, 0x65, 0x6C, 0x6C, 0x6F] :=
  ⟨by decide +kernel, by decide, by decide, by decide, allValid_full _ _ rfl (by decide +kernel), by decide +kernel⟩

theorem witness_InflateStaysInWindows : ∃ e : InflateEnv, e.start = streamStart e.ops ∧
    inflateStream e = .ok (bytes [0x68, 0x65, 0x6C, 0x6C, 0x6F], 10) :=
  ⟨inflateEnv State.reset.memMap (opsOf 10 0) (loaded (opsOf 10 0) helloStream).mem, rfl, by decide +kernel⟩

theorem witness_CopyReadsItsOwnOutput : 0 < 1 ∧ 1 ≤ (⟨3, [0x61], 1⟩ : Inf).rev.length ∧
    copyBytes (inflateEnv State.reset.memMap (opsOf 10 0) []) 1 4 ⟨3, [0x61], 1⟩ =
      .ok ⟨3, [0x61, 0x61, 0x61, 0x61, 0x61], 5⟩ := by decide +kernel

/-- The pending command of `atBlock`. -/
def blockPending (n : Nat) : Pending := ⟨inflateWord, opsOf n 0, .inflate freshStream, 0, true⟩

/-- The body of the block at bit 0 of a raw stream decodes. -/
def bodyDecodes (body : InflateEnv → Inf → Except Trap Inf) (src : List Nat) : Bool :=
  match body (inflateEnv (atBlock src).memMap (opsOf src.length 0) (atBlock src).mem)
      (blockStart (inflateEnv (atBlock src).memMap (opsOf src.length 0) (atBlock src).mem) freshStream) with
  | .ok _ => true
  | .error _ => false

/-- What the statement asks of the state, and that the bodies of three blocks decode there. -/
theorem witness_DeflateBlocksRun : (∀ src, (atBlock src).phase = .busy (blockPending src.length) ∧
      (blockPending src.length).work = .inflate freshStream ∧
      streamOf (atBlock src).memMap (atBlock src).mem inflateWord (opsOf src.length 0) =
        some (inflateRule, inflateEnv (atBlock src).memMap (opsOf src.length 0) (atBlock src).mem)) ∧
    (∀ x ∈ [(storedBlock, helloStream), (fixedBlock, [0x4B, 0x04, 0x01, 0x00]), (dynamicBlock,
        [0x0D, 0xC1, 0x01, 0x01, 0x00, 0x00, 0x00, 0x40, 0xA0, 0xAD, 0xFC, 0x1F, 0x41, 0xE1, 0x03])],
      (atBlock x.2).mem.wf ∧ bodyDecodes x.1 x.2 = true) :=
  ⟨fun _ => ⟨rfl, rfl, rfl⟩, by decide +kernel⟩

theorem witness_DeflateReservedFaults : (atBlock [0x07]).phase = .busy (blockPending 1) ∧
    (blockPending 1).work = .inflate freshStream ∧ (atBlock [0x07]).done = false := ⟨rfl, rfl, rfl⟩

theorem witness_NrmCompletes : (∀ fmt ∈ [NrmFormat.f32, .f16, .u32], nrmCheck fmt (opsOf 16 1) = none ∧
      nrmCheck fmt { opsOf 16 1 with mode := 5 } = none) ∧
    atCommand (loaded (opsOf 16 1) []) (opsOf 16 1) ∧ (loaded (opsOf 16 1) []).mem.wf ∧
    entitledValid (nrmRule .f32) (opsOf 16 1) (loaded (opsOf 16 1) []) ∧
    entitledValid (nrmRule .f16) (opsOf 16 1) (loaded (opsOf 16 1) []) ∧
    entitledValid (nrmRule .u32) (opsOf 16 1) (loaded (opsOf 16 1) []) :=
  ⟨by decide +kernel, ⟨rfl, rfl, trivial⟩, by decide +kernel, allValid_full _ _ rfl (by decide +kernel),
    allValid_full _ _ rfl (by decide +kernel), allValid_full _ _ rfl (by decide +kernel)⟩

theorem witness_NrmBadMode : atCommand (loaded { opsOf 16 1 with mode := 6 } []) { opsOf 16 1 with mode := 6 } ∧
    grayOf { opsOf 16 1 with mode := 6 } = 6 ∧ grayOf { opsOf 16 1 with mode := 7 } = 7 :=
  ⟨⟨rfl, rfl, trivial⟩, by decide, by decide⟩

theorem witness_NrmPixelProperties : 0x3F800000 < 2 ^ 32 ∧ 2 ^ 32 - 1 < 2 ^ 32 ∧ unitValue .f32 0xBF800000 = 0 ∧
    unitValue .f32 0x3F800000 = 1 ∧ unitValue .u32 (2 ^ 32 - 1) = 1 := by
  refine ⟨by decide, by decide, by decide +kernel, by decide +kernel, by decide +kernel⟩

theorem witness_NrmMonotone : ((0 : ℚ) ≤ 1 / 2 ∧ (1 / 2 : ℚ) ≤ 1) ∧
    channelLe .f32 0xFF800000 0x7F800000 ∧ channelLe .f32 0xFF800000 0x3F000000 ∧
    channelLe .f16 0x3800 0x7C00 ∧ channelLe .f16 0x7E00 0x7E00 ∧ channelLe .u32 0 (2 ^ 32 - 1) :=
  ⟨by norm_num, .inr (.inl rfl), .inr rfl, .inr rfl, .inl rfl, Nat.zero_le _⟩

theorem witness_NrmMonotone_finite : channelLe .f32 0xBF800000 0x3F800000 :=
  .inr (show scaled 1 (2 ^ 23 + 0) 127 150 ≤ scaled 0 (2 ^ 23 + 0) 127 150 by norm_num [scaled])
end Sys2Proof.Tests
end

section
/-! The block rows with no command pending (00_scope R2; log 12): the two operations behind the thirteen rows look for a
pending command first, so in IDLE neither asks what the block holds. -/

namespace Sys2Proof.Machine

/-- With no command pending there is no tile buffer to fill (log 12). -/
theorem fillTile_idle {s : State} (h : s.phase = .idle) (ts : List Texel) :
    fillTile ts s = .refused .noBlockExpected := by
  simp [fillTile, h]

/-- With no command pending there is no stream to take a block of (log 12). -/
theorem runBlock_idle {s : State} (h : s.phase = .idle) (body : InflateEnv → Inf → Except Trap Inf) (bfinal : Bool) :
    runBlock body bfinal s = .refused .noBlockExpected := by
  simp [runBlock, h]

/-- Each of the nine BC7 rows fills the tile with the texels it stands for (42_bcd_bc7 R237, R222). -/
theorem exec_bc7Row (f : Bc7Fields) (x : BitVec 120) (s : State) :
    ∀ i ∈ [Instr.bc7Mode0 f, .bc7Mode1 f, .bc7Mode2 f, .bc7Mode3 f, .bc7Mode4 f, .bc7Mode5 f, .bc7Mode6 f,
      .bc7Mode7 f, .bc7Reserved x], ∃ ts, exec i s = fillTile ts s := by
  simp only [List.forall_mem_cons]
  exact ⟨⟨_, rfl⟩, ⟨_, rfl⟩, ⟨_, rfl⟩, ⟨_, rfl⟩, ⟨_, rfl⟩, ⟨_, rfl⟩, ⟨_, rfl⟩, ⟨_, rfl⟩, ⟨_, rfl⟩, by simp⟩

/-- Each of the four DEFLATE rows runs one block with the body of its type (45_zpf_inflate R312). -/
theorem exec_deflateRow (fin : Bool) (s : State) :
    ∀ i ∈ [Instr.deflateStored fin, .deflateFixed fin, .deflateDynamic fin, .deflateReserved fin],
      ∃ body, exec i s = runBlock body fin s := by
  simp only [List.forall_mem_cons]
  exact ⟨⟨storedBlock, rfl⟩, ⟨fixedBlock, rfl⟩, ⟨dynamicBlock, rfl⟩, ⟨reservedBlock, rfl⟩, by simp⟩

/-- Settles O38: every row is one of the two block operations, and both refuse in IDLE. -/
theorem blockRowsNeedACommand : Obligations.BlockRowsNeedACommand := by
  intro s f x fin h
  refine (List.forall_mem_append (l₁ := [_, _, _, _, _, _, _, _, _])).2 ⟨fun i hi => ?bc7, fun i hi => ?deflate⟩
  case bc7 =>
    obtain ⟨ts, hts⟩ := exec_bc7Row f x s i hi
    rw [hts, fillTile_idle h]
  case deflate =>
    obtain ⟨body, hbody⟩ := exec_deflateRow fin s i hi
    rw [hbody, runBlock_idle h]

end Sys2Proof.Machine
end

section
/-! What a step makes of its turn, where the turns come from, and the statements of 10_state that follow at once. -/

namespace Sys2Proof.Machine

/-! ## The decoder on the bytes the machine fetches -/

theorem leNat_leBytes (n v : Nat) : leNat (leBytes n v) = v % 256 ^ n := by
  induction n generalizing v with
  | zero => simp [leBytes, leNat, Nat.mod_one]
  | succ n ih =>
    have hlow : (BitVec.ofNat 8 v).toNat = v % 256 := by simp
    rw [leBytes, leNat, ih, hlow, pow_succ' 256 n, Nat.mod_mul]

/-- A whole `CMD` word is decoded as that word (30_encoding R100). -/
theorem decode_command_leBytes (w : Word) : decode .command (leBytes 4 w.toNat) = decodeCommand w.toNat := by
  have hword : leAt (leBytes 4 w.toNat) 0 4 = w.toNat := by
    have hall : (leBytes 4 w.toNat).take 4 = leBytes 4 w.toNat := List.take_of_length_le (by simp)
    rw [leAt, List.drop_zero, hall, leNat_leBytes]
    exact Nat.mod_eq_of_lt w.isLt
  simp [decode, hword]

/-- Sixteen bytes are a BC7 block, whatever they hold (42_bcd_bc7 R239). -/
theorem decode_bc7Block {bs : List Byte} (h : bs.length = 16) :
    decode .bc7Block bs = .ok (decodeBc7 (leAt bs 0 16)) := by
  simp [decode, h]

/-- Three stream bits are a DEFLATE block header, whatever they hold (30_encoding R117). -/
theorem decode_deflateHeader {v : Nat} (h : v < 2 ^ 3) :
    decode .deflateHeader [BitVec.ofNat 8 v] = .ok (decodeDeflate v) := by
  have hv : leAt [BitVec.ofNat 8 v] 0 1 = v := by
    simp only [leAt, List.drop_zero, List.take_succ_cons, List.take_zero, leNat, BitVec.toNat_ofNat]
    omega
  simp [decode, hv]

/-- A block that is fetched has its `size` bytes (40_bcd_common_bc1 R153). -/
theorem fetchBlock_length {size : Nat} {mm : List Region} {o : Operands} {k : Nat} {m : Memory} {bs : List Byte}
    (h : fetchBlock size mm o k m = .ok bs) : bs.length = size := by
  unfold fetchBlock at h
  split at h
  · cases h
  · obtain ⟨-, rfl⟩ := readBytes_eq_ok.1 h
    simp

/-- `Bits(n)` is an `n`-bit number (45_zpf_inflate R311). -/
theorem streamBits_lt {e : InflateEnv} {n q v : Nat} (h : streamBits e n q = .ok v) : v < 2 ^ n := by
  induction n generalizing q v with
  | zero => cases h; simp
  | succ n ih =>
    obtain ⟨b, hb, h⟩ := bind_eq_ok.1 h
    obtain ⟨rest, hrest, h⟩ := bind_eq_ok.1 h
    obtain ⟨byte, -, hbit⟩ := bind_eq_ok.1 hb
    cases h
    cases hbit
    have hlow : bitAt byte.toNat (q % 8) < 2 := Nat.mod_lt _ (by decide)
    have hhigh := ih hrest
    rw [pow_succ]
    omega

/-! ## A step is what its turn comes to -/

/-- What a step makes of a turn; `step_eq_outcome` ties it to the model. -/
def Turn.outcome : Turn → Host.Outcome State Fault Refusal
  | .fetch fmt bs t =>
    match decode fmt bs with
    | .ok i => exec i t
    | .error e => .next (takeFault (decodeTrap e) t)
  | .goto t => .next t
  | .fault f => .fault f
  | .refuse r => .refused r

theorem step_eq_outcome (s : State) : step s = (nextTurn s).outcome := by
  unfold step
  cases nextTurn s <;> rfl

theorem outcome_fetch {fmt : Format} {bs : List Byte} {i : Instr} (h : decode fmt bs = .ok i) (t : State) :
    (Turn.fetch fmt bs t).outcome = exec i t := by
  simp [Turn.outcome, h]

/-- The pending command has the turn (log 6). -/
theorem nextTurn_cdu {s : State} {p : Pending} (h : cduNext s p) : nextTurn s = cduTurn p s := by
  obtain ⟨hp, hrst, hturn⟩ := h
  cases hq : s.hostIn with
  | nil => simp [nextTurn, hp, hq, hrst]
  | cons act rest =>
    have hleft : p.left = 0 := by simpa [hq] using hturn
    simp [nextTurn, hp, hq, hrst, hleft]

/-- The oldest host access is served (log 6). -/
theorem nextTurn_host {s u : State} {act : HostAct} (h : hostNext s act u) : nextTurn s = hostTurn act u := by
  obtain ⟨rest, hq, ⟨hp, rfl⟩ | ⟨p, hp, hrst, hleft, rfl⟩⟩ := h
  · simp [nextTurn, hp, hq]
  · simp [nextTurn, hp, hq, hleft]

/-- A host access waits in front of the registers, which it finds as they are. -/
theorem hostNext_platform {s u : State} {act : HostAct} (h : hostNext s act u) :
    u.rst = s.rst ∧ u.regBase = s.regBase := by
  obtain ⟨rest, -, ⟨-, rfl⟩ | ⟨p, -, -, -, rfl⟩⟩ := h <;> exact ⟨rfl, rfl⟩

/-- Settles O7: a turn that fetches an instruction comes to its `exec`. -/
theorem stepRunsDecoded : Obligations.StepRunsDecoded := by
  intro s t fmt bs i hturn hdec
  rw [step_eq_outcome, hturn, outcome_fetch hdec]

/-! ## Where instructions are fetched -/

/-- A command that is not run block by block is fetched as its word (10_state R39; log 7). -/
theorem cduTurn_word {s : State} {p : Pending} (hw : p.work = .notBegun) (hb : p.byBlock = false) :
    cduTurn p s = .fetch .command (leBytes 4 p.word.toNat) s := by
  simp [cduTurn, beginTurn, hw, hb]

/-- The word of `BCD.BC7` names its block format (30_encoding R101). -/
theorem blockFormat_bc7Word {p : Pending} (h : p.word = bc7Word) :
    (pendingInstr p >>= blockFormatOf) = some (16, bc7Block) := by
  unfold pendingInstr
  rw [h]
  rfl

/-- Between the tiles of a `BCD.BC7` the next block is fetched (42_bcd_bc7 R220). -/
theorem cduTurn_tile {s : State} {p : Pending} {k : Nat} {bs : List Byte} (hword : p.word = bc7Word)
    (hw : p.work = .bcd k []) (hk : k < tileCount p.ops) (hbs : fetchBlock 16 s.memMap p.ops k s.mem = .ok bs) :
    cduTurn p s = .fetch .bc7Block bs s := by
  have hk' : ¬tileCount p.ops ≤ k := by omega
  simp [cduTurn, hw, blockFormat_bc7Word hword, tileTurn, hk', hbs, hword]

/-- Between the blocks of a stream the next header is fetched (45_zpf_inflate R312). -/
theorem cduTurn_stream {s : State} {p : Pending} {w : InflateWork} {r : Rule} {e : InflateEnv} {v : Nat}
    (hw : p.work = .inflate w) (hlast : w.last = false) (he : streamOf s.memMap s.mem p.word p.ops = some (r, e))
    (hv : streamBits e 3 w.q = .ok v) : cduTurn p s = .fetch .deflateHeader [BitVec.ofNat 8 v] s := by
  simp [cduTurn, hw, he, streamTurn, hlast, hv]

theorem hostTurn_regRead (addr : Nat) (width : BusWidth) (s : State) :
    hostTurn (.regRead addr width) s = regAccess addr width (fun r => .goto (readRegister r s)) s := rfl

theorem hostTurn_regWrite (addr : Nat) (width : BusWidth) (v : Word) (s : State) :
    hostTurn (.regWrite addr width v) s =
      regAccess addr width (fun r => if r = .cmd then writeCmd v s else .goto (writeReg r v s)) s := rfl

/-- `CMD` stands at the base of the register block (10_state R22). -/
theorem regOffset_base (base : Nat) : regOffset base base .w32 = some 0 := by
  simp [regOffset]

/-- A word written to `CMD` outside reset (47_system_commands R404). -/
theorem hostTurn_cmdWrite {s : State} (v : Word) (h : s.rst = false) :
    hostTurn (.regWrite s.regBase .w32 v) s = writeCmd v s := by
  simp [hostTurn_regWrite, regAccess, h, regOffset_base, regAt]

/-- The words of `NOP` and `CLR` written in IDLE are fetched at once (47_system_commands R404). -/
theorem writeCmd_system {s : State} {v : Word} (h : s.phase = .idle) (hv : v = 0 ∨ v = 1) :
    writeCmd v s = .fetch .command (leBytes 4 v.toNat) s := by
  have hidle : busyFlag s = false := by simp [busyFlag, h]
  rw [writeCmd, if_neg (by simp [hidle]), if_pos hv]

/-- The words of `NOP` and `CLR` (30_encoding R101). -/
theorem decodeCommand_system {v : Word} {i : Instr} (h : v = 0 ∧ i = .nop ∨ v = 1 ∧ i = .clr) :
    decodeCommand v.toNat = .ok i := by
  rcases h with ⟨rfl, rfl⟩ | ⟨rfl, rfl⟩ <;> rfl

/-- Settles O8: at each of the four places the turn is a fetch of the bytes that stand there. -/
theorem stepFetchPlaces : Obligations.StepFetchPlaces := by
  refine ⟨fun s p i hn hw hb hi => ?word, fun s p k bs hn hword hw hk hbs => ?tile,
    fun s p w r e v hn hw hlast he hv => ?stream, fun s rest v i hp hrst hq hv => ?host⟩
  case word =>
    rw [step_eq_outcome, nextTurn_cdu hn, cduTurn_word hw hb]
    exact outcome_fetch ((decode_command_leBytes _).trans hi) s
  case tile =>
    rw [step_eq_outcome, nextTurn_cdu hn, cduTurn_tile hword hw hk hbs]
    exact outcome_fetch (decode_bc7Block (fetchBlock_length hbs)) s
  case stream =>
    rw [step_eq_outcome, nextTurn_cdu hn, cduTurn_stream hw hlast he hv]
    exact outcome_fetch (decode_deflateHeader (streamBits_lt hv)) s
  case host =>
    have hnext : nextTurn s = writeCmd v { s with hostIn := rest } := by
      rw [nextTurn_host ⟨rest, hq, .inl ⟨hp, rfl⟩⟩]
      exact hostTurn_cmdWrite (s := { s with hostIn := rest }) v hrst
    rw [step_eq_outcome, hnext, writeCmd_system (s := { s with hostIn := rest }) hp (hv.imp And.left And.left)]
    exact outcome_fetch ((decode_command_leBytes v).trans (decodeCommand_system hv)) _

/-! ## Odd register accesses -/

/-- The accesses the register block does not take (10_state R21). -/
theorem regOffset_eq_none {base addr : Nat} {width : BusWidth}
    (h : width ≠ .w32 ∨ addr < base ∨ base + 256 ≤ addr ∨ (addr - base) % 4 ≠ 0) : regOffset base addr width = none := by
  refine if_neg ?_
  rintro ⟨hw, hlo, hhi, hal⟩
  rcases h with h | h | h | h
  · exact h hw
  · omega
  · omega
  · exact h hal

/-- Settles O19: such an access has no offset, and the block refuses it before it asks what the access is. -/
theorem oddRegisterAccessRefused : Obligations.OddRegisterAccessRefused := by
  intro s u addr width v hact hrst hodd
  have refused : ∀ act, hostNext s act u → (∃ k, hostTurn act u = regAccess addr width k u) →
      step s = .refused (.badRegisterAccess addr) := by
    rintro act hnext ⟨k, hturn⟩
    obtain ⟨hur, hub⟩ := hostNext_platform hnext
    have hnone : regAccess addr width k u = .refuse (.badRegisterAccess addr) := by
      simp [regAccess, hur, hrst, hub, regOffset_eq_none hodd]
    rw [step_eq_outcome, nextTurn_host hnext, hturn, hnone]
    rfl
  rcases hact with hwrite | hread
  · exact refused _ hwrite ⟨_, hostTurn_regWrite addr width v u⟩
  · exact refused _ hread ⟨_, hostTurn_regRead addr width u⟩

end Sys2Proof.Machine
end

section
/-! The bits of `STATUS` and the interrupt output (10_state R24, R44), and the registers after reset (R45). -/

namespace Sys2Proof.Machine

/-! ## The STATUS word -/

/-- The four flags as one number, `BUSY` in bit 0 (10_state R24). -/
def flagBits (b d e o : Bool) : Nat := b.toNat + 2 * d.toNat + 4 * e.toNat + 8 * o.toNat

theorem flagBits_lt (b d e o : Bool) : flagBits b d e o < 2 ^ 8 := by
  revert b d e o
  decide

/-- Below `ECODE` there are the four flags and four 0 bits. -/
theorem flagBits_testBit (b d e o : Bool) :
    (flagBits b d e o).testBit 0 = b ∧ (flagBits b d e o).testBit 1 = d ∧ (flagBits b d e o).testBit 2 = e ∧
      (flagBits b d e o).testBit 3 = o ∧ ∀ i < 8, 4 ≤ i → (flagBits b d e o).testBit i = false := by
  revert b d e o
  decide

/-- `STATUS` is `ECODE` above the byte of flags (10_state R24). -/
theorem statusWord_eq (s : State) :
    statusWord s = BitVec.ofNat 32 (2 ^ 8 * s.ecode.toNat + flagBits (busyFlag s) s.done s.err s.ovr) := by
  rw [statusWord, flagBits]
  congr 1
  omega

theorem statusWord_flag (s : State) {i : Nat} (h : i < 8) :
    (statusWord s).getLsbD i = (flagBits (busyFlag s) s.done s.err s.ovr).testBit i := by
  rw [statusWord_eq, BitVec.getLsbD_ofNat, Nat.testBit_two_pow_mul_add _ (flagBits_lt _ _ _ _), if_pos h,
    decide_eq_true (show i < 32 by omega), Bool.true_and]

/-- From bit 8 on `STATUS` is `ECODE`, also where `ECODE` has no more bits. -/
theorem statusWord_code (s : State) (i : Nat) : (statusWord s).getLsbD (8 + i) = s.ecode.getLsbD i := by
  have hcode : (2 ^ 8 * s.ecode.toNat + flagBits (busyFlag s) s.done s.err s.ovr).testBit (8 + i) =
      s.ecode.getLsbD i := by
    rw [Nat.testBit_two_pow_mul_add _ (flagBits_lt _ _ _ _), if_neg (by omega), Nat.add_sub_cancel_left,
      BitVec.testBit_toNat]
  rw [statusWord_eq, BitVec.getLsbD_ofNat, hcode]
  by_cases hi : i < 8
  · simp [show 8 + i < 32 by omega]
  · simp [BitVec.getLsbD_of_ge s.ecode i (by omega)]

/-- Settles O20: the flags are the low byte, `ECODE` and its missing bits are the rest. -/
theorem statusWordBits : Obligations.StatusWordBits := by
  intro s
  obtain ⟨hbusy, hdone, herr, hovr, hzero⟩ := flagBits_testBit (busyFlag s) s.done s.err s.ovr
  refine ⟨?_, ?_, ?_, ?_, fun i _ => statusWord_code s i, fun i hlo hhi => ?low, fun i hi => ?high⟩
  · rw [statusWord_flag s (by decide), hbusy]
  · rw [statusWord_flag s (by decide), hdone]
  · rw [statusWord_flag s (by decide), herr]
  · rw [statusWord_flag s (by decide), hovr]
  case low => rw [statusWord_flag s hhi, hzero i hhi hlo]
  case high =>
    obtain ⟨j, rfl⟩ := Nat.exists_eq_add_of_le (show 8 ≤ i by omega)
    rw [statusWord_code, BitVec.getLsbD_of_ge s.ecode j (by omega)]

/-- Settles O21: bits 1 and 2 of `STATUS` are the flags that `irq` looks at, and under `rst` both are 0. -/
theorem irqIsALevel : Obligations.IrqIsALevel := by
  intro s hrst
  obtain ⟨-, hdone, herr, -⟩ := statusWordBits s
  rw [hdone, herr, irq]
  cases hr : s.rst with
  | false => simp
  | true =>
    obtain ⟨hd, he⟩ := hrst hr
    simp [hd, he]

/-! ## Reset -/

theorem readReg_reset (r : Reg) : readReg r State.reset = 0 := by
  cases r <;> rfl

/-- Settles O22: `irq` and the phase are read off `State.reset`, each register by `readReg_reset`. -/
theorem resetRegistersZero : Obligations.ResetRegistersZero := ⟨readReg_reset, rfl, rfl⟩

/-- Settles O5: memory is empty, no command is pending and no flag is 1. -/
theorem resetMeetsInvariant : Obligations.ResetMeetsInvariant where
  mem := reset_mem_wf
  flags := by unfold oneFlag; decide
  record := by unfold recordOk; decide
  hardwired := by unfold hardwiredOk; decide
  snapshot := trivial
  work := trivial
  held := by simp [heldOk, busyWindows, State.reset]
  rst := fun h => absurd h (by decide)

end Sys2Proof.Machine
end

section
/-! The invariant of the machine through the operations of a step (10_state R24 to R27, R39). A turn is safe when whatever
it comes to meets the invariant; every operation that a turn is made of is shown safe once, and the step follows. -/

namespace Sys2Proof.Machine

/-! ## States that meet the invariant -/

/-- In IDLE, outside reset, the invariant is what it says of memory, `DONE` and `ERR`, the record and the hardwired bits. -/
theorem Inv.of_idle {t : State} (hp : t.phase = .idle) (hr : t.rst = false) (hm : t.mem.wf)
    (hf : ¬(t.done = true ∧ t.err = true)) (hrec : recordOk t) (hhw : hardwiredOk t) : Inv t where
  mem := hm
  flags := by simpa [oneFlag, busyFlag, hp] using hf
  record := hrec
  hardwired := hhw
  snapshot := by simp [snapshotOk, hp]
  work := by simp [workOk, hp]
  held := by simp [heldOk, busyWindows, hp]
  rst := by simp [resetOk, hr]

theorem Inv.not_done_err {s : State} (h : Inv s) : ¬(s.done = true ∧ s.err = true) := h.flags.2.2

/-- The two commands that take a stream (45_zpf_inflate R328, 44_zpf_filters R291). -/
theorem streamOf_cases {mm : List Region} {m : Memory} {w : Word} {o : Operands} {r : Rule} {e : InflateEnv}
    (h : streamOf mm m w o = some (r, e)) :
    (w = inflateWord ∧ r = inflateRule ∧ e = inflateEnv mm o m) ∨
      (w = unzipWord ∧ r = unzipRule ∧ e = unzipEnv mm o m) := by
  unfold streamOf at h
  split at h
  · next hw => cases h; exact .inl ⟨hw, rfl, rfl⟩
  · split at h
    · next hw => cases h; exact .inr ⟨hw, rfl, rfl⟩
    · cases h

/-- A stream's rule and output limit do not depend on what memory holds. -/
theorem streamOf_mem {mm : List Region} {m : Memory} {w : Word} {o : Operands} {r : Rule} {e : InflateEnv}
    (h : streamOf mm m w o = some (r, e)) (m' : Memory) : streamOf mm m' w o = some (r, { e with mem := m' }) := by
  rcases streamOf_cases h with ⟨rfl, rfl, rfl⟩ | ⟨rfl, rfl, rfl⟩ <;> rfl

/-- The stream of a pending command is read from the memory it is asked for. -/
theorem streamOf_env {mm : List Region} {m : Memory} {w : Word} {o : Operands} {r : Rule} {e : InflateEnv}
    (h : streamOf mm m w o = some (r, e)) : e.mem = m := by
  rcases streamOf_cases h with ⟨-, -, rfl⟩ | ⟨-, -, rfl⟩ <;> rfl

/-- The bytes of memory, the queue and the model's own fields are free, as long as memory is canonical. -/
theorem Inv.platform {s : State} (h : Inv s) {m : Memory} (hm : m.wf) (q : List HostAct) (b : Word) (c : Nat) :
    Inv { s with mem := m, hostIn := q, busData := b, freeCtr := c } :=
  { h with
    mem := hm
    work := by
      have hw := h.work
      unfold workOk at hw ⊢
      cases hp : s.phase with
      | idle => trivial
      | busy p =>
        simp only [hp] at hw ⊢
        cases hk : p.work with
        | notBegun => trivial
        | bcd k tile => simpa only [hk] using hw
        | inflate w =>
          simp only [hk] at hw ⊢
          obtain ⟨r, e, hs, hc, hl⟩ := hw
          exact ⟨r, _, streamOf_mem hs m, hc, hl⟩ }

theorem Inv.withMem {s : State} (h : Inv s) {m : Memory} (hm : m.wf) : Inv { s with mem := m } :=
  h.platform hm s.hostIn s.busData s.freeCtr

/-! ### Under a pending command -/

section Pending

variable {s : State} {p : Pending} (h : Inv s) (hp : s.phase = .busy p)

include h hp

theorem Inv.busy_flags : s.done = false ∧ s.err = false := by
  obtain ⟨hdone, herr, -⟩ := h.flags
  simpa [busyFlag, hp] using And.intro hdone herr

/-- No command is pending while `rst` is asserted (70_reset_and_hazards R471). -/
theorem Inv.busy_rst : s.rst = false := by
  cases hr : s.rst with
  | false => rfl
  | true =>
    obtain ⟨hidle, -⟩ := h.rst hr
    rw [hp] at hidle
    cases hidle

theorem Inv.busy_snapshot : p.ops = s.regs ∧ acceptable p.word := by
  simpa only [snapshotOk, hp] using h.snapshot

/-- The pending command may be carried on under its word and its snapshot, as far as its new working state is in order. -/
theorem Inv.setPending {p' : Pending} (hword : p'.word = p.word) (hops : p'.ops = p.ops)
    (hw : workOk { s with phase := .busy p' }) : Inv { s with phase := .busy p' } := by
  obtain ⟨hdone, herr⟩ := h.busy_flags hp
  obtain ⟨hsnap, hacc⟩ := h.busy_snapshot hp
  have hwin : pendingWindows p' = pendingWindows p := by
    simp only [pendingWindows, pendingRule, pendingInstr, hword, hops]
  exact
    { mem := h.mem
      flags := by simp [oneFlag, hdone, herr]
      record := h.record
      hardwired := h.hardwired
      snapshot := ⟨hops.trans hsnap, hword ▸ hacc⟩
      work := hw
      held := by simpa only [heldOk, busyWindows, hp, hwin] using h.held
      rst := fun hr => by simp [h.busy_rst hp] at hr }

end Pending

/-! ## How a command ends -/

/-- Every fault has a code of 60_exceptions R421. -/
theorem trapCode_range (t : Trap) : 1 ≤ (trapCode t).toNat ∧ (trapCode t).toNat ≤ 9 := by
  cases t <;> simp [trapCode]

theorem Inv.havoc {s : State} (h : Inv s) (rs : List Range) : Inv (havoc rs s) := by
  cases rs with
  | nil => exact h
  | cons r rs => exact h.platform (fillFreeRanges_wf h.mem) s.hostIn s.busData (s.freeCtr + 1)

/-- Fault entry of a pending command (60_exceptions R430). -/
theorem Inv.takeFault {s : State} {p : Pending} (h : Inv s) (hp : s.phase = .busy p) (t : Trap) :
    Inv (takeFault t s) := by
  obtain ⟨hdone, -⟩ := h.busy_flags hp
  obtain ⟨hlo, hhi⟩ := trapCode_range t
  exact .of_idle rfl (h.busy_rst hp) h.mem (by simp [hdone]) ⟨fun _ => ⟨hlo, hhi, rfl, rfl⟩, by simp⟩ h.hardwired

theorem Inv.faultRunning {s : State} {p : Pending} (h : Inv s) (hp : s.phase = .busy p) (r : Rule) (o : Operands)
    (t : Trap) : Inv (faultRunning r o t s) :=
  (h.havoc (r.outputs o)).takeFault (p := p) (by simp [hp]) t

/-- Completion of a pending command (10_state R39). -/
theorem Inv.finishCommand {s : State} {p : Pending} (h : Inv s) (hp : s.phase = .busy p) (r : Rule) (o : Operands)
    {f : Finished} (hf : f.mem.wf) : Inv (finishCommand r o f s) := by
  obtain ⟨-, herr⟩ := h.busy_flags hp
  have hrecord : recordOk (complete o f s) := ⟨by simp [herr], fun he => h.record.2 he⟩
  have hcomplete : Inv (complete o f s) :=
    .of_idle rfl (h.busy_rst hp) hf (by simp [herr]) hrecord h.hardwired
  exact hcomplete.havoc (r.scratch o)

/-- The whole run of a pending command. -/
theorem Inv.endCommand {s : State} {p : Pending} (h : Inv s) (hp : s.phase = .busy p) {r : Rule} (hr : r.KeepsMemory)
    (o : Operands) : Inv (endCommand r o s) := by
  rcases endCommand_cases r o s with ⟨t, -, he⟩ | ⟨t, -, he⟩ | ⟨f, -, hrun, he⟩ <;> rw [he]
  · exact h.takeFault hp t
  · exact h.faultRunning hp r o t
  · exact h.finishCommand hp r o (hr _ _ _ _ hrun h.mem)

/-! ## Safe turns -/

/-- Whatever the step makes of the turn meets the invariant. -/
def Turn.Safe (x : Turn) : Prop := ∀ t, x.outcome = .next t → Inv t

theorem Turn.safe_goto {t : State} (h : Inv t) : (Turn.goto t).Safe := by
  rintro _ ⟨⟩
  exact h

theorem Turn.safe_fault (f : Fault) : (Turn.fault f).Safe := by rintro _ ⟨⟩

theorem Turn.safe_refuse (r : Refusal) : (Turn.refuse r).Safe := by rintro _ ⟨⟩

theorem Turn.safe_fetch {fmt : Format} {bs : List Byte} {i : Instr} {t u : State} (hdec : decode fmt bs = .ok i)
    (hexec : exec i t = .next u) (h : Inv u) : (Turn.fetch fmt bs t).Safe := by
  intro u' hu
  rw [outcome_fetch hdec, hexec] at hu
  cases hu
  exact h

/-! ## Host accesses -/

/-- A dropped write shows only in `OVR` (10_state R38). -/
theorem Inv.dropWrite {s : State} (h : Inv s) (hr : s.rst = false) : Inv (dropWrite s) :=
  { h with rst := fun hr' => by simp [hr] at hr' }

/-- The hardwired bits of `MODE` stay 0 (10_state R27). -/
theorem writeOperand_mode {r : Reg} {v : Word} {o o' : Operands} (h : writeOperand r v o = some o')
    (ho : o.mode &&& modeMask = o.mode) : o'.mode &&& modeMask = o'.mode := by
  cases r <;> cases h
  case mode => rw [BitVec.and_assoc, BitVec.and_self]
  all_goals exact ho

/-- All that a host write to a register other than `CMD` can do (47_system_commands R403). -/
theorem writeReg_cases (r : Reg) (v : Word) (s : State) :
    writeReg r v s = { s with irqEn := v &&& irqEnMask } ∨ writeReg r v s = s ∨ writeReg r v s = dropWrite s ∨
      ∃ o, writeOperand r v s.regs = some o ∧ busyFlag s = false ∧ writeReg r v s = { s with regs := o } := by
  unfold writeReg
  split
  · exact .inl rfl
  · split
    · exact .inr (.inl rfl)
    · next o ho =>
      cases hb : busyFlag s with
      | true => exact .inr (.inr (.inl rfl))
      | false => exact .inr (.inr (.inr ⟨o, ho, rfl, rfl⟩))

theorem phase_of_not_busy {s : State} (h : busyFlag s = false) : s.phase = .idle := by
  unfold busyFlag at h
  split at h
  · assumption
  · cases h

theorem Inv.writeReg {s : State} (h : Inv s) (hr : s.rst = false) (r : Reg) (v : Word) : Inv (writeReg r v s) := by
  rcases writeReg_cases r v s with he | he | he | ⟨o, ho, hb, he⟩ <;> rw [he]
  · obtain ⟨hmode, -⟩ := h.hardwired
    exact
      { h with
        hardwired := ⟨hmode, by rw [BitVec.and_assoc, BitVec.and_self]⟩
        rst := fun hr' => by simp [hr] at hr' }
  · exact h
  · exact h.dropWrite hr
  · obtain ⟨hmode, hirq⟩ := h.hardwired
    exact .of_idle (phase_of_not_busy hb) hr h.mem h.not_done_err h.record ⟨writeOperand_mode ho hmode, hirq⟩

/-- A register read moves no register; at most it gives windows back that no pending command has. -/
theorem Inv.readRegister {s : State} (h : Inv s) (hr : s.rst = false) (r : Reg) : Inv (readRegister r s) :=
  { h with
    held := by
      intro x hx
      rw [readRegister_held]
      split
      · next hidle =>
        have hp := phase_of_not_busy hidle.2
        simp [busyWindows, hp] at hx
      · exact h.held x hx
    rst := fun hr' => by simp [hr] at hr' }

/-- `CLR` in IDLE (60_exceptions R436). -/
theorem Inv.acknowledge {s : State} (h : Inv s) (hp : s.phase = .idle) (hr : s.rst = false) : Inv (acknowledge s) :=
  .of_idle hp hr h.mem (by simp) ⟨by simp, fun _ => ⟨rfl, rfl⟩⟩ h.hardwired

/-- Acceptance (47_system_commands R404): the snapshot is taken and the windows are held. -/
theorem Inv.acceptCommand {s : State} (h : Inv s) (hr : s.rst = false) (he : s.err = false) {v : Word}
    (hv : acceptable v) : Inv (holdWindows (acceptCommand v s)) where
  mem := h.mem
  flags := by simp [oneFlag, he]
  record := h.record
  hardwired := h.hardwired
  snapshot := ⟨rfl, hv⟩
  work := trivial
  held := fun _ hx => List.mem_append_left _ hx
  rst := fun hr' => by simp [hr] at hr'

theorem writeCmd_safe {s : State} (h : Inv s) (hr : s.rst = false) (v : Word) : (writeCmd v s).Safe := by
  cases hb : busyFlag s with
  | true =>
    rw [writeCmd, if_pos hb]
    exact Turn.safe_goto (h.dropWrite hr)
  | false =>
    have hp := phase_of_not_busy hb
    by_cases hv : v = 0 ∨ v = 1
    · rw [writeCmd_system hp hv]
      rcases hv with rfl | rfl
      · have hnop : exec .nop s = .next s := by simp [exec, execNop, hp]
        exact Turn.safe_fetch (i := .nop) rfl hnop h
      · have hclr : exec .clr s = .next (acknowledge s) := by simp [exec, execClr, hp]
        exact Turn.safe_fetch (i := .clr) rfl hclr (h.acknowledge hp hr)
    · rw [writeCmd, if_neg (by simp [hb]), if_neg hv]
      split
      · exact Turn.safe_goto (h.dropWrite hr)
      · next he => exact Turn.safe_goto (h.acceptCommand hr (by simpa using he) (not_or.1 hv))

/-- A register access is safe when what the block does with it is, outside reset. -/
theorem regAccess_safe {s : State} {k : Reg → Turn} (hk : s.rst = false → ∀ r, (k r).Safe) (addr : Nat)
    (width : BusWidth) : (regAccess addr width k s).Safe := by
  unfold regAccess
  split
  · exact Turn.safe_refuse _
  · next hr =>
    split
    · exact Turn.safe_refuse _
    · exact hk (by simpa using hr) _

theorem hostMemRead_safe {s : State} (h : Inv s) (a : Nat) : (hostMemRead a s).Safe := by
  unfold hostMemRead
  split
  · split
    · exact Turn.safe_goto (h.platform h.mem s.hostIn _ _)
    · exact Turn.safe_goto (h.platform h.mem s.hostIn _ s.freeCtr)
  · exact Turn.safe_fault _

theorem hostMemWrite_safe {s : State} (h : Inv s) (a : Nat) (b : Byte) : (hostMemWrite a b s).Safe := by
  rcases hostMemWrite_cases a b s with ⟨-, he⟩ | ⟨-, -, he⟩ | ⟨hv, -, he⟩ <;> rw [he]
  · exact Turn.safe_fault _
  · exact Turn.safe_refuse _
  · exact Turn.safe_goto (h.withMem (memPut_wf _ a b h.mem (lt_of_memValid hv)))

/-- `rst` asserted gives the registers, the flags and the phase of reset over a canonical memory (R471, R473). -/
theorem Inv.assertReset {s : State} (h : Inv s) : Inv (assertReset s) :=
  { resetMeetsInvariant with
    mem := havoc_wf h.mem
    rst := fun _ => ⟨rfl, rfl, rfl, rfl, readReg_reset⟩ }

theorem Inv.releaseReset {s : State} (h : Inv s) : Inv { s with rst := false } :=
  { h with rst := fun hr => by simp at hr }

/-- Whatever the outside world does. -/
theorem hostTurn_safe {s : State} (h : Inv s) (act : HostAct) : (hostTurn act s).Safe := by
  cases act with
  | regRead addr width =>
    rw [hostTurn_regRead]
    exact regAccess_safe (fun hr r => Turn.safe_goto (h.readRegister hr r)) addr width
  | regWrite addr width v =>
    rw [hostTurn_regWrite]
    refine regAccess_safe (fun hr r => ?_) addr width
    split
    · exact writeCmd_safe h hr v
    · exact Turn.safe_goto (h.writeReg hr r v)
  | memRead a => exact hostMemRead_safe h a
  | memWrite a b => exact hostMemWrite_safe h a b
  | assertRst => exact Turn.safe_goto h.assertReset
  | releaseRst => exact Turn.safe_goto h.releaseReset

end Sys2Proof.Machine
end

section
/-! The pending command's own turn keeps the invariant (10_state R39, R43), and with it every step does. -/

namespace Sys2Proof.Machine

/-! ## What the pending command's instructions do -/

/-- Every command but `NOP` and `CLR` has a rule (30_encoding R101). -/
theorem ruleOf_of_decodeCommand {w : Nat} {i : Instr} (h : decodeCommand w = .ok i) (h0 : w ≠ 0) (h1 : w ≠ 1) :
    ∃ r, ruleOf i = some r := by
  unfold decodeCommand at h
  split at h
  · next row hrow =>
    cases h
    have hw : row.1 = w := by simpa using List.find?_some hrow
    have hall : ∀ row ∈ commandTable, row.1 = 0 ∨ row.1 = 1 ∨ (ruleOf row.2).isSome = true := by
      simp [commandTable, ruleOf]
    rcases hall row (List.mem_of_find?_eq_some hrow) with hz | ho | hr
    · exact absurd (hw.symm.trans hz) h0
    · exact absurd (hw.symm.trans ho) h1
    · exact Option.isSome_iff_exists.1 hr
  · cases h

/-- Every BC7 block is sixteen texels for the tile buffer (42_bcd_bc7 R237, R239). -/
theorem exec_decodeBc7 (v : Nat) (s : State) :
    ∃ ts : List Texel, ts.length = 16 ∧ exec (decodeBc7 v) s = fillTile ts s := by
  unfold decodeBc7
  split
  · next m _ =>
    unfold bc7Instr
    split <;> exact ⟨_, bc7Texels_length _ _, rfl⟩
  · exact ⟨_, bc7ReservedTexels_length, rfl⟩

/-- Every DEFLATE header runs one block with a body of R312. -/
theorem exec_decodeDeflate (v : Nat) (s : State) :
    ∃ btype fin, exec (decodeDeflate v) s = runBlock (blockBody btype) fin s := by
  unfold decodeDeflate
  simp only
  split
  · exact ⟨0, bitAt v 0 == 1, rfl⟩
  · exact ⟨1, bitAt v 0 == 1, rfl⟩
  · exact ⟨2, bitAt v 0 == 1, rfl⟩
  · exact ⟨3, bitAt v 0 == 1, rfl⟩

/-- Every block function of a BCD command gives sixteen texels (40_bcd_common_bc1 R153). -/
theorem block_length {p : Pending} {size : Nat} {block : List Byte → List Texel}
    (h : (pendingInstr p >>= blockFormatOf) = some (size, block)) (bs : List Byte) : (block bs).length = 16 := by
  obtain ⟨i, -, hi⟩ := Option.bind_eq_some_iff.1 h
  cases i <;> cases hi
  case bcdBc1 => exact bc1Block_length bs
  case bcdBc3 => exact bc3Block_length bs
  case bcdBc4 => exact bc4Block_length bs
  case bcdBc5 => exact bc5Block_length bs
  case bcdBc7 => exact bc7Block_length bs

theorem fillTile_busy {s : State} {p : Pending} {k : Nat} {tile : List Texel} (hp : s.phase = .busy p)
    (hw : p.work = .bcd k tile) (hword : p.word = bc7Word) (ts : List Texel) :
    fillTile ts s = .next (setWork p (.bcd k ts) s) := by
  simp [fillTile, hp, hw, hword, setWork]

/-- All that one block of a pending stream can do (45_zpf_inflate R312): its fault ends the command, or its bytes are
stored and the working state advances. -/
theorem runBlock_cases {s : State} {p : Pending} {w : InflateWork} {r : Rule} {e : InflateEnv}
    (hp : s.phase = .busy p) (hw : p.work = .inflate w) (he : streamOf s.memMap s.mem p.word p.ops = some (r, e))
    (body : InflateEnv → Inf → Except Trap Inf) (fin : Bool) :
    (∃ t, runBlock body fin s = .next (faultRunning r p.ops t s)) ∨
    (∃ st m, body e (blockStart e w) = .ok st ∧
      storeBytes e.mm e.mem (e.outBase + w.len) (newBytes w st) = .ok m ∧
      runBlock body fin s = .next (setWork p (.inflate (blockWork fin w st)) { s with mem := m })) := by
  unfold runBlock
  simp only [hp, hw, he]
  split
  · next s' hs =>
    obtain ⟨st, hst, hs⟩ := bind_eq_ok.1 hs
    obtain ⟨m, hm, hs⟩ := bind_eq_ok.1 hs
    cases hs
    exact .inr ⟨st, m, hst, hm, rfl⟩
  · exact .inl ⟨_, rfl⟩

/-- A decoder that only appends stays inside an output limit that held before (45_zpf_inflate R331). -/
theorem Appends.len_le {e : InflateEnv} {st st' : Inf} (h : Appends e st st') (hl : st.len ≤ e.limit) :
    st'.len ≤ e.limit := by
  obtain ⟨new, -, hlen, hbound, -⟩ := h
  cases new with
  | nil => simpa [hlen] using hl
  | cons b bs => exact hbound (by simp)

/-- What a start fault leaves, and what its absence says (60_exceptions R433). -/
theorem startFault_cases (r : Rule) (o : Operands) (s : State) :
    (∃ t, startFault r o s = some (takeFault t s)) ∨ (∃ t, startFault r o s = some (faultRunning r o t s)) ∨
      (startFault r o s = none ∧ r.check o = none) := by
  unfold startFault
  cases hc : r.check o with
  | some t => exact .inl ⟨t, rfl⟩
  | none =>
    cases busChoice r o s with
    | some a => exact .inr (.inl ⟨_, rfl⟩)
    | none => exact .inr (.inr ⟨rfl, rfl⟩)

/-! ## The pending command's turn -/

section Turns

variable {s : State} {p : Pending} (h : Inv s) (hp : s.phase = .busy p)

include h hp

/-- The working state advances, over a memory that may have been written. -/
theorem Inv.setWork {m : Memory} (hm : m.wf) {w : Work}
    (hw : workOk (setWork p w { s with mem := m })) : Inv (setWork p w { s with mem := m }) :=
  (h.withMem hm).setPending hp rfl rfl hw

/-- The invariant's account of a tile cursor. -/
theorem Inv.busy_tiles {k : Nat} {tile : List Texel} (hw : p.work = .bcd k tile) :
    bcdCheck p.ops = none ∧ ∃ size block, (pendingInstr p >>= blockFormatOf) = some (size, block) := by
  have hwork := h.work
  simp only [workOk, hp, hw] at hwork
  exact hwork.2

/-- The invariant's account of a stream between blocks. -/
theorem Inv.busy_stream {w : InflateWork} (hw : p.work = .inflate w) {r : Rule} {e : InflateEnv}
    (he : streamOf s.memMap s.mem p.word p.ops = some (r, e)) : r.check p.ops = none ∧ w.len ≤ e.limit := by
  have hwork := h.work
  simp only [workOk, hp, hw, he] at hwork
  obtain ⟨r', e', heq, hcheck, hlen⟩ := hwork
  cases heq
  exact ⟨hcheck, hlen⟩

/-- Moving the tile cursor or filling the tile buffer. -/
theorem Inv.setTile {m : Memory} (hm : m.wf) (k : Nat) {tile : List Texel} (ht : tile = [] ∨ tile.length = 16)
    (hc : bcdCheck p.ops = none) {size : Nat} {block : List Byte → List Texel}
    (hb : (pendingInstr p >>= blockFormatOf) = some (size, block)) :
    Inv (Machine.setWork p (.bcd k tile) { s with mem := m }) :=
  h.setWork hp hm ⟨ht, hc, size, block, hb⟩

/-- Moving a stream on, inside its output limit. -/
theorem Inv.setStream {m : Memory} (hm : m.wf) {w : InflateWork} {r : Rule} {e : InflateEnv}
    (he : streamOf s.memMap s.mem p.word p.ops = some (r, e)) (hc : r.check p.ops = none) (hl : w.len ≤ e.limit) :
    Inv (Machine.setWork p (.inflate w) { s with mem := m }) :=
  h.setWork hp hm ⟨r, _, streamOf_mem he m, hc, hl⟩

/-- The pending word is run whole, or is no command (60_exceptions R422). -/
theorem fetchWord_safe : (Turn.fetch .command (leBytes 4 p.word.toNat) s).Safe := by
  obtain ⟨-, hne0, hne1⟩ := h.busy_snapshot hp
  cases hdec : decodeCommand p.word.toNat with
  | ok i =>
    have hw0 : p.word.toNat ≠ 0 := fun hw => hne0 (BitVec.eq_of_toNat_eq hw)
    have hw1 : p.word.toNat ≠ 1 := fun hw => hne1 (BitVec.eq_of_toNat_eq hw)
    obtain ⟨r, hr⟩ := ruleOf_of_decodeCommand hdec hw0 hw1
    exact Turn.safe_fetch ((decode_command_leBytes _).trans hdec) ((exec_ruleOf hr s).trans (runRule_busy hp))
      (h.endCommand hp (ruleOf_keepsMemory hr) p.ops)
  | error err =>
    intro t ht
    simp only [Turn.outcome, decode_command_leBytes, hdec] at ht
    cases ht
    exact h.takeFault hp _

/-- A fetched BC7 block fills the tile buffer. -/
theorem fetchTile_safe {k : Nat} {tile : List Texel} (hw : p.work = .bcd k tile) (hword : p.word = bc7Word)
    {bs : List Byte} (hbs : bs.length = 16) : (Turn.fetch .bc7Block bs s).Safe := by
  obtain ⟨hcheck, size, block, hblock⟩ := h.busy_tiles hp hw
  obtain ⟨ts, hlen, hexec⟩ := exec_decodeBc7 (leAt bs 0 16) s
  exact Turn.safe_fetch (decode_bc7Block hbs) (hexec.trans (fillTile_busy hp hw hword ts))
    (h.setTile hp h.mem k (.inr hlen) hcheck hblock)

/-- A fetched DEFLATE header runs one block. -/
theorem fetchHeader_safe {w : InflateWork} (hw : p.work = .inflate w) {r : Rule} {e : InflateEnv}
    (he : streamOf s.memMap s.mem p.word p.ops = some (r, e)) {v : Nat} (hv : v < 2 ^ 3) :
    (Turn.fetch .deflateHeader [BitVec.ofNat 8 v] s).Safe := by
  obtain ⟨hcheck, hlen⟩ := h.busy_stream hp hw he
  obtain ⟨btype, fin, hexec⟩ := exec_decodeDeflate v s
  rcases runBlock_cases hp hw he (blockBody btype) fin with ⟨t, hrun⟩ | ⟨st, m, hbody, hstore, hrun⟩
  · exact Turn.safe_fetch (decode_deflateHeader hv) (hexec.trans hrun) (h.faultRunning hp r p.ops t)
  · have hst : st.len ≤ e.limit := (blockBody_appends hbody).len_le hlen
    have hm : m.wf := storeBytes_wf hstore (streamOf_env he ▸ h.mem)
    exact Turn.safe_fetch (decode_deflateHeader hv) (hexec.trans hrun) (h.setStream hp hm he hcheck hst)

/-- The start of a command that runs tile by tile. -/
theorem Inv.beginTiles {size : Nat} {block : List Byte → List Texel}
    (hb : (pendingInstr p >>= blockFormatOf) = some (size, block)) : Inv (beginTiles (bcdRule block size) p s) := by
  unfold Machine.beginTiles
  rcases startFault_cases (bcdRule block size) p.ops s with ⟨t, hs⟩ | ⟨t, hs⟩ | ⟨hs, hcheck⟩ <;> simp only [hs]
  · exact h.takeFault hp t
  · exact h.faultRunning hp _ p.ops t
  · exact h.setTile hp h.mem 0 (.inl rfl) hcheck hb

/-- The start of a command that runs block by block. -/
theorem Inv.beginStream {r : Rule} {e : InflateEnv} (he : streamOf s.memMap s.mem p.word p.ops = some (r, e)) :
    Inv (beginStream r e p s) := by
  unfold Machine.beginStream
  rcases startFault_cases r p.ops s with ⟨t, hs⟩ | ⟨t, hs⟩ | ⟨hs, hcheck⟩ <;> simp only [hs]
  · exact h.takeFault hp t
  · exact h.faultRunning hp r p.ops t
  · split
    · exact h.faultRunning hp r p.ops _
    · exact h.setStream hp h.mem he hcheck (Nat.zero_le _)

theorem beginTurn_safe : (beginTurn p s).Safe := by
  unfold beginTurn
  simp only
  split
  · split
    · next he => exact Turn.safe_goto (h.beginStream hp he)
    · split
      · next hb => exact Turn.safe_goto (h.beginTiles hp hb)
      · exact fetchWord_safe h hp
  · exact fetchWord_safe h hp

theorem tileTurn_safe {k : Nat} {tile : List Texel} (hw : p.work = .bcd k tile) {size : Nat}
    {block : List Byte → List Texel} (hb : (pendingInstr p >>= blockFormatOf) = some (size, block)) :
    (tileTurn block size p k tile s).Safe := by
  obtain ⟨hcheck, -⟩ := h.busy_tiles hp hw
  unfold tileTurn
  simp only
  split
  · exact Turn.safe_goto (h.finishCommand hp _ p.ops h.mem)
  · split
    · split
      · exact Turn.safe_goto (h.faultRunning hp _ p.ops _)
      · next bs hbs =>
        split
        · next hword =>
          have hsize : size = 16 := by
            rw [blockFormat_bc7Word hword] at hb
            cases hb
            rfl
          exact fetchTile_safe h hp hw hword ((fetchBlock_length hbs).trans hsize)
        · exact Turn.safe_goto (h.setTile hp h.mem k (.inr (block_length hb bs)) hcheck hb)
    · split
      · exact Turn.safe_goto (h.faultRunning hp _ p.ops _)
      · next m hm => exact Turn.safe_goto (h.setTile hp (storeTile_wf hm h.mem) (k + 1) (.inl rfl) hcheck hb)

/-- The end of a stream: the memory that completion leaves is canonical. -/
theorem Inv.endStream (r : Rule) (e : InflateEnv) (w : InflateWork) : Inv (endStream r e p w s) := by
  unfold Machine.endStream
  simp only
  split
  · exact h.faultRunning hp r p.ops _
  · next m hm =>
    obtain ⟨-, -, hm⟩ := bind_eq_ok.1 hm
    refine h.finishCommand hp r p.ops (f := inflateFinished _ _ m) ?_
    split at hm
    · exact storeBytes_wf hm h.mem
    · cases hm; exact h.mem

theorem streamTurn_safe {w : InflateWork} (hw : p.work = .inflate w) {r : Rule} {e : InflateEnv}
    (he : streamOf s.memMap s.mem p.word p.ops = some (r, e)) : (streamTurn r e p w s).Safe := by
  unfold streamTurn
  split
  · exact Turn.safe_goto (h.endStream hp r e w)
  · split
    · exact Turn.safe_goto (h.faultRunning hp r p.ops _)
    · next v hv => exact fetchHeader_safe h hp hw he (streamBits_lt hv)

theorem cduTurn_safe : (cduTurn p s).Safe := by
  have hstray : (strayWork p s).Safe := Turn.safe_goto (h.takeFault hp _)
  unfold cduTurn
  split
  · exact beginTurn_safe h hp
  · next k tile hw =>
    split
    · next hb => exact tileTurn_safe h hp hw hb
    · exact hstray
  · next w hw =>
    split
    · next he => exact streamTurn_safe h hp hw he
    · exact hstray

end Turns

/-! ## Every step -/

/-- A served access brings the pending command's turn nearer and touches nothing else of it (log 6). -/
theorem Inv.countDown {s : State} {p : Pending} (h : Inv s) (hp : s.phase = .busy p) (q : List HostAct) :
    Inv { s with hostIn := q, phase := .busy { p with left := p.left - 1 } } :=
  (h.platform h.mem q s.busData s.freeCtr).setPending hp rfl rfl
    (by
      have hwork := h.work
      simp only [workOk, hp] at hwork ⊢
      exact hwork)

theorem nextTurn_safe {s : State} (h : Inv s) : (nextTurn s).Safe := by
  unfold nextTurn
  split
  · exact Turn.safe_goto h
  · next act rest _ _ => exact hostTurn_safe (h.platform h.mem rest s.busData s.freeCtr) act
  · next p hp _ =>
    rw [if_neg (by simp [h.busy_rst hp])]
    exact cduTurn_safe h hp
  · next p act rest hp _ =>
    split
    · exact hostTurn_safe (h.countDown hp rest) act
    · exact cduTurn_safe h hp

/-- Settles O6: a step is the outcome of its turn, and every turn is safe. -/
theorem stepKeepsInvariant : Obligations.StepKeepsInvariant := by
  intro s t h hstep
  exact nextTurn_safe h t ((step_eq_outcome s).symm.trans hstep)

end Sys2Proof.Machine
end

section
/-! The overlap test (20_memory R80) in terms of byte addresses. -/

namespace Sys2Proof.Machine

theorem inRange_iff {x : Range} {a : Nat} : inRange x a = true ↔ x.base ≤ a ∧ a < x.base + x.len := by
  simp [inRange]

/-- Two ranges overlap exactly when they share a byte; the larger of the two bases is one they share. -/
theorem rangesOverlap_iff {x y : Range} :
    rangesOverlap x y = true ↔ ∃ a, inRange x a = true ∧ inRange y a = true := by
  simp only [rangesOverlap, Bool.and_eq_true, decide_eq_true_eq, inRange_iff]
  constructor
  · rintro ⟨⟨⟨hx, hy⟩, hxy⟩, hyx⟩
    exact ⟨max x.base y.base, by omega, by omega⟩
  · rintro ⟨a, ha⟩
    omega

/-- The overlap test of two windows. -/
theorem anyOverlap_pair (x y : Range) : anyOverlap [x, y] = rangesOverlap x y := by
  simp [anyOverlap]

/-- The overlap test of three windows is that of its three pairs. -/
theorem anyOverlap_triple (x y z : Range) :
    anyOverlap [x, y, z] = (rangesOverlap x y || rangesOverlap x z || rangesOverlap y z) := by
  simp [anyOverlap]

/-- Settles O25: each pair of windows shares the larger of its two bases, or nothing. -/
theorem overlapMeansSharedByte : Obligations.OverlapMeansSharedByte := by
  refine ⟨fun x y => ?_, fun x y z => ?_⟩
  · rw [anyOverlap_pair, rangesOverlap_iff]
  · simp only [anyOverlap_triple, Bool.or_eq_true, rangesOverlap_iff, ← exists_or, or_assoc]

end Sys2Proof.Machine
end

section
/-! A pending command's own steps write only inside the ranges it is entitled to (20_memory R77, R85; 60_exceptions R429,
R435). The runs of the rules come first, then the operations that end a command, then the turns. -/

namespace Sys2Proof.Machine

/-! ## What the run of a rule writes -/

/-- An address outside all the ranges is outside each. -/
theorem outside_of_mem {rs : List Range} {a : Nat} (h : rs.any (inRange · a) = false) {x : Range} (hx : x ∈ rs) :
    ¬(x.base ≤ a ∧ a < x.base + x.len) := by
  rw [← inRange_iff]
  exact List.any_eq_false.1 h x hx

/-- The rule writes only where it is entitled to, and what completion leaves unspecified is part of that
(60_exceptions R429). -/
structure Rule.Confined (r : Rule) : Prop where
  run : ∀ mm o m f, r.run mm o m = .ok f → ∀ a, (r.outputs o).any (inRange · a) = false →
    memGet f.mem a = memGet m a
  scratch : ∀ o, ∀ x ∈ r.scratch o, x ∈ r.outputs o

/-- A string stored inside an entitled range leaves every byte outside the entitled ranges alone. -/
theorem storeBytes_outside {mm : List Region} {m m' : Memory} {b : Nat} {bs : List Byte}
    (h : storeBytes mm m b bs = .ok m') {rs : List Range} {x : Range} (hx : x ∈ rs) (hlo : x.base ≤ b)
    (hhi : b + bs.length ≤ x.base + x.len) {a : Nat} (ha : rs.any (inRange · a) = false) :
    memGet m' a = memGet m a :=
  storeBytes_frame h (by have := outside_of_mem ha hx; omega)

/-- A texel inside the plane lies between `DST_BASE` and the end of the plane's extent (40_bcd_common_bc1 R152, R155). -/
theorem texelAddr_in_extent {o : Operands} {x y : Nat} (hx : x < planeWidth o) (hy : y < planeHeight o) :
    o.dstBase.toNat ≤ texelAddr o x y ∧ texelAddr o x y + 4 ≤ o.dstBase.toNat + planeExtent o := by
  have hplane : planeW o > 0 ∧ planeH o > 0 := by
    unfold planeWidth at hx
    unfold planeHeight at hy
    omega
  have hrow : y * o.dstStride.toNat ≤ (planeHeight o - 1) * o.dstStride.toNat :=
    Nat.mul_le_mul_right _ (by omega)
  rw [texelAddr, planeExtent, if_pos hplane]
  omega

/-- A stored tile stays inside the plane's extent. -/
theorem storeTile_outside {mm : List Region} {o : Operands} {k i : Nat} {ts : List Texel} {m m' : Memory}
    (h : storeTile mm o k i ts m = .ok m') {a : Nat}
    (ha : ¬(o.dstBase.toNat ≤ a ∧ a < o.dstBase.toNat + planeExtent o)) : memGet m' a = memGet m a :=
  storeTile_frame h fun _ _ _ hx hy => by
    have := texelAddr_in_extent hx hy
    omega

theorem bcdLoop_outside {block : List Byte → List Texel} {size n k : Nat} {mm : List Region} {o : Operands}
    {m m' : Memory} (h : bcdLoop block size mm o n k m = .ok m') {a : Nat}
    (ha : ¬(o.dstBase.toNat ≤ a ∧ a < o.dstBase.toNat + planeExtent o)) : memGet m' a = memGet m a := by
  induction n generalizing k m with
  | zero => cases h; rfl
  | succ n ih =>
    obtain ⟨m1, htile, hrest⟩ := bind_eq_ok.1 h
    obtain ⟨bs, -, hstore⟩ := bind_eq_ok.1 htile
    rw [ih hrest, storeTile_outside hstore ha]

theorem bcdRule_confined (block : List Byte → List Texel) (size : Nat) : (bcdRule block size).Confined where
  run mm o m f h a ha := by
    obtain ⟨m', hloop, rfl⟩ := map_eq_ok.1 h
    exact bcdLoop_outside hloop (outside_of_mem ha (List.mem_singleton.2 rfl))
  scratch _ _ hx := nomatch hx

theorem unsupportedRule_confined (op : Nat) : (unsupportedRule op).Confined where
  run _ _ _ _ h := nomatch h
  scratch _ _ hx := nomatch hx

/-- The even and the odd positions are all of them (44_zpf_filters R286). -/
theorem reord_length (bs : List Byte) : (reord bs).length = bs.length := by
  rw [reord, List.length_append]
  induction bs using evens.induct with
  | case1 => rfl
  | case2 x => rfl
  | case3 x y t ih => simp only [evens, odds, List.length_cons]; omega

/-- The input of a filter is `COUNT` bytes (44_zpf_filters R280). -/
theorem filterInput_length {mm : List Region} {o : Operands} {m : Memory} {bs : List Byte}
    (h : filterInput mm o m = .ok bs) : bs.length = countOf o := by
  obtain ⟨-, rfl⟩ := readBytes_eq_ok.1 h
  exact peekBytes_length _ _ _

/-- A filter that keeps the length stays in its destination. -/
theorem filterRule_confined {f : List Byte → List Byte} (hf : ∀ bs, (f bs).length = bs.length) :
    (filterRule f).Confined where
  run mm o m fin h a ha := by
    obtain ⟨bs, hin, h⟩ := bind_eq_ok.1 h
    obtain ⟨m', hstore, h⟩ := bind_eq_ok.1 h
    cases h
    exact storeBytes_outside hstore (List.mem_singleton.2 rfl) le_rfl (by simp [hf, filterInput_length hin]) ha
  scratch _ _ hx := nomatch hx

theorem filtRule_confined : filtRule.Confined where
  run mm o m fin h a ha := by
    obtain ⟨bs, hin, h⟩ := bind_eq_ok.1 h
    obtain ⟨m1, htmp, h⟩ := bind_eq_ok.1 h
    obtain ⟨m2, hdst, h⟩ := bind_eq_ok.1 h
    cases h
    have hlen := filterInput_length hin
    calc memGet m2 a
        = memGet m1 a := storeBytes_outside hdst (.head _) le_rfl (by simp [decon_length, reord_length, hlen]) ha
      _ = memGet m a := storeBytes_outside htmp (.tail _ (.head _)) le_rfl (by simp [reord_length, hlen]) ha
  scratch _ _ hx := .tail _ hx

theorem nrmLoop_outside {fmt : NrmFormat} {n k : Nat} {mm : List Region} {o : Operands} {m m' : Memory}
    (h : nrmLoop fmt mm o n k m = .ok m') {a : Nat}
    (ha : ¬(o.dstBase.toNat ≤ a ∧ a < o.dstBase.toNat + 8 * (k + n))) : memGet m' a = memGet m a := by
  induction n generalizing k m with
  | zero => cases h; rfl
  | succ n ih =>
    obtain ⟨m1, hone, hrest⟩ := bind_eq_ok.1 h
    obtain ⟨bs, -, hstore⟩ := bind_eq_ok.1 hone
    rw [ih hrest (by omega), storeBytes_frame hstore (by rw [pixelOut_length]; omega)]

theorem nrmRule_confined (fmt : NrmFormat) : (nrmRule fmt).Confined where
  run mm o m f h a ha := by
    obtain ⟨m', hloop, rfl⟩ := map_eq_ok.1 h
    have hout := outside_of_mem ha (List.mem_singleton.2 rfl)
    exact nrmLoop_outside hloop (by rwa [Nat.zero_add])
  scratch _ _ hx := nomatch hx

theorem inflateRule_confined : inflateRule.Confined where
  run mm o m f h a ha := by
    obtain ⟨⟨out, used⟩, hstream, h⟩ := bind_eq_ok.1 h
    obtain ⟨m', hstore, h⟩ := bind_eq_ok.1 h
    cases h
    have hlen : out.length ≤ o.dstLen.toNat := (inflateStream_bound hstream).1
    exact storeBytes_outside hstore (List.mem_singleton.2 rfl) le_rfl (by simpa [dstWindow] using hlen) ha
  scratch _ _ hx := nomatch hx

/-- The two filters of `ZPF.UNZIP` keep the length (44_zpf_filters R291). -/
theorem unzipStore_outside {mm : List Region} {o : Operands} {t : List Byte} {m m' : Memory}
    (h : unzipStore mm o t m = .ok m') (hlen : t.length ≤ unzipLimit o) {a : Nat}
    (ha : (unzipRule.outputs o).any (inRange · a) = false) : memGet m' a = memGet m a :=
  storeBytes_outside h (.head _) le_rfl (by simpa [intlv_length, recon_length] using hlen) ha

theorem unzipRule_confined : unzipRule.Confined where
  run mm o m f h a ha := by
    obtain ⟨⟨t, used⟩, hstream, h⟩ := bind_eq_ok.1 h
    obtain ⟨m1, htmp, h⟩ := bind_eq_ok.1 h
    obtain ⟨m2, hdst, h⟩ := bind_eq_ok.1 h
    cases h
    have hlen : t.length ≤ unzipLimit o := (inflateStream_bound hstream).1
    calc memGet m2 a
        = memGet m1 a := unzipStore_outside hdst hlen ha
      _ = memGet m a := storeBytes_outside htmp (.tail _ (.head _)) le_rfl (by simpa using hlen) ha
  scratch _ _ hx := .tail _ hx

/-- The rule of every command is confined to its outputs. -/
theorem ruleOf_confined {i : Instr} {r : Rule} (h : ruleOf i = some r) : r.Confined := by
  cases i <;> cases h
  case bcdBc1 => exact bcdRule_confined _ _
  case bcdBc2 => exact unsupportedRule_confined _
  case bcdBc3 => exact bcdRule_confined _ _
  case bcdBc4 => exact bcdRule_confined _ _
  case bcdBc5 => exact bcdRule_confined _ _
  case bcdBc7 => exact bcdRule_confined _ _
  case bcdBc7s => exact unsupportedRule_confined _
  case zpfRecon => exact filterRule_confined recon_length
  case zpfIntlv => exact filterRule_confined intlv_length
  case zpfReord => exact filterRule_confined reord_length
  case zpfDecon => exact filterRule_confined decon_length
  case zpfInflate => exact inflateRule_confined
  case zpfUnzip => exact unzipRule_confined
  case zpfFilt => exact filtRule_confined
  case nrmF32 => exact nrmRule_confined _
  case nrmF16 => exact nrmRule_confined _
  case nrmU32 => exact nrmRule_confined _

/-! ## What the end of a command writes -/

theorem sameOutside_of_mem_eq {s t : State} (h : t.mem = s.mem) (rs : List Range) : sameOutside rs s t :=
  fun a _ => by rw [h]

theorem faultRunning_sameOutside (r : Rule) (o : Operands) (t : Trap) (s : State) :
    sameOutside (r.outputs o) s (faultRunning r o t s) := fun a ha => by
  rw [faultRunning_mem, havoc_frame ha]

theorem finishCommand_sameOutside {r : Rule} (hr : r.Confined) {o : Operands} {f : Finished} {s : State}
    (hf : ∀ a, (r.outputs o).any (inRange · a) = false → memGet f.mem a = memGet s.mem a) :
    sameOutside (r.outputs o) s (finishCommand r o f s) := fun a ha => by
  have hscratch : (r.scratch o).any (inRange · a) = false :=
    List.any_eq_false.2 fun x hx => List.any_eq_false.1 ha x (hr.scratch o x hx)
  rw [finishCommand_mem, havoc_frame hscratch, complete_mem, hf a ha]

/-- A start-stage fault is the command's end (60_exceptions R433). -/
theorem endCommand_of_startFault {r : Rule} {o : Operands} {s x : State} (h : startFault r o s = some x) :
    endCommand r o s = x := by
  unfold startFault at h
  unfold endCommand
  cases hc : r.check o with
  | some t => simpa [hc] using h
  | none =>
    cases hb : busChoice r o s with
    | some a => simpa [hc, hb] using h
    | none => simp [hc, hb] at h

/-- A command that goes on has passed its start checks. -/
theorem check_of_startFault_none {r : Rule} {o : Operands} {s : State} (h : startFault r o s = none) :
    r.check o = none := by
  rcases startFault_cases r o s with ⟨t, he⟩ | ⟨t, he⟩ | ⟨-, hc⟩
  · simp [he] at h
  · simp [he] at h
  · exact hc

section Pending

variable {s : State} {p : Pending} {r : Rule} (hr : pendingRule p = some r)

include hr

theorem pendingRule_confined : r.Confined := by
  obtain ⟨i, -, hi⟩ := Option.bind_eq_some_iff.1 hr
  exact ruleOf_confined hi

/-- A pending command that passes its start checks is entitled to its rule's outputs. -/
theorem pendingOutputs_of_check (hc : r.check p.ops = none) : pendingOutputs p = r.outputs p.ops := by
  simp [pendingOutputs, hr, hc]

theorem endCommand_sameOutside : sameOutside (pendingOutputs p) s (endCommand r p.ops s) := by
  rcases endCommand_cases r p.ops s with ⟨t, -, he⟩ | ⟨t, hc, he⟩ | ⟨f, hc, hrun, he⟩ <;> rw [he]
  · exact sameOutside_of_mem_eq rfl _
  · rw [pendingOutputs_of_check hr hc]
    exact faultRunning_sameOutside r p.ops t s
  · rw [pendingOutputs_of_check hr hc]
    have hconf := pendingRule_confined hr
    exact finishCommand_sameOutside hconf (hconf.run _ _ _ _ hrun)

theorem startFault_sameOutside {x : State} (h : startFault r p.ops s = some x) :
    sameOutside (pendingOutputs p) s x :=
  endCommand_of_startFault h ▸ endCommand_sameOutside hr

theorem beginTiles_sameOutside : sameOutside (pendingOutputs p) s (beginTiles r p s) := by
  unfold beginTiles
  split
  · exact startFault_sameOutside hr ‹_›
  · exact sameOutside_of_mem_eq rfl _

theorem beginStream_sameOutside (e : InflateEnv) : sameOutside (pendingOutputs p) s (beginStream r e p s) := by
  unfold beginStream
  split
  · exact startFault_sameOutside hr ‹_›
  · next hs =>
    rw [pendingOutputs_of_check hr (check_of_startFault_none hs)]
    split
    · exact faultRunning_sameOutside r p.ops _ s
    · exact sameOutside_of_mem_eq rfl _

end Pending

/-- The rule of a BCD command that runs tile by tile. -/
theorem pendingRule_of_blockFormat {p : Pending} {size : Nat} {block : List Byte → List Texel}
    (h : (pendingInstr p >>= blockFormatOf) = some (size, block)) : pendingRule p = some (bcdRule block size) := by
  obtain ⟨i, hi, hb⟩ := Option.bind_eq_some_iff.1 h
  have hrule : ruleOf i = some (bcdRule block size) := by
    cases i <;> cases hb <;> rfl
  exact Option.bind_eq_some_iff.2 ⟨i, hi, hrule⟩

/-- The rule of a command that runs block by block. -/
theorem pendingRule_of_stream {p : Pending} {mm : List Region} {m : Memory} {r : Rule} {e : InflateEnv}
    (h : streamOf mm m p.word p.ops = some (r, e)) : pendingRule p = some r := by
  rcases streamOf_cases h with ⟨hw, rfl, -⟩ | ⟨hw, rfl, -⟩ <;> rw [pendingRule, pendingInstr, hw] <;> rfl

/-- The bytes of a stream go to one of the ranges its rule is entitled to (45_zpf_inflate R331). -/
theorem streamOf_output {mm : List Region} {m : Memory} {w : Word} {o : Operands} {r : Rule} {e : InflateEnv}
    (h : streamOf mm m w o = some (r, e)) : (⟨e.outBase, e.limit⟩ : Range) ∈ r.outputs o := by
  rcases streamOf_cases h with ⟨-, rfl, rfl⟩ | ⟨-, rfl, rfl⟩
  · exact .head _
  · exact .tail _ (.head _)

/-- The bytes a block emits are no more than those by which the output has grown. -/
theorem newBytes_length_le (w : InflateWork) (st : Inf) : (newBytes w st).length ≤ st.len - w.len := by
  simp [newBytes]

theorem endStream_sameOutside {s : State} {p : Pending} {r : Rule} {e : InflateEnv} {w : InflateWork}
    (he : streamOf s.memMap s.mem p.word p.ops = some (r, e)) (hlen : w.len ≤ e.limit) :
    sameOutside (r.outputs p.ops) s (endStream r e p w s) := by
  have hconf := pendingRule_confined (pendingRule_of_stream he)
  unfold endStream
  simp only
  split
  · exact faultRunning_sameOutside r p.ops _ s
  · next m hm =>
    refine finishCommand_sameOutside hconf fun a ha => ?_
    obtain ⟨-, -, hm⟩ := bind_eq_ok.1 hm
    rcases streamOf_cases he with ⟨hword, rfl, rfl⟩ | ⟨hword, rfl, rfl⟩ <;> rw [hword] at hm
    · cases hm; rfl
    · exact unzipStore_outside hm (by rw [peekBytes_length]; exact hlen) ha

/-! ## The turns -/

/-- Whatever the step makes of the turn agrees with `s` outside the ranges. -/
def Turn.StaysIn (rs : List Range) (s : State) (x : Turn) : Prop := ∀ t, x.outcome = .next t → sameOutside rs s t

theorem Turn.staysIn_goto {rs : List Range} {s t : State} (h : sameOutside rs s t) : (Turn.goto t).StaysIn rs s := by
  rintro _ ⟨⟩
  exact h

theorem Turn.staysIn_fetch {rs : List Range} {fmt : Format} {bs : List Byte} {i : Instr} {s t u : State}
    (hdec : decode fmt bs = .ok i) (hexec : exec i t = .next u) (h : sameOutside rs s u) :
    (Turn.fetch fmt bs t).StaysIn rs s := by
  intro u' hu
  rw [outcome_fetch hdec, hexec] at hu
  cases hu
  exact h

section Turns

variable {s : State} {p : Pending} (h : Inv s) (hp : s.phase = .busy p)

include h hp

theorem fetchWord_staysIn :
    (Turn.fetch .command (leBytes 4 p.word.toNat) s).StaysIn (pendingOutputs p) s := by
  obtain ⟨-, hne0, hne1⟩ := h.busy_snapshot hp
  cases hdec : decodeCommand p.word.toNat with
  | ok i =>
    obtain ⟨r, hr⟩ := ruleOf_of_decodeCommand hdec (fun hw => hne0 (BitVec.eq_of_toNat_eq hw))
      (fun hw => hne1 (BitVec.eq_of_toNat_eq hw))
    have hrule : pendingRule p = some r := by simp [pendingRule, pendingInstr, hdec, Except.toOption, hr]
    exact Turn.staysIn_fetch ((decode_command_leBytes _).trans hdec) ((exec_ruleOf hr s).trans (runRule_busy hp))
      (endCommand_sameOutside hrule)
  | error err =>
    intro t ht
    simp only [Turn.outcome, decode_command_leBytes, hdec] at ht
    cases ht
    exact sameOutside_of_mem_eq rfl _

theorem beginTurn_staysIn : (beginTurn p s).StaysIn (pendingOutputs p) s := by
  unfold beginTurn
  simp only
  split
  · split
    · next he => exact Turn.staysIn_goto (beginStream_sameOutside (pendingRule_of_stream he) _)
    · split
      · next hb => exact Turn.staysIn_goto (beginTiles_sameOutside (pendingRule_of_blockFormat hb))
      · exact fetchWord_staysIn h hp
  · exact fetchWord_staysIn h hp

theorem tileTurn_staysIn {k : Nat} {tile : List Texel} (hw : p.work = .bcd k tile) {size : Nat}
    {block : List Byte → List Texel} (hb : (pendingInstr p >>= blockFormatOf) = some (size, block)) :
    (tileTurn block size p k tile s).StaysIn (pendingOutputs p) s := by
  obtain ⟨hcheck, -⟩ := h.busy_tiles hp hw
  rw [pendingOutputs_of_check (pendingRule_of_blockFormat hb) hcheck]
  have hfault : ∀ t, (Turn.goto (faultRunning (bcdRule block size) p.ops t s)).StaysIn
      ((bcdRule block size).outputs p.ops) s :=
    fun t => Turn.staysIn_goto (faultRunning_sameOutside _ p.ops t s)
  unfold tileTurn
  simp only
  split
  · exact Turn.staysIn_goto (finishCommand_sameOutside (bcdRule_confined block size) fun _ _ => rfl)
  · split
    · split
      · exact hfault _
      · next bs hbs =>
        split
        · next hword =>
          have hsize : size = 16 := by
            rw [blockFormat_bc7Word hword] at hb
            cases hb
            rfl
          obtain ⟨ts, -, hexec⟩ := exec_decodeBc7 (leAt bs 0 16) s
          exact Turn.staysIn_fetch (decode_bc7Block ((fetchBlock_length hbs).trans hsize))
            (hexec.trans (fillTile_busy hp hw hword ts)) (sameOutside_of_mem_eq rfl _)
        · exact Turn.staysIn_goto (sameOutside_of_mem_eq rfl _)
    · split
      · exact hfault _
      · next m hm =>
        exact Turn.staysIn_goto fun a ha => storeTile_outside hm (outside_of_mem ha (List.mem_singleton.2 rfl))

theorem streamTurn_staysIn {w : InflateWork} (hw : p.work = .inflate w) {r : Rule} {e : InflateEnv}
    (he : streamOf s.memMap s.mem p.word p.ops = some (r, e)) :
    (streamTurn r e p w s).StaysIn (pendingOutputs p) s := by
  obtain ⟨hcheck, hlen⟩ := h.busy_stream hp hw he
  rw [pendingOutputs_of_check (pendingRule_of_stream he) hcheck]
  unfold streamTurn
  split
  · exact Turn.staysIn_goto (endStream_sameOutside he hlen)
  · split
    · exact Turn.staysIn_goto (faultRunning_sameOutside r p.ops _ s)
    · next v hv =>
      have hdec := decode_deflateHeader (streamBits_lt hv)
      obtain ⟨btype, fin, hexec⟩ := exec_decodeDeflate v s
      rcases runBlock_cases hp hw he (blockBody btype) fin with ⟨t, hrun⟩ | ⟨st, m, hbody, hstore, hrun⟩
      · exact Turn.staysIn_fetch hdec (hexec.trans hrun) (faultRunning_sameOutside r p.ops t s)
      · have hst : st.len ≤ e.limit := (blockBody_appends hbody).len_le hlen
        have hnew := newBytes_length_le w st
        exact Turn.staysIn_fetch hdec (hexec.trans hrun) fun a ha => by
          simpa [streamOf_env he] using
            storeBytes_outside hstore (streamOf_output he) (Nat.le_add_right _ _) (by simp only; omega) ha

theorem cduTurn_staysIn : (cduTurn p s).StaysIn (pendingOutputs p) s := by
  have hstray : (strayWork p s).StaysIn (pendingOutputs p) s := Turn.staysIn_goto (sameOutside_of_mem_eq rfl _)
  unfold cduTurn
  split
  · exact beginTurn_staysIn h hp
  · next k tile hw =>
    split
    · next hb => exact tileTurn_staysIn h hp hw hb
    · exact hstray
  · next w hw =>
    split
    · next he => exact streamTurn_staysIn h hp hw he
    · exact hstray

end Turns

/-- Settles O12: the step is the outcome of the command's own turn, and every such turn stays in the entitled ranges. -/
theorem commandStaysInItsOutputs : Obligations.CommandStaysInItsOutputs := by
  intro s t p h hnext hstep
  have hp : s.phase = .busy p := hnext.1
  refine cduTurn_staysIn h hp t ?_
  rw [← nextTurn_cdu hnext, ← step_eq_outcome]
  exact hstep

end Sys2Proof.Machine
end

section
/-! A BCD command that runs tile by tile reaches the state of its whole run (20_memory R85, R86; log 7). The tile loop of
40_bcd_common_bc1 R153 is followed tile by tile: a tile is two steps, which fill the tile buffer and store it. -/

namespace Sys2Proof.Machine

/-! ## Runs of the pending command's own steps -/

/-- A first step in front of a run. -/
theorem Reaches.head {s t u : State} (hstep : stepsTo s t) (h : Reaches t u) : Reaches s u := by
  induction h with
  | refl => exact .tail (.refl s) hstep
  | tail _ hlast ih => exact .tail ih hlast

theorem Reaches.trans {s t u : State} (hst : Reaches s t) (htu : Reaches t u) : Reaches s u := by
  induction htu with
  | refl => exact hst
  | tail _ hlast ih => exact .tail ih hlast

section Steps

variable {s t : State} {p : Pending} (hn : cduNext s p)

include hn

theorem stepsTo_goto (h : cduTurn p s = .goto t) : stepsTo s t := by
  rw [stepsTo, step_eq_outcome, nextTurn_cdu hn, h]
  rfl

theorem stepsTo_fetch {fmt : Format} {bs : List Byte} {i : Instr} (h : cduTurn p s = .fetch fmt bs s)
    (hdec : decode fmt bs = .ok i) (hexec : exec i s = .next t) : stepsTo s t := by
  rw [stepsTo, step_eq_outcome, nextTurn_cdu hn, h, outcome_fetch hdec, hexec]

/-- A command that has carried out a part of its work still has the turn: no access is served in between (log 6). -/
theorem cduNext_setWork (w : Work) (m : Memory) :
    cduNext (setWork p w { s with mem := m }) { p with work := w } := by
  obtain ⟨-, hrst, hturn⟩ := hn
  exact ⟨rfl, hrst, hturn⟩

end Steps

/-- Completion does not see what memory and the working state were before it (10_state R39). -/
theorem finishCommand_setWork (r : Rule) (o : Operands) (f : Finished) (p : Pending) (w : Work) (m : Memory)
    (s : State) : finishCommand r o f (setWork p w { s with mem := m }) = finishCommand r o f s := rfl

/-- A command that completes met no start fault, and its run finished. -/
theorem endCommand_completed {r : Rule} {o : Operands} {s : State} (h : (endCommand r o s).err = false) :
    startFault r o s = none ∧
      ∃ f, r.run s.memMap o s.mem = .ok f ∧ endCommand r o s = finishCommand r o f s := by
  refine ⟨?_, ?_⟩
  · rcases startFault_cases r o s with ⟨t, hs⟩ | ⟨t, hs⟩ | ⟨hs, -⟩
    · simp [endCommand_of_startFault hs] at h
    · simp [endCommand_of_startFault hs] at h
    · exact hs
  · rcases endCommand_cases r o s with ⟨t, -, he⟩ | ⟨t, -, he⟩ | ⟨f, -, hrun, he⟩
    · simp [he] at h
    · simp [he] at h
    · exact ⟨f, hrun, he⟩

/-! ## One tile -/

/-- The row of a mode fills the tile with that mode's texels (42_bcd_bc7 R237). -/
theorem exec_bc7Instr {m : Nat} (hm : m < 8) (f : Bc7Fields) (s : State) :
    exec (bc7Instr m f) s = fillTile (bc7Texels m f) s := by
  interval_cases m <;> rfl

/-- Decoding a fetched block as a row fills the tile with the texels of `Bc7Block` (42_bcd_bc7 R237, R239). -/
theorem exec_decodeBc7_block (bs : List Byte) (s : State) :
    exec (decodeBc7 (leAt bs 0 16)) s = fillTile (bc7Block bs) s := by
  unfold decodeBc7 bc7Block
  cases hm : bc7ModeOf (leAt bs 0 16) with
  | none => rfl
  | some m => exact exec_bc7Instr (List.mem_range.1 (List.mem_of_find?_eq_some hm)) _ s

section Tiles

variable {s : State} {p : Pending} {size k : Nat} {block : List Byte → List Texel} (hn : cduNext s p)
  (hb : (pendingInstr p >>= blockFormatOf) = some (size, block))

include hn hb

/-- The next block is fetched and its texels fill the tile buffer, with a BC7 block row or without one (log 7). -/
theorem stepsTo_fillTile (hw : p.work = .bcd k []) (hk : k < tileCount p.ops) {bs : List Byte}
    (hbs : fetchBlock size s.memMap p.ops k s.mem = .ok bs) : stepsTo s (setWork p (.bcd k (block bs)) s) := by
  by_cases hword : p.word = bc7Word
  · obtain ⟨rfl, rfl⟩ : size = 16 ∧ block = bc7Block := by
      rw [blockFormat_bc7Word hword] at hb
      cases hb
      exact ⟨rfl, rfl⟩
    exact stepsTo_fetch hn (cduTurn_tile hword hw hk hbs) (decode_bc7Block (fetchBlock_length hbs))
      ((exec_decodeBc7_block bs s).trans (fillTile_busy hn.1 hw hword _))
  · refine stepsTo_goto hn ?_
    simp [cduTurn, hw, hb, tileTurn, Nat.not_le.2 hk, hbs, hword]

/-- A full tile buffer is stored and the cursor moves on (40_bcd_common_bc1 R155, R156). -/
theorem stepsTo_storeTile {tile : List Texel} (hw : p.work = .bcd k tile) (hne : tile ≠ [])
    (hk : k < tileCount p.ops) {m : Memory} (hm : storeTile s.memMap p.ops k 0 tile s.mem = .ok m) :
    stepsTo s (setWork p (.bcd (k + 1) []) { s with mem := m }) := by
  obtain ⟨t, ts, rfl⟩ := List.exists_cons_of_ne_nil hne
  refine stepsTo_goto hn ?_
  simp [cduTurn, hw, hb, tileTurn, Nat.not_le.2 hk, hm]

/-- One iteration of the tile loop (40_bcd_common_bc1 R153). -/
theorem reaches_nextTile (hw : p.work = .bcd k []) (hk : k < tileCount p.ops) {m : Memory}
    (hm : bcdTile block size s.memMap p.ops k s.mem = .ok m) :
    Reaches s (setWork p (.bcd (k + 1) []) { s with mem := m }) := by
  obtain ⟨bs, hbs, hstore⟩ := bind_eq_ok.1 hm
  have hne : block bs ≠ [] := fun h => by simpa [h] using block_length hb bs
  have hstored := stepsTo_storeTile (cduNext_setWork hn (.bcd k (block bs)) s.mem) hb rfl hne hk hstore
  exact .head (stepsTo_fillTile hn hb hw hk hbs) (.head hstored (.refl _))

/-- The rest of the tile loop, then completion (40_bcd_common_bc1 R157). -/
theorem reaches_lastTile {n : Nat} (hw : p.work = .bcd k []) (hk : k + n = tileCount p.ops) {m : Memory}
    (hloop : bcdLoop block size s.memMap p.ops n k s.mem = .ok m) :
    Reaches s (finishCommand (bcdRule block size) p.ops (bcdFinished size p.ops m) s) := by
  induction n generalizing s p k with
  | zero =>
    cases hloop
    refine .head (stepsTo_goto hn ?_) (.refl _)
    simp [cduTurn, hw, hb, tileTurn, show tileCount p.ops ≤ k by omega]
  | succ n ih =>
    obtain ⟨m1, htile, hrest⟩ := bind_eq_ok.1 hloop
    have hlast := ih (cduNext_setWork hn (.bcd (k + 1) []) m1) hb rfl (show k + 1 + n = tileCount p.ops by omega) hrest
    rw [finishCommand_setWork] at hlast
    exact (reaches_nextTile hn hb hw (by omega) htile).trans hlast

end Tiles

/-! ## The command -/

/-- A word with a block format names no stream (30_encoding R101). -/
theorem streamOf_of_blockFormat {p : Pending} {size : Nat} {block : List Byte → List Texel}
    (hb : (pendingInstr p >>= blockFormatOf) = some (size, block)) (mm : List Region) (m : Memory) :
    streamOf mm m p.word p.ops = none := by
  cases he : streamOf mm m p.word p.ops with
  | none => rfl
  | some re =>
    exfalso
    unfold pendingInstr at hb
    rcases streamOf_cases (r := re.1) (e := re.2) he with ⟨hw, -⟩ | ⟨hw, -⟩ <;> rw [hw] at hb <;> cases hb

/-- A BCD command run tile by tile that would complete when run whole reaches the state of the whole run. -/
theorem reaches_endCommand_tiles {s : State} {p : Pending} {size : Nat} {block : List Byte → List Texel}
    (hn : cduNext s p) (hw : p.work = .notBegun) (hbyBlock : p.byBlock = true)
    (hb : (pendingInstr p >>= blockFormatOf) = some (size, block))
    (hend : (endCommand (bcdRule block size) p.ops s).err = false) :
    Reaches s (endCommand (bcdRule block size) p.ops s) := by
  obtain ⟨hstart, f, hrun, hfinish⟩ := endCommand_completed hend
  obtain ⟨m, hloop, rfl⟩ := map_eq_ok.1 hrun
  have hbegin : stepsTo s (setWork p (.bcd 0 []) s) := by
    refine stepsTo_goto hn ?_
    simp [cduTurn, hw, beginTurn, hbyBlock, streamOf_of_blockFormat hb, hb, beginTiles, hstart]
  have hlast := reaches_lastTile (cduNext_setWork hn (.bcd 0 []) s.mem) hb rfl (Nat.zero_add _) hloop
  rw [finishCommand_setWork] at hlast
  rw [hfinish]
  exact .head hbegin hlast

end Sys2Proof.Machine
end

section
/-! An inflating command that runs block by block reaches the state of its whole run (20_memory R85, R86; log 7). Between
two blocks the output stands in memory and not in the decoder, so the two runs agree because the output never reaches the
source window, where the stream is read, and because memory gives the output back as the LZ77 history. -/

namespace Sys2Proof.Machine

/-! ## The decoder reads memory through the source window only -/

/-- A memory that agrees on the source window gives the same source bytes (45_zpf_inflate R311, R330). -/
theorem sourceByte_withMem {e : InflateEnv} {m : Memory}
    (h : ∀ off < e.ops.srcLen.toNat, memGet m (e.ops.srcBase.toNat + off) = memGet e.mem (e.ops.srcBase.toNat + off)) :
    sourceByte { e with mem := m } = sourceByte e := by
  funext off
  by_cases hoff : e.ops.srcLen.toNat ≤ off
  · simp only [sourceByte, if_pos hoff]
  · simp only [sourceByte, if_neg hoff, readByte, h off (Nat.not_le.1 hoff)]

section SameSource

variable {e : InflateEnv} {m : Memory} (hs : sourceByte { e with mem := m } = sourceByte e)

include hs

theorem streamBit_withMem (q : Nat) : streamBit { e with mem := m } q = streamBit e q := by
  rw [streamBit, streamBit, hs]

theorem streamBits_withMem (n q : Nat) : streamBits { e with mem := m } n q = streamBits e n q := by
  induction n generalizing q with
  | zero => rfl
  | succ n ih => simp only [streamBits, streamBit_withMem hs, ih]

theorem decodeSym_withMem (cs : List Codeword) (fuel l c q : Nat) :
    decodeSym { e with mem := m } cs fuel l c q = decodeSym e cs fuel l c q := by
  induction fuel generalizing l c q with
  | zero => rfl
  | succ fuel ih => simp only [decodeSym, streamBit_withMem hs, ih]

theorem nextSym_withMem (cs : List Codeword) (q : Nat) : nextSym { e with mem := m } cs q = nextSym e cs q :=
  decodeSym_withMem hs cs 16 0 0 q

omit hs in
theorem emit_withMem (b : Byte) (st : Inf) : emit { e with mem := m } b st = emit e b st := rfl

omit hs in
theorem copyBytes_withMem (dist n : Nat) (st : Inf) :
    copyBytes { e with mem := m } dist n st = copyBytes e dist n st := by
  induction n generalizing st with
  | zero => rfl
  | succ n ih => simp only [copyBytes, emit_withMem, ih]

theorem storedBytes_withMem (n : Nat) (st : Inf) : storedBytes { e with mem := m } n st = storedBytes e n st := by
  induction n generalizing st with
  | zero => rfl
  | succ n ih => simp only [storedBytes, streamBits_withMem hs, emit_withMem, ih]

theorem storedBlock_withMem (st : Inf) : storedBlock { e with mem := m } st = storedBlock e st := by
  simp only [storedBlock, streamBits_withMem hs, storedBytes_withMem hs]

theorem lengthSymbol_withMem (dd : List Codeword) (s : Nat) (st : Inf) :
    lengthSymbol { e with mem := m } dd s st = lengthSymbol e dd s st := by
  simp only [lengthSymbol, streamBits_withMem hs, nextSym_withMem hs, copyBytes_withMem]

theorem huffmanBlock_withMem (ll dd : List Codeword) (fuel : Nat) (st : Inf) :
    huffmanBlock { e with mem := m } ll dd fuel st = huffmanBlock e ll dd fuel st := by
  induction fuel generalizing st with
  | zero => rfl
  | succ fuel ih => simp only [huffmanBlock, nextSym_withMem hs, emit_withMem, lengthSymbol_withMem hs, ih]

theorem readCodeLengths_withMem (ss cl : List Nat) (q : Nat) :
    readCodeLengths { e with mem := m } ss cl q = readCodeLengths e ss cl q := by
  induction ss generalizing cl q with
  | nil => rfl
  | cons s ss ih => simp only [readCodeLengths, streamBits_withMem hs, ih]

theorem applyCodeLength_withMem (s : Nat) (rev : List Nat) (q : Nat) :
    applyCodeLength { e with mem := m } s rev q = applyCodeLength e s rev q := by
  simp only [applyCodeLength, streamBits_withMem hs]

theorem readLengths_withMem (cl : List Codeword) (total fuel : Nat) (rev : List Nat) (q : Nat) :
    readLengths { e with mem := m } cl total fuel rev q = readLengths e cl total fuel rev q := by
  induction fuel generalizing rev q with
  | zero => rfl
  | succ fuel ih => simp only [readLengths, nextSym_withMem hs, applyCodeLength_withMem hs, ih]

theorem dynamicHeader_withMem (q : Nat) : dynamicHeader { e with mem := m } q = dynamicHeader e q := by
  simp only [dynamicHeader, streamBits_withMem hs, readCodeLengths_withMem hs, readLengths_withMem hs]

theorem dynamicBlock_withMem (st : Inf) : dynamicBlock { e with mem := m } st = dynamicBlock e st := by
  simp only [dynamicBlock, dynamicHeader_withMem hs, huffmanBlock_withMem hs, streamFuel]

/-- A block of any type is the same over a memory with the same source bytes. -/
theorem blockBody_withMem (btype : Nat) (st : Inf) :
    blockBody btype { e with mem := m } st = blockBody btype e st := by
  match btype with
  | 0 => exact storedBlock_withMem hs st
  | 1 => exact huffmanBlock_withMem hs _ _ _ st
  | 2 => exact dynamicBlock_withMem hs st
  | _ + 3 => rfl

theorem readTrailer_withMem (q : Nat) (ab : Nat × Nat) :
    readTrailer { e with mem := m } q ab = readTrailer e q ab := by
  simp only [readTrailer, hs]

end SameSource

/-! ## The output stays clear of the source -/

/-- A list of checks that lets a command go on has no check that applies (60_exceptions R433). -/
theorem firstTrap_eq_none {l : List (Bool × Trap)} : firstTrap l = none ↔ ∀ c ∈ l, c.1 = false := by
  induction l with
  | nil => simp [firstTrap]
  | cons c l ih =>
    obtain ⟨b, t⟩ := c
    cases b <;> simp [firstTrap, ih]

/-- Where the output of a stream may go there is no byte of its source (45_zpf_inflate R331, 20_memory R80). -/
def outputClear (e : InflateEnv) : Prop :=
  ∀ a, inRange (srcWindow e.ops) a = true → inRange ⟨e.outBase, e.limit⟩ a = false

/-- Ranges that fail to overlap have no address in common. -/
theorem not_inRange_of_not_overlap {x y : Range} (h : rangesOverlap x y = false) {a : Nat} (hx : inRange x a = true) :
    inRange y a = false :=
  Bool.eq_false_iff.2 fun hy => Bool.false_ne_true (h.symm.trans (rangesOverlap_iff.2 ⟨a, hx, hy⟩))

/-- `ZPF.INFLATE` starts with its source and destination windows apart (45_zpf_inflate R328). -/
theorem inflateCheck_clear {o : Operands} (h : inflateCheck o = none) :
    rangesOverlap (srcWindow o) (dstWindow o) = false := by
  have hover := firstTrap_eq_none.1 h (anyOverlap [srcWindow o, dstWindow o], .overlap) (by simp)
  rwa [anyOverlap_pair] at hover

/-- `ZPF.UNZIP` starts with its source and scratch windows apart (44_zpf_filters R291). -/
theorem unzipCheck_clear {o : Operands} (h : unzipCheck o = none) :
    rangesOverlap (srcWindow o) (tmpWindow o) = false := by
  have hover := firstTrap_eq_none.1 h (anyOverlap [srcWindow o, dstWindow o, tmpWindow o], .overlap) (by simp)
  simp only [anyOverlap_triple, Bool.or_eq_false_iff] at hover
  obtain ⟨⟨-, htmp⟩, -⟩ := hover
  exact htmp

/-- The start checks of an inflating command keep its output clear of its source. -/
theorem streamOf_outputClear {mm : List Region} {m : Memory} {w : Word} {o : Operands} {r : Rule} {e : InflateEnv}
    (he : streamOf mm m w o = some (r, e)) (hc : r.check o = none) : outputClear e := by
  intro a hsrc
  rcases streamOf_cases he with ⟨-, rfl, rfl⟩ | ⟨-, rfl, rfl⟩
  · exact not_inRange_of_not_overlap (inflateCheck_clear hc) hsrc
  · have htmp := not_inRange_of_not_overlap (unzipCheck_clear hc) hsrc
    rw [Bool.eq_false_iff, ne_eq, inRange_iff] at htmp ⊢
    have hlimit : unzipLimit o ≤ o.tmpLen.toNat := min_le_right _ _
    simp only [unzipEnv, tmpWindow] at htmp ⊢
    omega

/-! ## What stands in memory between two blocks -/

/-- Two strings stored one after the other. -/
theorem storeBytes_append {mm : List Region} {m : Memory} {a : Nat} {xs ys : List Byte} :
    storeBytes mm m a (xs ++ ys) = storeBytes mm m a xs >>= fun m1 => storeBytes mm m1 (a + xs.length) ys := by
  induction xs generalizing m a with
  | nil => rfl
  | cons x xs ih =>
    rw [List.cons_append, storeBytes, storeBytes, List.length_cons, show a + (xs.length + 1) = a + 1 + xs.length by omega]
    cases storeByte mm m a x with
    | error t => rfl
    | ok m1 => exact ih

/-- Adler-32 over more bytes (45_zpf_inflate R327). -/
theorem adlerSums_append (ab : Nat × Nat) (xs ys : List Byte) :
    adlerSums ab (xs ++ ys) = adlerSums (adlerSums ab xs) ys := by
  induction xs generalizing ab with
  | nil => rfl
  | cons x xs ih => exact ih _

/-- The working state `w` over the memory `m` stands for the decoder `st` of the whole run: its output, inside the limit,
has been stored in the output window of `e` (45_zpf_inflate R323, R331). -/
structure StandsFor (e : InflateEnv) (m : Memory) (w : InflateWork) (st : Inf) : Prop where
  q : w.q = st.q
  len : w.len = st.len
  rev : st.rev.length = st.len
  bound : st.len ≤ e.limit
  stored : storeBytes e.mm e.mem e.outBase st.rev.reverse = .ok m
  adler : (w.adlerA, w.adlerB) = adlerSums (1, 0) st.rev.reverse

/-- Before the first block there is no output. -/
theorem StandsFor.fresh (e : InflateEnv) : StandsFor e e.mem ⟨0, 0, false, 1, 0⟩ ⟨0, [], 0⟩ :=
  ⟨rfl, rfl, rfl, Nat.zero_le _, rfl, rfl⟩

section StandsFor

variable {e : InflateEnv} {m : Memory} {w : InflateWork} {st : Inf} (h : StandsFor e m w st)

include h

/-- The output has not reached the source. -/
theorem StandsFor.sourceByte_eq (hclear : outputClear e) : sourceByte { e with mem := m } = sourceByte e :=
  sourceByte_withMem fun off hoff => storeBytes_frame h.stored (by
    have hout := hclear (e.ops.srcBase.toNat + off) (inRange_iff.2 ⟨Nat.le_add_right _ _, Nat.add_lt_add_left hoff _⟩)
    rw [Bool.eq_false_iff, ne_eq, inRange_iff] at hout
    have hrev := h.rev
    have hbound := h.bound
    simp only [List.length_reverse] at hout ⊢
    omega)

/-- Memory gives the output back (45_zpf_inflate R323). -/
theorem StandsFor.peekBytes_eq (hm : e.mem.wf) : peekBytes m e.outBase w.len = st.rev.reverse := by
  have hpeek := storeBytes_peek h.stored hm
  rwa [List.length_reverse, h.rev, ← h.len] at hpeek

theorem StandsFor.blockStart_eq (hm : e.mem.wf) : blockStart { e with mem := m } w = { st with q := st.q + 3 } := by
  simp only [blockStart]
  rw [h.peekBytes_eq hm, List.reverse_reverse, h.q, h.len]

/-- A block's new bytes are stored after the old ones, and the working state stands for the decoder after it
(45_zpf_inflate R312). -/
theorem StandsFor.block {st' : Inf} {q : Nat} (happ : Appends e { st with q := q } st') (fin : Bool) :
    ∃ m', storeBytes e.mm m (e.outBase + w.len) (newBytes w st') = .ok m' ∧
      StandsFor e m' (blockWork fin w st') st' := by
  have hbound := happ.len_le h.bound
  obtain ⟨new, hrev, hlen, -, hvalid⟩ := happ
  simp only at hrev hlen hvalid
  have hnew : newBytes w st' = new.reverse := by
    rw [newBytes, hrev, h.len, hlen, Nat.add_sub_cancel_left, List.take_left']
    rfl
  have hout : st'.rev.reverse = st.rev.reverse ++ newBytes w st' := by rw [hnew, hrev, List.reverse_append]
  obtain ⟨m', hm'⟩ : ∃ m', storeBytes e.mm m (e.outBase + w.len) (newBytes w st') = .ok m' :=
    storeBytes_ok m fun i hi => h.len ▸ hvalid i (by simpa [hnew] using hi)
  refine ⟨m', hm', rfl, rfl, ?_, hbound, ?_, ?_⟩
  · rw [hrev, List.length_append, h.rev, hlen, Nat.add_comm]
  · rw [hout, storeBytes_append, h.stored, List.length_reverse, h.rev, ← h.len]
    exact hm'
  · rw [hout, adlerSums_append, ← h.adler]
    rfl

end StandsFor

/-! ## One block -/

/-- A header of three bits is its first bit and the two after it (45_zpf_inflate R312). -/
theorem streamBits_header {e : InflateEnv} {q bfinal btype : Nat} (hfin : streamBits e 1 q = .ok bfinal)
    (htype : streamBits e 2 (q + 1) = .ok btype) : streamBits e 3 q = .ok (bfinal + 2 * btype) := by
  obtain ⟨b, hb, h⟩ := bind_eq_ok.1 hfin
  cases h
  exact bind_eq_ok.2 ⟨b, hb, bind_eq_ok.2 ⟨btype, htype, rfl⟩⟩

/-- The instruction of a header runs one block of its type (30_encoding R117, 45_zpf_inflate R312). -/
theorem exec_header {bfinal btype : Nat} (hfin : bfinal < 2) (htype : btype < 4) (s : State) :
    exec (decodeDeflate (bfinal + 2 * btype)) s = runBlock (blockBody btype) (bfinal == 1) s := by
  interval_cases bfinal <;> interval_cases btype <;> rfl

theorem runBlock_ok {s : State} {p : Pending} {w : InflateWork} {r : Rule} {e : InflateEnv} (hp : s.phase = .busy p)
    (hw : p.work = .inflate w) (he : streamOf s.memMap s.mem p.word p.ops = some (r, e))
    {body : InflateEnv → Inf → Except Trap Inf} (fin : Bool) {st : Inf} {m : Memory}
    (hbody : body e (blockStart e w) = .ok st)
    (hm : storeBytes e.mm e.mem (e.outBase + w.len) (newBytes w st) = .ok m) :
    runBlock body fin s = .next (setWork p (.inflate (blockWork fin w st)) { s with mem := m }) := by
  simp [runBlock, hp, hw, he, hbody, endBlock, hm, bind, Except.bind, pure, Except.pure, setWork]

section Blocks

variable {s : State} {p : Pending} {w : InflateWork} {r : Rule} {e : InflateEnv} {st : Inf} (hn : cduNext s p)
  (hw : p.work = .inflate w) (he : streamOf s.memMap s.mem p.word p.ops = some (r, { e with mem := s.mem }))
  (hclear : outputClear e) (hwf : e.mem.wf) (h : StandsFor e s.mem w st)

include hn hw he hclear hwf h

/-- One block of the whole run is one step of the pending command (45_zpf_inflate R312). -/
theorem stepsTo_block (hlast : w.last = false) {bfinal btype : Nat} (hfin : streamBits e 1 st.q = .ok bfinal)
    (htype : streamBits e 2 (st.q + 1) = .ok btype) {st' : Inf}
    (hbody : blockBody btype e { st with q := st.q + 3 } = .ok st') :
    ∃ m, stepsTo s (setWork p (.inflate (blockWork (bfinal == 1) w st')) { s with mem := m }) ∧
      StandsFor e m (blockWork (bfinal == 1) w st') st' := by
  have hsrc := h.sourceByte_eq hclear
  obtain ⟨m, hm, hstands⟩ := h.block (blockBody_appends hbody) (bfinal == 1)
  have hheader : streamBits { e with mem := s.mem } 3 w.q = .ok (bfinal + 2 * btype) := by
    rw [streamBits_withMem hsrc, h.q]
    exact streamBits_header hfin htype
  have hblock : blockBody btype { e with mem := s.mem } (blockStart { e with mem := s.mem } w) = .ok st' := by
    rw [blockBody_withMem hsrc, h.blockStart_eq hwf]
    exact hbody
  have hexec := (exec_header (streamBits_lt hfin) (streamBits_lt htype) s).trans
    (runBlock_ok hn.1 hw he (bfinal == 1) hblock hm)
  have hdec := decode_deflateHeader (streamBits_lt hheader)
  exact ⟨m, stepsTo_fetch hn (cduTurn_stream hw hlast he hheader) hdec hexec, hstands⟩

/-- The block loop of the whole run is a run of the pending command to its last block (45_zpf_inflate R312). -/
theorem reaches_lastBlock (hlast : w.last = false) {fuel : Nat} {stF : Inf}
    (hblocks : inflateBlocks e fuel st = .ok stF) :
    ∃ wF m, wF.last = true ∧ StandsFor e m wF stF ∧ Reaches s (setWork p (.inflate wF) { s with mem := m }) := by
  induction fuel generalizing s p w st with
  | zero => cases hblocks
  | succ fuel ih =>
    obtain ⟨bfinal, hfin, hblocks⟩ := bind_eq_ok.1 hblocks
    obtain ⟨btype, htype, hblocks⟩ := bind_eq_ok.1 hblocks
    obtain ⟨st', hbody, hblocks⟩ := bind_eq_ok.1 hblocks
    obtain ⟨m, hstep, hstands⟩ := stepsTo_block hn hw he hclear hwf h hlast hfin htype hbody
    split at hblocks
    · next hone =>
      cases hblocks
      exact ⟨_, m, by simp [blockWork, hone], hstands, .head hstep (.refl _)⟩
    · next hmore =>
      obtain ⟨wF, mF, hwF, hstandsF, hreach⟩ := ih (cduNext_setWork hn _ m) rfl (streamOf_mem he m) hstands
        (by simp [blockWork, hmore]) hblocks
      exact ⟨wF, mF, hwF, hstandsF, .head hstep hreach⟩

end Blocks

/-! ## The command -/

/-- What follows the last block: the two filters of `ZPF.UNZIP`, nothing for `ZPF.INFLATE` (44_zpf_filters R291). -/
def storeFiltered (word : Word) (mm : List Region) (o : Operands) (t : List Byte) (m : Memory) : Except Trap Memory :=
  if word = unzipWord then unzipStore mm o t m else .ok m

/-- A stream that inflates has its header, its blocks and its trailer in order (45_zpf_inflate R312, R326). -/
theorem inflateStream_parts {e : InflateEnv} {out : List Byte} {used : Nat} (h : inflateStream e = .ok (out, used)) :
    ∃ st, readHeader e = .ok () ∧ inflateBlocks e (streamFuel e) ⟨0, [], 0⟩ = .ok st ∧
      readTrailer e st.q (adlerSums (1, 0) st.rev.reverse) = .ok () ∧ out = st.rev.reverse ∧
      used = bytesUsed e.ops st.q := by
  obtain ⟨⟨⟩, hheader, h⟩ := bind_eq_ok.1 h
  obtain ⟨st, hblocks, h⟩ := bind_eq_ok.1 h
  obtain ⟨⟨⟩, htrailer, h⟩ := bind_eq_ok.1 h
  cases h
  exact ⟨st, hheader, hblocks, htrailer, rfl, rfl⟩

/-- The whole run of an inflating command, in the order of 45_zpf_inflate R312 and 44_zpf_filters R291. -/
theorem stream_run {mm : List Region} {m : Memory} {w : Word} {o : Operands} {r : Rule} {e : InflateEnv} {f : Finished}
    (he : streamOf mm m w o = some (r, e)) (hrun : r.run mm o m = .ok f) :
    ∃ st m1 m2, readHeader e = .ok () ∧ inflateBlocks e (streamFuel e) ⟨0, [], 0⟩ = .ok st ∧
      readTrailer e st.q (adlerSums (1, 0) st.rev.reverse) = .ok () ∧
      storeBytes e.mm e.mem e.outBase st.rev.reverse = .ok m1 ∧
      storeFiltered w mm o st.rev.reverse m1 = .ok m2 ∧
      f = inflateFinished (bytesUsed o st.q) st.rev.reverse.length m2 := by
  rcases streamOf_cases he with ⟨rfl, rfl, rfl⟩ | ⟨rfl, rfl, rfl⟩
  · obtain ⟨⟨out, used⟩, hstream, hrun⟩ := bind_eq_ok.1 hrun
    obtain ⟨m1, hstore, hrun⟩ := bind_eq_ok.1 hrun
    obtain ⟨st, hheader, hblocks, htrailer, rfl, rfl⟩ := inflateStream_parts hstream
    cases hrun
    exact ⟨st, m1, m1, hheader, hblocks, htrailer, hstore, rfl, rfl⟩
  · obtain ⟨⟨out, used⟩, hstream, hrun⟩ := bind_eq_ok.1 hrun
    obtain ⟨m1, hstore, hrun⟩ := bind_eq_ok.1 hrun
    obtain ⟨m2, hfilter, hrun⟩ := bind_eq_ok.1 hrun
    obtain ⟨st, hheader, hblocks, htrailer, rfl, rfl⟩ := inflateStream_parts hstream
    cases hrun
    exact ⟨st, m1, m2, hheader, hblocks, htrailer, hstore, hfilter, rfl⟩

/-- The end of a stream whose trailer is in order completes the command (45_zpf_inflate R324 to R326). -/
theorem endStream_ok {s : State} {p : Pending} {w : InflateWork} {r : Rule} {e : InflateEnv} {m : Memory}
    (htrailer : readTrailer e w.q (w.adlerA, w.adlerB) = .ok ())
    (hfilter : storeFiltered p.word s.memMap p.ops (peekBytes s.mem e.outBase w.len) s.mem = .ok m) :
    endStream r e p w s = finishCommand r p.ops (inflateFinished (bytesUsed p.ops w.q) w.len m) s := by
  unfold storeFiltered at hfilter
  simp [endStream, htrailer, hfilter, bind, Except.bind]

/-- After the last block the command ends (45_zpf_inflate R324). -/
theorem cduTurn_lastBlock {s : State} {p : Pending} {w : InflateWork} {r : Rule} {e : InflateEnv}
    (hw : p.work = .inflate w) (hlast : w.last = true) (he : streamOf s.memMap s.mem p.word p.ops = some (r, e)) :
    cduTurn p s = .goto (endStream r e p w s) := by
  simp [cduTurn, hw, he, streamTurn, hlast]

/-- The last step: the working state ends the command as the decoder that it stands for does. -/
theorem reaches_finish {s : State} {p : Pending} {w : InflateWork} {r : Rule} {e : InflateEnv} {st : Inf} {m : Memory}
    (hn : cduNext s p) (hw : p.work = .inflate w) (hlast : w.last = true)
    (he : streamOf s.memMap s.mem p.word p.ops = some (r, { e with mem := s.mem })) (hclear : outputClear e)
    (hwf : e.mem.wf) (h : StandsFor e s.mem w st)
    (htrailer : readTrailer e st.q (adlerSums (1, 0) st.rev.reverse) = .ok ())
    (hfilter : storeFiltered p.word s.memMap p.ops st.rev.reverse s.mem = .ok m) :
    Reaches s (finishCommand r p.ops (inflateFinished (bytesUsed p.ops st.q) st.rev.reverse.length m) s) := by
  have hend : endStream r { e with mem := s.mem } p w s =
      finishCommand r p.ops (inflateFinished (bytesUsed p.ops w.q) w.len m) s :=
    endStream_ok (by rw [readTrailer_withMem (h.sourceByte_eq hclear), h.q, h.adler]; exact htrailer)
      (by rw [h.peekBytes_eq hwf]; exact hfilter)
  rw [List.length_reverse, h.rev, ← h.len, ← h.q, ← hend]
  exact .head (stepsTo_goto hn (cduTurn_lastBlock hw hlast he)) (.refl _)

/-- An inflating command run block by block that would complete when run whole reaches the state of the whole run. -/
theorem reaches_endCommand_blocks {s : State} {p : Pending} {r : Rule} {e : InflateEnv} (hn : cduNext s p)
    (hw : p.work = .notBegun) (hbyBlock : p.byBlock = true) (hwf : s.mem.wf)
    (he : streamOf s.memMap s.mem p.word p.ops = some (r, e)) (hend : (endCommand r p.ops s).err = false) :
    Reaches s (endCommand r p.ops s) := by
  obtain ⟨hstart, f, hrun, hfinish⟩ := endCommand_completed hend
  obtain ⟨st, m1, m2, hheader, hblocks, htrailer, hstore, hfilter, rfl⟩ := stream_run he hrun
  have hmem := streamOf_env he
  have hclear := streamOf_outputClear he (check_of_startFault_none hstart)
  have hbegin : stepsTo s (setWork p (.inflate ⟨0, 0, false, 1, 0⟩) s) := by
    refine stepsTo_goto hn ?_
    simp [cduTurn, hw, beginTurn, hbyBlock, he, beginStream, hstart, hheader]
  obtain ⟨w, m, hlast, hstands, hreach⟩ := reaches_lastBlock (cduNext_setWork hn _ s.mem) rfl (streamOf_mem he s.mem)
    hclear (hmem ▸ hwf) (hmem ▸ StandsFor.fresh e) rfl hblocks
  obtain rfl : m = m1 := Except.ok.inj (hstands.stored.symm.trans hstore)
  have hlastStep := reaches_finish (cduNext_setWork hn (.inflate w) m) rfl hlast (streamOf_mem he m) hclear
    (hmem ▸ hwf) hstands htrailer hfilter
  rw [finishCommand_setWork] at hlastStep
  rw [hfinish]
  exact .head hbegin (hreach.trans hlastStep)

/-- Settles O11: tile by tile by the tile loop, block by block by the block loop. -/
theorem tileByTileIsWhole : Obligations.TileByTileIsWhole :=
  ⟨fun _ _ _ _ hn hw hbyBlock hb hend => reaches_endCommand_tiles hn hw hbyBlock hb hend,
    fun _ _ _ _ hn hw hbyBlock hwf he hend => reaches_endCommand_blocks hn hw hbyBlock hwf he hend⟩

end Sys2Proof.Machine
end

section
/-! The opcode map (30_encoding R101) holds every command at its own word and nothing else, so a word above it faults
`ILLEGAL_OP` (R102; 60_exceptions R422, R430). -/

namespace Sys2Proof.Machine

/-! ## The opcode map -/

/-- The rows of the opcode map are the commands, each at its whole encoding (30_encoding R100, R101). -/
theorem mem_commandTable {w : Nat} {i : Instr} :
    (w, i) ∈ commandTable ↔ formatOf i = .command ∧ encodeValue i = w := by
  constructor
  · have hrows : ∀ row ∈ commandTable, formatOf row.2 = .command ∧ encodeValue row.2 = row.1 := by decide
    exact hrows (w, i)
  · rintro ⟨hcommand, rfl⟩
    cases i <;> simp [formatOf, encodeValue, commandTable] at hcommand ⊢

/-- No word stands twice in the opcode map (30_encoding R101). -/
theorem commandTable_injective {row row' : Nat × Instr} (h : row ∈ commandTable) (h' : row' ∈ commandTable)
    (hword : row.1 = row'.1) : row = row' := by
  have hnodup : (commandTable.map Prod.fst).Nodup := by decide
  exact List.inj_on_of_nodup_map hnodup h h' hword

/-- All that the command decoder can answer: a row of the opcode map, or `ILLEGAL_OP`'s error where the word has no row
(30_encoding R102). -/
theorem decodeCommand_cases (w : Nat) :
    (∃ i, (w, i) ∈ commandTable ∧ decodeCommand w = .ok i) ∨
    ((∀ i, (w, i) ∉ commandTable) ∧ decodeCommand w = .error (.illegalCommand w)) := by
  unfold decodeCommand
  split
  · next row hrow =>
    obtain rfl : row.1 = w := by simpa using List.find?_some hrow
    exact .inl ⟨row.2, List.mem_of_find?_eq_some hrow, rfl⟩
  · next hnone =>
    refine .inr ⟨fun i hi => ?_, rfl⟩
    simpa using List.find?_eq_none.1 hnone _ hi

/-- The decoder looks a word up in the opcode map (30_encoding R101, R102). -/
theorem decodeCommand_eq_ok {w : Nat} {i : Instr} : decodeCommand w = .ok i ↔ (w, i) ∈ commandTable := by
  rcases decodeCommand_cases w with ⟨j, hj, hdec⟩ | ⟨hnone, hdec⟩
  · rw [hdec, Except.ok.injEq]
    constructor
    · rintro rfl
      exact hj
    · exact fun hi => congrArg Prod.snd (commandTable_injective hj hi rfl)
  · simp [hdec, hnone i]

/-- Settles O3: the opcode map is looked up by the whole word, and its rows are the commands at their encodings. -/
theorem commandWordExact : Obligations.CommandWordExact :=
  fun _ _ => decodeCommand_eq_ok.trans mem_commandTable

/-- Settles O4, by running the decoder on the words. -/
theorem decodeKnownWords : Obligations.DecodeKnownWords := by
  unfold Obligations.DecodeKnownWords
  decide

/-! ## Illegal words -/

/-- A word that is no command is rejected by name (30_encoding R102). -/
theorem decodeCommand_illegal {w : Nat} (h : ∀ i, decodeCommand w ≠ .ok i) :
    decodeCommand w = .error (.illegalCommand w) := by
  rcases decodeCommand_cases w with ⟨i, -, hi⟩ | ⟨-, herror⟩
  · exact absurd hi (h i)
  · exact herror

/-- A word that is no command names no stream (45_zpf_inflate R328). -/
theorem streamOf_illegal {w : Word} (h : ∀ i, decodeCommand w.toNat ≠ .ok i) (mm : List Region) (m : Memory)
    (o : Operands) : streamOf mm m w o = none := by
  have hinflate : w ≠ inflateWord := by
    rintro rfl
    exact h .zpfInflate rfl
  have hunzip : w ≠ unzipWord := by
    rintro rfl
    exact h .zpfUnzip rfl
  rw [streamOf, if_neg hinflate, if_neg hunzip]

/-- A word that is no command is fetched whole, in either of the two forms of a run (log 7). -/
theorem cduTurn_illegal {s : State} {p : Pending} (hw : p.work = .notBegun)
    (h : ∀ i, decodeCommand p.word.toNat ≠ .ok i) : cduTurn p s = .fetch .command (leBytes 4 p.word.toNat) s := by
  have hinstr : pendingInstr p = none := by
    rw [pendingInstr, decodeCommand_illegal h]
    rfl
  simp [cduTurn, beginTurn, hw, hinstr, streamOf_illegal h]

/-- Fault entry leaves a faulted state with the trap's code and information (60_exceptions R430). -/
theorem takeFault_faultedAs {s : State} {t : Trap} {code info : Nat} (hdone : s.done = false)
    (hcode : trapCode t = BitVec.ofNat 8 code) (hinfo : trapInfo t = BitVec.ofNat 32 info) :
    FaultedAs s (takeFault t s) code info where
  phase := rfl
  done := hdone
  err := rfl
  ovr := rfl
  ecode := hcode
  einfo := hinfo
  irqEn := rfl
  regs := rfl
  dstPos := rfl
  tile := rfl
  platform := ⟨rfl, rfl, rfl, rfl, rfl⟩

/-- Settles O9: the word is fetched, the decoder rejects it, and fault entry touches no memory and no window. -/
theorem illegalWordFaults : Obligations.IllegalWordFaults := by
  intro s p hn hw hdone hillegal
  have hdec : decode .command (leBytes 4 p.word.toNat) = .error (.illegalCommand p.word.toNat) :=
    (decode_command_leBytes p.word).trans (decodeCommand_illegal hillegal)
  refine ⟨takeFault (.illegalOp p.word.toNat) s, ?_, takeFault_faultedAs hdone rfl rfl, rfl, rfl⟩
  rw [step_eq_outcome, nextTurn_cdu hn, cduTurn_illegal hw hillegal]
  simp [Turn.outcome, hdec, decodeTrap]

end Sys2Proof.Machine
end

section
/-! Decoding the encoding of a well-formed instruction gives it back (30_encoding R100, R101, R111 to R117). A BC7 block
is a list of packed fields: unpacking inverts packing, and the mode is the least set bit. -/

namespace Sys2Proof.Machine

/-! ## Packed fields -/

/-- The values are as many as the widths and each fits its width (30_encoding R112). -/
def FitsWidths (ws vs : List Nat) : Prop := List.Forall₂ (fun w v => v < 2 ^ w) ws vs

theorem FitsWidths.append {ws ws' vs vs' : List Nat} (h : FitsWidths ws vs) (h' : FitsWidths ws' vs') :
    FitsWidths (ws ++ ws') (vs ++ vs') :=
  List.rel_append h h'

/-- Fields of one width fit when the check of `wellFormed` passes. -/
theorem fitsWidths_of_fieldsFit {count width : Nat} {vs : List Nat} (h : fieldsFit count width vs = true) :
    FitsWidths (List.replicate count width) vs := by
  simp only [fieldsFit, Bool.and_eq_true, beq_iff_eq, List.all_eq_true, decide_eq_true_eq] at h
  obtain ⟨rfl, hfit⟩ := h
  induction vs with
  | nil => exact .nil
  | cons v vs ih => exact .cons (hfit v (by simp)) (ih fun x hx => hfit x (by simp [hx]))

/-- Unpacking inverts packing where each value fits its field (30_encoding R112; 42_bcd_bc7 R224). -/
theorem unpack_pack {ws vs : List Nat} (h : FitsWidths ws vs) : unpack ws (pack (ws.zip vs)) = vs := by
  induction h with
  | nil => rfl
  | @cons w v ws vs hv _ ih =>
    have hlow : (v % 2 ^ w + 2 ^ w * pack (ws.zip vs)) % 2 ^ w = v := by
      rw [Nat.add_mul_mod_self_left, Nat.mod_mod, Nat.mod_eq_of_lt hv]
    have hhigh : (v % 2 ^ w + 2 ^ w * pack (ws.zip vs)) / 2 ^ w = pack (ws.zip vs) := by
      rw [Nat.add_mul_div_left _ _ (by positivity), Nat.div_eq_of_lt (Nat.mod_lt _ (by positivity)), Nat.zero_add]
    rw [List.zip_cons_cons, pack, unpack, hlow, hhigh, ih]

/-! ## The fields of a BC7 block -/

/-- The fields of a well-formed block fit their widths, in the order of R112. -/
theorem bc7Values_fit {m : Nat} {f : Bc7Fields} (h : bc7FieldsOk m f = true) :
    FitsWidths (bc7Widths m) (bc7Values m f) := by
  simp only [bc7FieldsOk, bc7HeaderFits, bc7EndpointsFit, bc7IndicesFit, Bool.and_eq_true, decide_eq_true_eq] at h
  obtain ⟨⟨⟨⟨hpart, hrot⟩, hisel⟩, ⟨⟨⟨hr, hg⟩, hb⟩, ha⟩, hp⟩, hidx1, hidx2⟩ := h
  have hmode : 2 ^ m < 2 ^ (m + 1) := Nat.pow_lt_pow_right (by decide) (Nat.lt_succ_self m)
  have hheader : FitsWidths [m + 1, (bc7Params m).pb, (bc7Params m).rb, (bc7Params m).isb]
      [2 ^ m, f.part, f.rot, f.isel] := .cons hmode (.cons hpart (.cons hrot (.cons hisel .nil)))
  have hindices : FitsWidths [bc7Idx1Width (bc7Params m), bc7Idx2Width (bc7Params m)] [f.idx1, f.idx2] :=
    .cons hidx1 (.cons hidx2 .nil)
  exact (((((hheader.append (fitsWidths_of_fieldsFit hr)).append (fitsWidths_of_fieldsFit hg)).append
    (fitsWidths_of_fieldsFit hb)).append (fitsWidths_of_fieldsFit ha)).append (fitsWidths_of_fieldsFit hp)).append
    hindices

/-- Reading a piece of a list: the `n` entries from place `i` on. -/
theorem take_drop_middle {l pre xs post : List Nat} {i n : Nat} (hl : l = pre ++ xs ++ post) (hi : pre.length = i)
    (hn : xs.length = n) : (l.drop i).take n = xs := by
  rw [hl, List.append_assoc, List.drop_left' hi, List.take_left' hn]

/-- Reading one entry of a list. -/
theorem getD_middle {l pre post : List Nat} {v i : Nat} (hl : l = pre ++ v :: post) (hi : pre.length = i) :
    l.getD i 0 = v := by
  subst hl hi
  simp

/-- The fields read from a well-formed block are the fields it was packed from (42_bcd_bc7 R224 to R227). -/
theorem bc7FieldsOf_encodeBc7 {m : Nat} {f : Bc7Fields} (h : bc7FieldsOk m f = true) :
    bc7FieldsOf m (encodeBc7 m f) = f := by
  have hvalues : unpack (bc7Widths m) (encodeBc7 m f) = bc7Values m f := unpack_pack (bc7Values_fit h)
  simp only [bc7FieldsOk, bc7EndpointsFit, fieldsFit, Bool.and_eq_true, beq_iff_eq] at h
  obtain ⟨⟨-, ⟨⟨⟨⟨hr, -⟩, hg, -⟩, hb, -⟩, ha, -⟩, hp, -⟩, -⟩ := h
  obtain ⟨part, rot, isel, r, g, b, a, p, idx1, idx2⟩ := f
  simp only at hr hg hb ha hp
  rw [bc7FieldsOf, hvalues, Bc7Fields.mk.injEq]
  refine ⟨rfl, rfl, rfl, ?red, ?green, ?blue, ?alpha, ?pbits, ?indices, ?indices2⟩
  case red =>
    exact take_drop_middle (pre := [2 ^ m, part, rot, isel]) (post := g ++ b ++ a ++ p ++ [idx1, idx2])
      (by simp [bc7Values]) rfl hr
  case green =>
    exact take_drop_middle (pre := [2 ^ m, part, rot, isel] ++ r) (post := b ++ a ++ p ++ [idx1, idx2])
      (by simp [bc7Values]) (by simp; omega) hg
  case blue =>
    exact take_drop_middle (pre := [2 ^ m, part, rot, isel] ++ r ++ g) (post := a ++ p ++ [idx1, idx2])
      (by simp [bc7Values]) (by simp; omega) hb
  case alpha =>
    exact take_drop_middle (pre := [2 ^ m, part, rot, isel] ++ r ++ g ++ b) (post := p ++ [idx1, idx2])
      (by simp [bc7Values]) (by simp; omega) ha
  case pbits =>
    exact take_drop_middle (pre := [2 ^ m, part, rot, isel] ++ r ++ g ++ b ++ a) (post := [idx1, idx2])
      (by simp [bc7Values]) (by simp; omega) hp
  case indices =>
    exact getD_middle (pre := [2 ^ m, part, rot, isel] ++ r ++ g ++ b ++ a ++ p) (post := [idx2])
      (by simp [bc7Values]) (by simp; omega)
  case indices2 =>
    exact getD_middle (pre := [2 ^ m, part, rot, isel] ++ r ++ g ++ b ++ a ++ p ++ [idx1]) (post := [])
      (by simp [bc7Values]) (by simp; omega)

/-! ## The mode bits -/

/-- The lowest bits of a block are its mode bits, `1 << m` (30_encoding R111). -/
theorem encodeBc7_modeBits (m : Nat) (f : Bc7Fields) : ∃ rest, encodeBc7 m f = 2 ^ m + 2 ^ (m + 1) * rest := by
  have hmode : 2 ^ m % 2 ^ (m + 1) = 2 ^ m := Nat.mod_eq_of_lt (Nat.pow_lt_pow_right (by decide) (Nat.lt_succ_self m))
  refine ⟨pack ((bc7Widths m).tail.zip (bc7Values m f).tail), ?_⟩
  conv_rhs => rw [← hmode]
  rfl

/-- Bit `m` is the least set bit of a number that starts with the mode bits `1 << m`. -/
theorem bitAt_modeBits {m j : Nat} (rest : Nat) (hj : j ≤ m) :
    bitAt (2 ^ m + 2 ^ (m + 1) * rest) j = if j = m then 1 else 0 := by
  obtain ⟨k, rfl⟩ := Nat.exists_eq_add_of_le hj
  have hshift : (2 ^ (j + k) + 2 ^ (j + k + 1) * rest) >>> j = 2 ^ k * (1 + 2 * rest) := by
    rw [Nat.shiftRight_eq_div_pow]
    exact Nat.div_eq_of_eq_mul_right (by positivity) (by ring)
  rw [bitAt, hshift]
  cases k with
  | zero => simp
  | succ k => simp [pow_succ, Nat.mul_mod, mul_comm]

/-- The mode read from a block is the one it was encoded with (42_bcd_bc7 R221). -/
theorem bc7ModeOf_encodeBc7 {m : Nat} (hm : m < 8) (f : Bc7Fields) : bc7ModeOf (encodeBc7 m f) = some m := by
  obtain ⟨rest, hrest⟩ := encodeBc7_modeBits m f
  rw [bc7ModeOf, hrest, List.find?_range_eq_some]
  refine ⟨by simp [bitAt_modeBits], by simpa using hm, fun j hj => ?_⟩
  simp [bitAt_modeBits rest hj.le, hj.ne]

/-! ## The decoder on encodings -/

/-- The decoder reads back a value that fits the bytes it is given in. -/
theorem leAt_leBytes {n v : Nat} (h : v < 256 ^ n) : leAt (leBytes n v) 0 n = v := by
  have hall : (leBytes n v).take n = leBytes n v := List.take_of_length_le (by simp)
  rw [leAt, List.drop_zero, hall, leNat_leBytes, Nat.mod_eq_of_lt h]

/-- A command is decoded from its word (30_encoding R100 to R102). -/
theorem decode_encode_command {i : Instr} (h : formatOf i = .command) : decode (formatOf i) (encode i) = .ok i := by
  have hfits : encodeValue i < 256 ^ 4 := by
    have hrows : ∀ row ∈ commandTable, row.1 < 256 ^ 4 := by decide
    exact hrows _ (mem_commandTable.2 ⟨h, rfl⟩)
  have hdec : decodeCommand (encodeValue i) = .ok i := decodeCommand_eq_ok.2 (mem_commandTable.2 ⟨h, rfl⟩)
  simp [encode, h, formatBytes, decode, leAt_leBytes hfits, hdec]

/-- A block value is decoded from its sixteen bytes (30_encoding R111). -/
theorem decode_bc7Block_leBytes {v : Nat} (h : v < 2 ^ 128) : decode .bc7Block (leBytes 16 v) = .ok (decodeBc7 v) := by
  rw [decode_bc7Block (leBytes_length 16 v), leAt_leBytes (h.trans_eq (by norm_num))]

/-- A block of each of the eight modes is decoded from its sixteen bytes (30_encoding R111 to R114). -/
theorem decode_encodeBc7 {m : Nat} {f : Bc7Fields} (hm : m < 8) (h : bc7FieldsOk m f = true) :
    decode .bc7Block (leBytes 16 (encodeBc7 m f)) = .ok (bc7Instr m f) := by
  have hsum : ∀ m < 8, (bc7Widths m).sum = 128 := by decide
  rw [decode_bc7Block_leBytes (Laws.EncodeFits.encodeBc7_lt m f (hsum m hm)), decodeBc7, bc7ModeOf_encodeBc7 hm f]
  simp only [bc7FieldsOf_encodeBc7 h]

/-- A reserved block keeps its ignored bits (30_encoding R115). -/
theorem decodeBc7_reserved (x : BitVec 120) : decodeBc7 (256 * x.toNat) = .bc7Reserved x := by
  have hmode : bc7ModeOf (256 * x.toNat) = none := by
    rw [bc7ModeOf, List.find?_eq_none]
    intro j hj
    obtain ⟨k, hk⟩ : ∃ k, 8 = j + (k + 1) := Nat.exists_eq_add_of_lt (by simpa using hj)
    have hbyte : 256 * x.toNat = 2 ^ j * (2 ^ (k + 1) * x.toNat) := by
      rw [← mul_assoc, ← pow_add, ← hk]
      rfl
    simp [bitAt, Nat.shiftRight_eq_div_pow, hbyte, pow_succ', mul_assoc]
  simp [decodeBc7, hmode]

/-- Each of the four DEFLATE headers is decoded from its three bits (30_encoding R117). -/
theorem decode_encodeDeflate (fin : Bool) :
    ∀ i ∈ [Instr.deflateStored fin, .deflateFixed fin, .deflateDynamic fin, .deflateReserved fin],
      decode .deflateHeader (encode i) = .ok i := by
  cases fin <;> decide

/-- Settles O1: the commands by the opcode map, the blocks of a mode by unpacking what was packed, the reserved block
and the headers by their fixed widths. -/
theorem decodeEncodeRoundTrip : Obligations.DecodeEncodeRoundTrip := by
  intro i h
  match hfmt : formatOf i with
  | .command => exact hfmt ▸ decode_encode_command hfmt
  | .bc7Block =>
    cases i <;> cases hfmt
    case bc7Mode0 f => exact decode_encodeBc7 (m := 0) (by decide) h
    case bc7Mode1 f => exact decode_encodeBc7 (m := 1) (by decide) h
    case bc7Mode2 f => exact decode_encodeBc7 (m := 2) (by decide) h
    case bc7Mode3 f => exact decode_encodeBc7 (m := 3) (by decide) h
    case bc7Mode4 f => exact decode_encodeBc7 (m := 4) (by decide) h
    case bc7Mode5 f => exact decode_encodeBc7 (m := 5) (by decide) h
    case bc7Mode6 f => exact decode_encodeBc7 (m := 6) (by decide) h
    case bc7Mode7 f => exact decode_encodeBc7 (m := 7) (by decide) h
    case bc7Reserved x =>
      exact (decode_bc7Block_leBytes (Laws.EncodeFits.bc7Reserved x h)).trans (congrArg _ (decodeBc7_reserved x))
  | .deflateHeader =>
    cases i <;> cases hfmt
    case deflateStored fin => exact decode_encodeDeflate fin _ (by simp)
    case deflateFixed fin => exact decode_encodeDeflate fin _ (by simp)
    case deflateDynamic fin => exact decode_encodeDeflate fin _ (by simp)
    case deflateReserved fin => exact decode_encodeDeflate fin _ (by simp)

end Sys2Proof.Machine
end

section
/-! A command carried out on its operands (10_state R39; log 12): the state its rule starts from, which is the same in
both forms of `exec` but for `DONE` and the held windows, and what the state after its end says against the state
before. -/

namespace Sys2Proof.Machine

/-- The state a command's rule is evaluated in: a pending command's own, or the one that writing its word in IDLE
makes (log 12). -/
def atStart (r : Rule) (s : State) : State :=
  match s.phase with
  | .idle => { s with done := false, held := r.windows s.regs ++ s.held }
  | .busy _ => s

theorem atStart_idle {r : Rule} {s : State} (h : s.phase = .idle) :
    atStart r s = { s with done := false, held := r.windows s.regs ++ s.held } := by
  simp [atStart, h]

theorem atStart_busy {r : Rule} {s : State} {p : Pending} (h : s.phase = .busy p) : atStart r s = s := by
  simp [atStart, h]

@[simp] theorem atStart_regs (r : Rule) (s : State) : (atStart r s).regs = s.regs := by unfold atStart; split <;> rfl
@[simp] theorem atStart_irqEn (r : Rule) (s : State) : (atStart r s).irqEn = s.irqEn := by unfold atStart; split <;> rfl
@[simp] theorem atStart_err (r : Rule) (s : State) : (atStart r s).err = s.err := by unfold atStart; split <;> rfl
@[simp] theorem atStart_ovr (r : Rule) (s : State) : (atStart r s).ovr = s.ovr := by unfold atStart; split <;> rfl
@[simp] theorem atStart_ecode (r : Rule) (s : State) : (atStart r s).ecode = s.ecode := by unfold atStart; split <;> rfl
@[simp] theorem atStart_einfo (r : Rule) (s : State) : (atStart r s).einfo = s.einfo := by unfold atStart; split <;> rfl
@[simp] theorem atStart_tile (r : Rule) (s : State) : (atStart r s).tile = s.tile := by unfold atStart; split <;> rfl
@[simp] theorem atStart_mem (r : Rule) (s : State) : (atStart r s).mem = s.mem := by unfold atStart; split <;> rfl
@[simp] theorem atStart_memMap (r : Rule) (s : State) : (atStart r s).memMap = s.memMap := by
  unfold atStart; split <;> rfl
@[simp] theorem atStart_regBase (r : Rule) (s : State) : (atStart r s).regBase = s.regBase := by
  unfold atStart; split <;> rfl
@[simp] theorem atStart_rst (r : Rule) (s : State) : (atStart r s).rst = s.rst := by unfold atStart; split <;> rfl
@[simp] theorem atStart_hostIn (r : Rule) (s : State) : (atStart r s).hostIn = s.hostIn := by
  unfold atStart; split <;> rfl
@[simp] theorem atStart_busData (r : Rule) (s : State) : (atStart r s).busData = s.busData := by
  unfold atStart; split <;> rfl

/-- An entitled set that is wholly valid rules `BUS_ERROR`'s choice out at the start of the run (60_exceptions R429). -/
theorem busChoice_atStart {r : Rule} {s : State} {o : Operands} (h : entitledValid r o s) :
    busChoice r o (atStart r s) = none :=
  busChoice_of_valid (by rw [atStart_memMap]; exact h)

section Command

variable {i : Instr} {r : Rule} {s : State} {o : Operands} (hat : atCommand s o)

include hat

/-- `DONE` is 0 while a command runs (47_system_commands R404). -/
theorem atStart_done : (atStart r s).done = false := by
  obtain ⟨-, -, hphase⟩ := hat
  cases hp : s.phase with
  | idle => rw [atStart_idle hp]
  | busy p =>
    rw [hp] at hphase
    obtain ⟨-, hdone⟩ := hphase
    rw [atStart_busy hp, hdone]

/-- Both forms of a command evaluate its rule on the operands (log 12). -/
theorem exec_atCommand (hr : ruleOf i = some r) : exec i s = .next (endCommand r o (atStart r s)) := by
  obtain ⟨herr, rfl, hphase⟩ := hat
  rw [exec_ruleOf hr]
  cases hp : s.phase with
  | idle => rw [runRule_idle hp herr, atStart_idle hp]
  | busy p =>
    rw [hp] at hphase
    obtain ⟨hops, -⟩ := hphase
    rw [runRule_busy hp, atStart_busy hp, hops]

/-- A command whose checks pass, whose entitled set is valid and whose run finishes completes (60_exceptions R429). -/
theorem exec_finishes (hr : ruleOf i = some r) (hcheck : r.check o = none) (hvalid : entitledValid r o s) {f : Finished}
    (hrun : r.run s.memMap o s.mem = .ok f) : exec i s = .next (finishCommand r o f (atStart r s)) := by
  rw [exec_atCommand hat hr, endCommand_ok hcheck (busChoice_atStart hvalid) (by simpa using hrun)]

/-- A command whose checks pass, whose entitled set is valid and whose run faults ends with that fault. -/
theorem exec_faults (hr : ruleOf i = some r) (hcheck : r.check o = none) (hvalid : entitledValid r o s) {t : Trap}
    (hrun : r.run s.memMap o s.mem = .error t) : exec i s = .next (faultRunning r o t (atStart r s)) := by
  rw [exec_atCommand hat hr, endCommand_error hcheck (busChoice_atStart hvalid) (by simpa using hrun)]

/-- A command that ends with no fault recorded passed its checks, and its run finished. -/
theorem exec_finished (hr : ruleOf i = some r) {t : State} (hexec : exec i s = .next t) (herr : t.err = false) :
    r.check o = none ∧ ∃ f, r.run s.memMap o s.mem = .ok f ∧ t = finishCommand r o f (atStart r s) := by
  rw [exec_atCommand hat hr, Host.Outcome.next.injEq] at hexec
  subst hexec
  obtain ⟨hstart, f, hrun, hend⟩ := endCommand_completed herr
  exact ⟨check_of_startFault_none hstart, f, by simpa using hrun, hend⟩

/-- What completion leaves of the state before the command (10_state R39). -/
theorem finishCommand_completedAs (f : Finished) :
    CompletedAs s (finishCommand r o f (atStart r s)) f.used f.dstPos (complete o f s).tile := by
  obtain ⟨herr, rfl, -⟩ := hat
  constructor
  case platform => constructor <;> simp
  case tile => simp [complete]
  all_goals simp [herr]

/-- What a fault met while running leaves of the state before the command (60_exceptions R430). -/
theorem faultRunning_faultedAs {t : Trap} {code info : Nat} (hcode : trapCode t = BitVec.ofNat 8 code)
    (hinfo : trapInfo t = BitVec.ofNat 32 info) : FaultedAs s (faultRunning r o t (atStart r s)) code info where
  phase := by simp
  done := by simpa using atStart_done hat
  err := by simp
  ovr := by simp
  ecode := by simpa using hcode
  einfo := by simpa using hinfo
  irqEn := by simp
  regs := by simp
  dstPos := by simp
  tile := by simp
  platform := by constructor <;> simp

end Command

end Sys2Proof.Machine
end

section
/-! The plane a BCD decode command writes (40_bcd_common_bc1 R152 to R155): each texel of the plane belongs to one place of
one tile, distinct texels share no byte, and the start checks keep the plane's extent clear of the source. -/

namespace Sys2Proof.Machine

/-! ## The plane -/

/-- The tile that holds the texel at column `x`, row `y` (R153). -/
def tileAt (o : Operands) (x y : Nat) : Nat := y / 4 * tilesX o + x / 4

/-- The place of the texel at column `x`, row `y` in its tile (R155). -/
def placeInTile (x y : Nat) : Nat := 4 * (y % 4) + x % 4

section Plane

variable {o : Operands} {x y : Nat}

theorem placeInTile_lt (x y : Nat) : placeInTile x y < 16 := by
  unfold placeInTile
  omega

theorem column_lt_tilesX (hx : x < planeWidth o) : x / 4 < tilesX o := by
  unfold tilesX ceilDiv
  omega

theorem tileAt_lt (hx : x < planeWidth o) (hy : y < planeHeight o) : tileAt o x y < tileCount o := by
  have hcolumn := column_lt_tilesX hx
  have hrow : y / 4 < ceilDiv (planeHeight o) 4 := by
    unfold ceilDiv
    omega
  calc tileAt o x y < (y / 4 + 1) * tilesX o := by rw [tileAt, Nat.add_one_mul]; omega
    _ ≤ ceilDiv (planeHeight o) 4 * tilesX o := Nat.mul_le_mul_right _ hrow
    _ = tileCount o := Nat.mul_comm _ _

/-- The place of a texel in its tile is at the texel's column. -/
theorem texelX_tileAt (hx : x < planeWidth o) : texelX o (tileAt o x y) (placeInTile x y) = x := by
  have hcolumn : tileAt o x y % tilesX o = x / 4 := by
    rw [tileAt, Nat.mul_add_mod_self_right, Nat.mod_eq_of_lt (column_lt_tilesX hx)]
  rw [texelX, hcolumn, placeInTile]
  omega

/-- The place of a texel in its tile is at the texel's row. -/
theorem texelY_tileAt (hx : x < planeWidth o) : texelY o (tileAt o x y) (placeInTile x y) = y := by
  have hcolumn := column_lt_tilesX hx
  have hrow : tileAt o x y / tilesX o = y / 4 := by
    rw [tileAt, Nat.mul_comm, Nat.mul_add_div (by omega), Nat.div_eq_of_lt hcolumn, Nat.add_zero]
  rw [texelY, hrow, placeInTile]
  omega

/-- No other place of any tile is at the same column and row. -/
theorem eq_tileAt {k i : Nat} (hi : i < 16) (hx : texelX o k i = x) (hy : texelY o k i = y) :
    k = tileAt o x y ∧ i = placeInTile x y := by
  unfold texelX at hx
  unfold texelY at hy
  have hcolumn : x / 4 = k % tilesX o := by omega
  have hrow : y / 4 = k / tilesX o := by omega
  refine ⟨?_, by unfold placeInTile; omega⟩
  rw [tileAt, hcolumn, hrow, Nat.mul_comm, Nat.div_add_mod]

/-! ## What the start checks give -/

/-- Rows do not overlap where the plane has texels (R152, `RESOURCE_LIMIT` 6). -/
theorem bcdCheck_stride (h : bcdCheck o = none) (hx : x < planeWidth o) (hy : y < planeHeight o) :
    4 * planeWidth o ≤ o.dstStride.toNat := by
  have hstride := firstTrap_eq_none.1 h
    (decide (planeW o > 0 ∧ planeH o > 0 ∧ o.dstStride.toNat < 4 * planeWidth o), .resourceLimit 6) (by simp)
  simp only [decide_eq_false_iff_not] at hstride
  unfold planeWidth at hx ⊢
  unfold planeHeight at hy
  unfold planeWidth at hstride
  omega

/-- The plane's extent lies in the destination window, which has no byte of the source window (R152). -/
theorem bcdCheck_clear (h : bcdCheck o = none) {a : Nat} (ha : inRange (srcWindow o) a = true) :
    ¬(o.dstBase.toNat ≤ a ∧ a < o.dstBase.toNat + planeExtent o) := by
  have hextent := firstTrap_eq_none.1 h (decide (planeExtent o > o.dstLen.toNat), .resourceLimit 7) (by simp)
  have hoverlap := firstTrap_eq_none.1 h (anyOverlap [srcWindow o, dstWindow o], .overlap) (by simp)
  simp only [decide_eq_false_iff_not] at hextent
  simp only [anyOverlap_pair] at hoverlap
  have hdst := not_inRange_of_not_overlap hoverlap ha
  rw [Bool.eq_false_iff, ne_eq, inRange_iff] at hdst
  simp only [dstWindow] at hdst
  omega

/-- Two texels of the plane share no byte (R155). -/
theorem texelAddr_apart {x' y' : Nat} (hstride : 4 * planeWidth o ≤ o.dstStride.toNat) (hx : x < planeWidth o)
    (hx' : x' < planeWidth o) (hne : ¬(x' = x ∧ y' = y)) :
    texelAddr o x y + 4 ≤ texelAddr o x' y' ∨ texelAddr o x' y' + 4 ≤ texelAddr o x y := by
  have hrows : ∀ {y y' : Nat}, y < y' → y * o.dstStride.toNat + o.dstStride.toNat ≤ y' * o.dstStride.toNat :=
    fun {y y'} h => (Nat.add_one_mul y _).symm.trans_le (Nat.mul_le_mul_right _ h)
  unfold texelAddr
  rcases Nat.lt_trichotomy y y' with h | rfl | h
  · have := hrows h
    omega
  · omega
  · have := hrows h
    omega

end Plane

end Sys2Proof.Machine
end

section
/-! The tile loop of a BCD decode command (40_bcd_common_bc1 R153 to R156): it finishes where its blocks are whole and its
addresses valid and faults at the first block that is not whole, and a texel, once stored, is not stored to again. -/

namespace Sys2Proof.Machine

/-! ## One tile -/

section Tile

variable {mm : List Region} {o : Operands} {k i : Nat} {ts : List Texel} {m m' : Memory} {x y : Nat}

/-- A tile whose texels have valid addresses is stored. -/
theorem storeTile_ok (hvalid : allValid mm [⟨o.dstBase.toNat, planeExtent o⟩]) (k i : Nat) (ts : List Texel)
    (m : Memory) : ∃ m', storeTile mm o k i ts m = .ok m' := by
  induction ts generalizing i m with
  | nil => exact ⟨m, rfl⟩
  | cons t ts ih =>
    unfold storeTile
    split
    · next hin =>
      obtain ⟨hx, hy⟩ := hin
      have hextent := texelAddr_in_extent hx hy
      obtain ⟨m1, hm1⟩ := storeBytes_ok (mm := mm) m (a := texelAddr o (texelX o k i) (texelY o k i))
        (bs := [t.r, t.g, t.b, t.a]) fun c hc => by
          refine hvalid _ (List.mem_singleton.2 rfl) _ (inRange_iff.2 ?_)
          simp only [List.length_cons, List.length_nil] at hc ⊢
          omega
      obtain ⟨m', hm'⟩ := ih (i + 1) m1
      exact ⟨m', bind_eq_ok.2 ⟨m1, hm1, hm'⟩⟩
    · exact ih (i + 1) m

/-- A tile with no place at a texel of the plane leaves that texel's bytes alone. -/
theorem storeTile_keeps_texel (h : storeTile mm o k i ts m = .ok m')
    (hstride : 4 * planeWidth o ≤ o.dstStride.toNat) (hx : x < planeWidth o)
    (hother : ∀ j, i ≤ j → j < i + ts.length → ¬(texelX o k j = x ∧ texelY o k j = y)) :
    peekBytes m' (texelAddr o x y) 4 = peekBytes m (texelAddr o x y) 4 := by
  refine peekBytes_congr _ _ _ _ fun c hc => storeTile_frame h fun j hij hj hxj _ => ?_
  have := texelAddr_apart hstride hx hxj (hother j hij hj)
  omega

/-- A stored tile holds its texels, those of the plane, at their addresses (R155). -/
theorem storeTile_peek (h : storeTile mm o k i ts m = .ok m') (hm : m.wf)
    (hstride : 4 * planeWidth o ≤ o.dstStride.toNat) (hlen : i + ts.length ≤ 16) {j : Nat} {t : Texel}
    (ht : ts[j]? = some t) (hxj : texelX o k (i + j) = x) (hyj : texelY o k (i + j) = y) (hx : x < planeWidth o)
    (hy : y < planeHeight o) : peekBytes m' (texelAddr o x y) 4 = [t.r, t.g, t.b, t.a] := by
  induction ts generalizing i j m with
  | nil => cases ht
  | cons t0 ts ih =>
    rw [List.length_cons] at hlen
    cases j with
    | zero =>
      cases ht
      rw [Nat.add_zero] at hxj hyj
      rw [storeTile, if_pos ⟨hxj ▸ hx, hyj ▸ hy⟩, hxj, hyj] at h
      obtain ⟨m1, hstore, hrest⟩ := bind_eq_ok.1 h
      obtain ⟨-, hplace⟩ := eq_tileAt (by omega) hxj hyj
      rw [storeTile_keeps_texel hrest hstride hx fun j hij hj hsame => ?_]
      · exact storeBytes_peek hstore hm
      · obtain ⟨-, hplace'⟩ := eq_tileAt (by omega) hsame.1 hsame.2
        omega
    | succ j =>
      rw [← Nat.add_assoc, Nat.add_right_comm] at hxj hyj
      unfold storeTile at h
      split at h
      · obtain ⟨m1, hstore, hrest⟩ := bind_eq_ok.1 h
        exact ih hrest (storeBytes_wf hstore hm) (by omega) ht hxj hyj
      · exact ih h hm (by omega) ht hxj hyj

end Tile

/-! ## The tile loop -/

section Loop

variable {block : List Byte → List Texel} {size n k : Nat} {mm : List Region} {o : Operands} {m m' : Memory}

/-- A loop of `n + l` tiles is one of `n` tiles and then one of `l`. -/
theorem bcdLoop_add (n l k : Nat) (m : Memory) :
    bcdLoop block size mm o (n + l) k m = bcdLoop block size mm o n k m >>= bcdLoop block size mm o l (k + n) := by
  induction n generalizing k m with
  | zero => rw [Nat.zero_add]; rfl
  | succ n ih =>
    rw [Nat.add_right_comm, bcdLoop, bcdLoop, bind_assoc]
    refine bind_congr fun m1 => ?_
    rw [ih, Nat.add_right_comm, Nat.add_assoc]

/-- The loop goes through tile `j` of the command: the tiles before it, the tile, and the tiles after it. -/
theorem bcdLoop_split {j : Nat} (hj : j < n) :
    bcdLoop block size mm o n 0 m =
      bcdLoop block size mm o j 0 m >>= fun m1 => bcdTile block size mm o j m1 >>=
        bcdLoop block size mm o (n - j - 1) (j + 1) := by
  obtain ⟨l, rfl⟩ := Nat.exists_eq_add_of_lt hj
  rw [Nat.add_assoc, bcdLoop_add, Nat.zero_add, show j + (l + 1) - j - 1 = l by omega]
  rfl

/-- Each block ends where the next begins at the latest (R153). -/
theorem blockOffset_add_le {j l : Nat} (h : j < l) : blockOffset size o j + size ≤ blockOffset size o l := by
  have hblocks : j * size + size ≤ l * size := (Nat.add_one_mul j size).symm.trans_le (Nat.mul_le_mul_right _ h)
  unfold blockOffset
  omega

/-- A block is read exactly where the source holds it whole and its addresses are valid (R153, R154). -/
theorem fetchBlock_eq_ok {bs : List Byte} : fetchBlock size mm o k m = .ok bs ↔
    blockOffset size o k + size ≤ o.srcLen.toNat ∧
      (∀ c < size, memValid mm (o.srcBase.toNat + blockOffset size o k + c) = true) ∧
      bs = peekBytes m (o.srcBase.toNat + blockOffset size o k) size := by
  unfold fetchBlock
  split
  · next hshort => simp [Nat.not_le.2 hshort]
  · next hwhole => simp [readBytes_eq_ok, Nat.not_lt.1 hwhole]

/-- A tile whose block the source holds whole is decoded and stored, where the entitled set is valid. -/
theorem bcdTile_ok (hvalid : allValid mm ((bcdRule block size).source o :: (bcdRule block size).outputs o))
    (hk : k < tileCount o) (hwhole : blockOffset size o k + size ≤ o.srcLen.toNat) (m : Memory) :
    ∃ m', bcdTile block size mm o k m = .ok m' := by
  have hused := blockOffset_add_le (size := size) (o := o) hk
  have hsource : ∀ c < size, memValid mm (o.srcBase.toNat + blockOffset size o k + c) = true := fun c hc => by
    refine hvalid _ List.mem_cons_self _ (inRange_iff.2 ?_)
    simp only [bcdRule, sourceFrom]
    unfold blockOffset at hwhole hused ⊢
    omega
  obtain ⟨m', hm'⟩ := storeTile_ok (fun r hr => hvalid r (List.mem_cons_of_mem _ hr)) k 0
    (block (peekBytes m (o.srcBase.toNat + blockOffset size o k) size)) m
  exact ⟨m', bind_eq_ok.2 ⟨_, fetchBlock_eq_ok.2 ⟨hwhole, hsource, rfl⟩, hm'⟩⟩

/-- The loop finishes over the tiles whose blocks the source holds whole, where the entitled set is valid. -/
theorem bcdLoop_ok (hvalid : allValid mm ((bcdRule block size).source o :: (bcdRule block size).outputs o))
    (hn : k + n ≤ tileCount o) (hwhole : ∀ j < k + n, blockOffset size o j + size ≤ o.srcLen.toNat) (m : Memory) :
    ∃ m', bcdLoop block size mm o n k m = .ok m' := by
  induction n generalizing k m with
  | zero => exact ⟨m, rfl⟩
  | succ n ih =>
    obtain ⟨m1, htile⟩ := bcdTile_ok hvalid (show k < tileCount o by omega) (hwhole k (by omega)) m
    obtain ⟨m', hrest⟩ := ih (k := k + 1) (by omega) (fun j hj => hwhole j (by omega)) m1
    exact ⟨m', bind_eq_ok.2 ⟨m1, htile, hrest⟩⟩

/-- The loop faults at the first tile whose block the source does not hold whole (R154). -/
theorem bcdLoop_truncated (hvalid : allValid mm ((bcdRule block size).source o :: (bcdRule block size).outputs o))
    {j : Nat} (hj : j < tileCount o) (hwhole : ∀ l < j, blockOffset size o l + size ≤ o.srcLen.toNat)
    (hshort : o.srcLen.toNat < blockOffset size o j + size) (m : Memory) :
    bcdLoop block size mm o (tileCount o) 0 m = .error (.truncated (blockOffset size o j)) := by
  obtain ⟨m1, hbefore⟩ := bcdLoop_ok hvalid (k := 0) (n := j) (by omega) (fun l hl => hwhole l (by omega)) m
  have hfetch : fetchBlock size mm o j m1 = .error (.truncated (blockOffset size o j)) := if_pos hshort
  rw [bcdLoop_split hj, hbefore]
  simp [bcdTile, hfetch, bind, Except.bind]

/-- The loop leaves alone every byte that is not of a texel inside the plane (R156). -/
theorem bcdLoop_frame (h : bcdLoop block size mm o n k m = .ok m') {a : Nat}
    (ha : ∀ x y c, x < planeWidth o → y < planeHeight o → c < 4 → a ≠ texelAddr o x y + c) :
    memGet m' a = memGet m a := by
  induction n generalizing k m with
  | zero => cases h; rfl
  | succ n ih =>
    obtain ⟨m1, htile, hrest⟩ := bind_eq_ok.1 h
    obtain ⟨bs, -, hstore⟩ := bind_eq_ok.1 htile
    rw [ih hrest, storeTile_frame hstore fun j _ _ hx hy hin => ?_]
    exact ha _ _ (a - texelAddr o (texelX o k j) (texelY o k j)) hx hy (by omega) (by omega)

/-- The tiles after that of a texel leave the texel's bytes alone. -/
theorem bcdLoop_keeps_texel (hlen : ∀ bs, (block bs).length = 16) (h : bcdLoop block size mm o n k m = .ok m')
    (hstride : 4 * planeWidth o ≤ o.dstStride.toNat) {x y : Nat} (hx : x < planeWidth o) (hk : tileAt o x y < k) :
    peekBytes m' (texelAddr o x y) 4 = peekBytes m (texelAddr o x y) 4 := by
  induction n generalizing k m with
  | zero => cases h; rfl
  | succ n ih =>
    obtain ⟨m1, htile, hrest⟩ := bind_eq_ok.1 h
    obtain ⟨bs, -, hstore⟩ := bind_eq_ok.1 htile
    rw [ih hrest (by omega), storeTile_keeps_texel hstore hstride hx fun j _ hj hsame => ?_]
    rw [hlen] at hj
    obtain ⟨htile', -⟩ := eq_tileAt (by omega) hsame.1 hsame.2
    omega

/-- The block of a tile is read as it stood when the command began: the tiles before it store nothing in the source
window (R153; 20_memory R80). -/
theorem fetchBlock_after_tiles (hcheck : bcdCheck o = none) (h : bcdLoop block size mm o n 0 m = .ok m') {bs : List Byte}
    (hfetch : fetchBlock size mm o k m' = .ok bs) :
    bs = peekBytes m (o.srcBase.toNat + blockOffset size o k) size := by
  obtain ⟨hwhole, -, rfl⟩ := fetchBlock_eq_ok.1 hfetch
  refine peekBytes_congr _ _ _ _ fun c hc => bcdLoop_outside h (bcdCheck_clear hcheck (inRange_iff.2 ?_))
  simp only [srcWindow]
  omega

/-- After the whole loop every texel of the plane is that of its place in its tile's block (R153, R155). -/
theorem bcdLoop_texel (hlen : ∀ bs, (block bs).length = 16) (hcheck : bcdCheck o = none) (hm : m.wf)
    (h : bcdLoop block size mm o (tileCount o) 0 m = .ok m') {x y : Nat} (hx : x < planeWidth o)
    (hy : y < planeHeight o) :
    ∃ t, (block (peekBytes m (o.srcBase.toNat + blockOffset size o (tileAt o x y)) size))[placeInTile x y]? = some t ∧
      peekBytes m' (texelAddr o x y) 4 = [t.r, t.g, t.b, t.a] := by
  have hstride := bcdCheck_stride hcheck hx hy
  rw [bcdLoop_split (tileAt_lt hx hy)] at h
  obtain ⟨m1, hbefore, h⟩ := bind_eq_ok.1 h
  obtain ⟨m2, htile, hafter⟩ := bind_eq_ok.1 h
  obtain ⟨bs, hfetch, hstore⟩ := bind_eq_ok.1 htile
  rw [← fetchBlock_after_tiles hcheck hbefore hfetch]
  obtain ⟨t, ht⟩ : ∃ t, (block bs)[placeInTile x y]? = some t :=
    ⟨_, List.getElem?_eq_getElem ((placeInTile_lt x y).trans_eq (hlen bs).symm)⟩
  refine ⟨t, ht, ?_⟩
  rw [bcdLoop_keeps_texel hlen hafter hstride hx (Nat.lt_succ_self _)]
  exact storeTile_peek hstore (bcdLoop_wf hbefore hm) hstride (by rw [hlen]) ht
    (by rw [Nat.zero_add, texelX_tileAt hx]) (by rw [Nat.zero_add, texelY_tileAt hx]) hx hy

end Loop

end Sys2Proof.Machine
end

section
/-! The BCD decode commands (40_bcd_common_bc1 R151, R154, R157): their completion, the picture they leave, and the fault
where the source runs out, each from the tile loop and the two ends of a command. -/

namespace Sys2Proof.Machine

/-! ## Where the source runs out -/

/-- How many whole blocks the source holds from the cursor on (R154). -/
def wholeBlocks (size : Nat) (o : Operands) : Nat := (o.srcLen.toNat - o.srcPos.toNat) / size

section Source

variable {size : Nat} {o : Operands} (hsize : 0 < size)

include hsize

theorem whole_of_lt_wholeBlocks {j : Nat} (hj : j < wholeBlocks size o) :
    blockOffset size o j + size ≤ o.srcLen.toNat := by
  have hfits : (j + 1) * size ≤ o.srcLen.toNat - o.srcPos.toNat := (Nat.le_div_iff_mul_le hsize).1 hj
  rw [Nat.add_one_mul] at hfits
  unfold blockOffset
  omega

theorem short_at_wholeBlocks : o.srcLen.toNat < blockOffset size o (wholeBlocks size o) + size := by
  have hrest : o.srcLen.toNat - o.srcPos.toNat < wholeBlocks size o * size + size := Nat.lt_div_mul_add hsize
  unfold blockOffset
  omega

theorem wholeBlocks_lt {n : Nat} (hn : 0 < n) (hshort : o.srcLen.toNat < o.srcPos.toNat + n * size) :
    wholeBlocks size o < n := by
  have hneeded : 0 < n * size := Nat.mul_pos hn hsize
  exact (Nat.div_lt_iff_lt_mul hsize).2 (by omega)

end Source

/-! ## The commands -/

section Commands

variable {i : Instr} {size : Nat} {block : List Byte → List Texel}

/-- The commands of the statements are the model's rows with a block format (R151). -/
theorem blockFormatOf_of_row (h : (i, size, block) ∈ [(Instr.bcdBc1, 8, bc1Block), (.bcdBc3, 16, bc3Block),
    (.bcdBc4, 8, bc4Block), (.bcdBc5, 16, bc5Block), (.bcdBc7, 16, bc7Block)]) :
    blockFormatOf i = some (size, block) := by
  simp only [List.mem_cons, Prod.mk.injEq, List.not_mem_nil, or_false] at h
  rcases h with ⟨rfl, rfl, rfl⟩ | ⟨rfl, rfl, rfl⟩ | ⟨rfl, rfl, rfl⟩ | ⟨rfl, rfl, rfl⟩ | ⟨rfl, rfl, rfl⟩ <;> rfl

theorem ruleOf_blockFormat (h : blockFormatOf i = some (size, block)) : ruleOf i = some (bcdRule block size) := by
  cases i <;> cases h <;> rfl

theorem blockFormat_size_pos (h : blockFormatOf i = some (size, block)) : 0 < size := by
  cases i <;> cases h <;> decide

theorem blockFormat_length (h : blockFormatOf i = some (size, block)) (bs : List Byte) : (block bs).length = 16 := by
  cases i <;> cases h <;> simp

end Commands

/-- Settles O32: every tile's block is whole, so the tile loop finishes; its frame is that of the stored tiles. -/
theorem bcdCompletes : Obligations.BcdCompletes := by
  intro i size block s o hrow hat hcheck hsource hvalid
  have hrule := ruleOf_blockFormat (blockFormatOf_of_row hrow)
  have hwhole : ∀ j < tileCount o, blockOffset size o j + size ≤ o.srcLen.toNat := fun j hj =>
    (blockOffset_add_le hj).trans (hsource.resolve_left (by omega))
  obtain ⟨m, hloop⟩ := bcdLoop_ok hvalid (k := 0) (n := tileCount o) (by omega) (by simpa using hwhole) s.mem
  refine ⟨_, exec_finishes hat hrule hcheck hvalid (map_eq_ok.2 ⟨m, hloop, rfl⟩), ?_, fun a ha => ?_⟩
  · exact finishCommand_completedAs hat (bcdFinished size o m)
  · exact bcdLoop_frame hloop ha

/-- Settles O33: a completed command ran its whole tile loop, which leaves each texel of the plane in place. -/
theorem bcdPlaneContents : Obligations.BcdPlaneContents := by
  intro i size block s t o hrow hat hm hexec herr x y hx hy
  have hformat := blockFormatOf_of_row hrow
  obtain ⟨hcheck, f, hrun, rfl⟩ := exec_finished hat (ruleOf_blockFormat hformat) hexec herr
  obtain ⟨m, hloop, rfl⟩ := map_eq_ok.1 hrun
  have htexel := bcdLoop_texel (blockFormat_length hformat) hcheck hm hloop hx hy
  rwa [blockOffset, ← Nat.add_assoc] at htexel

/-- Settles O34: the source holds fewer whole blocks than there are tiles, so the loop faults at the first tile past
them. -/
theorem bcdTruncated : Obligations.BcdTruncated := by
  intro i size block s o hrow hat hcheck htiles hshort hvalid
  have hformat := blockFormatOf_of_row hrow
  have hsize := blockFormat_size_pos hformat
  have hloop := bcdLoop_truncated hvalid (wholeBlocks_lt hsize htiles hshort) (fun _ => whole_of_lt_wholeBlocks hsize)
    (short_at_wholeBlocks hsize) s.mem
  have hrun : (bcdRule block size).run s.memMap o s.mem =
      .error (.truncated (blockOffset size o (wholeBlocks size o))) := congrArg (Except.map (bcdFinished size o)) hloop
  refine ⟨_, exec_faults hat (ruleOf_blockFormat hformat) hcheck hvalid hrun, ?_, fun a ha => ?_⟩
  · exact faultRunning_faultedAs hat rfl (by rw [trapInfo, blockOffset, wholeBlocks, Nat.mul_comm])
  · rw [faultRunning_sameOutside _ _ _ _ a ha, atStart_mem]

end Sys2Proof.Machine
end

section
/-! The colours of a BC1 block (40_bcd_common_bc1 R160 to R164): the widening of the 5- and 6-bit fields, the two palettes
as bytes, and the palette entry each texel's two index bits choose. -/

namespace Sys2Proof.Machine

/-! ## Widening (R161) -/

theorem slice_565 (c : Nat) :
    slice c 15 11 = c / 2048 % 32 ∧ slice c 10 5 = c / 32 % 64 ∧ slice c 4 0 = c % 32 := by
  simp [slice, Nat.shiftRight_eq_div_pow]

/-- A 5-bit field is widened by repeating its top three bits (R161). -/
theorem expand5_eq {v : Nat} (h : v < 32) : expand5 v = 8 * v + v / 4 := by
  have hlow : v >>> 2 < 2 ^ 3 := by
    rw [Nat.shiftRight_eq_div_pow]
    omega
  rw [expand5, ← Nat.shiftLeft_add_eq_or_of_lt hlow, Nat.shiftLeft_eq, Nat.shiftRight_eq_div_pow, Nat.mul_comm]

/-- A 6-bit field is widened by repeating its top two bits (R161). -/
theorem expand6_eq {v : Nat} (h : v < 64) : expand6 v = 4 * v + v / 16 := by
  have hlow : v >>> 4 < 2 ^ 2 := by
    rw [Nat.shiftRight_eq_div_pow]
    omega
  rw [expand6, ← Nat.shiftLeft_add_eq_or_of_lt hlow, Nat.shiftLeft_eq, Nat.shiftRight_eq_div_pow, Nat.mul_comm]

theorem expand565_eq (c : Nat) : expand565 c =
    ⟨8 * (c / 2048 % 32) + c / 2048 % 32 / 4, 4 * (c / 32 % 64) + c / 32 % 64 / 16, 8 * (c % 32) + c % 32 / 4⟩ := by
  obtain ⟨hr, hg, hb⟩ := slice_565 c
  rw [expand565, hr, hg, hb, expand5_eq (Nat.mod_lt _ (by decide)), expand6_eq (Nat.mod_lt _ (by decide)),
    expand5_eq (Nat.mod_lt _ (by decide))]

/-! ## Palettes (R162, R163) -/

/-- The three channels of a colour are bytes. -/
def Rgb.Fits (e : Rgb) : Prop := e.r < 256 ∧ e.g < 256 ∧ e.b < 256

theorem expand565_fits (c : Nat) : (expand565 c).Fits := by
  rw [expand565_eq]
  refine ⟨?_, ?_, ?_⟩ <;> dsimp only <;> omega

theorem mkTexel_texelIs {e : Rgb} (h : e.Fits) : texelIs (mkTexel e.r e.g e.b 255) (fun ch => ch e) 255 := by
  obtain ⟨hr, hg, hb⟩ := h
  exact ⟨Nat.mod_eq_of_lt hr, Nat.mod_eq_of_lt hg, Nat.mod_eq_of_lt hb, rfl⟩

/-- A weighted mean of two bytes, rounded down, is a byte. -/
theorem bcInterp_lt {wx wy den x y : Nat} (hw : wx + wy = den) (hden : 0 < den) (hx : x < 256) (hy : y < 256) :
    bcInterp (wx * x + wy * y) den < 256 := by
  refine (Nat.div_lt_iff_lt_mul hden).2 ?_
  calc wx * x + wy * y ≤ wx * 255 + wy * 255 :=
        Nat.add_le_add (Nat.mul_le_mul_left _ (by omega)) (Nat.mul_le_mul_left _ (by omega))
    _ < 256 * den := by omega

theorem bc1Mix_texelIs {wx wy den : Nat} (hw : wx + wy = den) (hden : 0 < den) {e0 e1 : Rgb} (h0 : e0.Fits)
    (h1 : e1.Fits) : texelIs (bc1Mix wx wy den e0 e1) (fun ch => (wx * ch e0 + wy * ch e1) / den) 255 := by
  obtain ⟨hr0, hg0, hb0⟩ := h0
  obtain ⟨hr1, hg1, hb1⟩ := h1
  exact ⟨Nat.mod_eq_of_lt (bcInterp_lt hw hden hr0 hr1), Nat.mod_eq_of_lt (bcInterp_lt hw hden hg0 hg1),
    Nat.mod_eq_of_lt (bcInterp_lt hw hden hb0 hb1), rfl⟩

/-- The four-colour palette: the endpoints and their thirds, all opaque (R162). -/
theorem bc1Four_texels {e0 e1 : Rgb} (h0 : e0.Fits) (h1 : e1.Fits) : ∃ p0 p1 p2 p3,
    bc1Four e0 e1 = [p0, p1, p2, p3] ∧ texelIs p0 (fun ch => ch e0) 255 ∧ texelIs p1 (fun ch => ch e1) 255 ∧
      texelIs p2 (fun ch => (2 * ch e0 + ch e1) / 3) 255 ∧ texelIs p3 (fun ch => (ch e0 + 2 * ch e1) / 3) 255 :=
  ⟨_, _, _, _, rfl, mkTexel_texelIs h0, mkTexel_texelIs h1,
    by simpa using bc1Mix_texelIs (wx := 2) (wy := 1) rfl (by decide) h0 h1,
    by simpa using bc1Mix_texelIs (wx := 1) (wy := 2) rfl (by decide) h0 h1⟩

/-- The three-colour palette: the endpoints, their half and transparent black (R163). -/
theorem bc1Three_texels {e0 e1 : Rgb} (h0 : e0.Fits) (h1 : e1.Fits) : ∃ p0 p1 p2,
    bc1Three e0 e1 = [p0, p1, p2, ⟨0, 0, 0, 0⟩] ∧ texelIs p0 (fun ch => ch e0) 255 ∧
      texelIs p1 (fun ch => ch e1) 255 ∧ texelIs p2 (fun ch => (ch e0 + ch e1) / 2) 255 :=
  ⟨_, _, _, rfl, mkTexel_texelIs h0, mkTexel_texelIs h1,
    by simpa using bc1Mix_texelIs (wx := 1) (wy := 1) rfl (by decide) h0 h1⟩

/-- An opaque texel's alpha byte. -/
theorem texelIs_opaque {t : Texel} {f : (Rgb → Nat) → Nat} (h : texelIs t f 255) : t.a = 255 := by
  obtain ⟨-, -, -, ha⟩ := h
  exact BitVec.eq_of_toNat_eq ha

/-! ## Index lookup (R164) -/

theorem slice_pair_lt (v i : Nat) : slice v (2 * i + 1) (2 * i) < 4 := by
  rw [slice, show 2 * i + 1 + 1 - 2 * i = 2 by omega]
  exact Nat.mod_lt _ (by decide)

/-- Texel `i` is the palette entry of its two index bits (R164). -/
theorem bc1Color_getElem? (bs : List Byte) (allow3 : Bool) {i : Nat} (hi : i < 16) :
    (bc1Color bs allow3)[i]? = some ((bc1Palette (leAt bs 0 2) (leAt bs 2 2) allow3).getD
      (slice (leAt bs 4 4) (2 * i + 1) (2 * i)) noTexel) := by
  simp [bc1Color, hi]

/-- The palette of a BC1 block with `c0 > c1`. -/
theorem bc1Palette_four {c0 c1 : Nat} (h : c0 > c1) (allow3 : Bool) :
    bc1Palette c0 c1 allow3 = bc1Four (expand565 c0) (expand565 c1) :=
  if_pos (.inl h)

/-- The palette of a BC1 block with `c0 ≤ c1`. -/
theorem bc1Palette_three {c0 c1 : Nat} (h : c0 ≤ c1) :
    bc1Palette c0 c1 true = bc1Three (expand565 c0) (expand565 c1) :=
  if_neg (by simp [h])

/-- Settles O35: the widening, the two palettes entry by entry, and the entry a texel's index chooses in the palette that
the order of the endpoints chooses. -/
theorem bc1AlphaRule : Obligations.Bc1AlphaRule := by
  refine ⟨expand565_eq, fun e0 e1 hfits => ?_, fun bs i e0 e1 k hi he0 he1 hk => ?_⟩
  · simp only [List.mem_cons, List.not_mem_nil, or_false, forall_eq_or_imp, forall_eq] at hfits
    obtain ⟨⟨hr0, hr1⟩, ⟨hg0, hg1⟩, hb0, hb1⟩ := hfits
    exact bc1Four_texels ⟨hr0, hg0, hb0⟩ ⟨hr1, hg1, hb1⟩
  · have h0 : e0.Fits := he0 ▸ expand565_fits _
    have h1 : e1.Fits := he1 ▸ expand565_fits _
    have hk4 : k < 4 := hk ▸ slice_pair_lt _ _
    refine ⟨_, bc1Color_getElem? bs true hi, hk4, ?_⟩
    rw [← hk]
    rcases Nat.lt_or_ge (leAt bs 2 2) (leAt bs 0 2) with hord | hord
    · obtain ⟨p0, p1, p2, p3, hpal, hp0, hp1, hp2, hp3⟩ := bc1Four_texels h0 h1
      rw [bc1Palette_four hord, ← he0, ← he1, hpal]
      interval_cases k
      · simp [hord, Nat.not_le.2 hord, hp0, texelIs_opaque hp0]
      · simp [hord, Nat.not_le.2 hord, hp1, texelIs_opaque hp1]
      · simp [hord, Nat.not_le.2 hord, hp2, texelIs_opaque hp2]
      · simp [hord, Nat.not_le.2 hord, hp3, texelIs_opaque hp3]
    · obtain ⟨p0, p1, p2, hpal, hp0, hp1, hp2⟩ := bc1Three_texels h0 h1
      rw [bc1Palette_three hord, ← he0, ← he1, hpal]
      interval_cases k
      · simp [hord, Nat.not_lt.2 hord, hp0, texelIs_opaque hp0]
      · simp [hord, Nat.not_lt.2 hord, hp1, texelIs_opaque hp1]
      · simp [hord, Nat.not_lt.2 hord, hp2, texelIs_opaque hp2]
      · simp [hord, Nat.not_lt.2 hord]

end Sys2Proof.Machine
end

section
/-! The alpha block and the BC3, BC4 and BC5 blocks made of it (41_bcd_bc3_bc4_bc5 R190 to R211): the eight values, the
one a texel's three index bits choose, and where each block puts it. -/

namespace Sys2Proof.Machine

/-! ## The table of values (R191 to R193) -/

/-- The values an alpha block chooses from; the order of the endpoints says which table it is (R191). -/
def alphaTable (a0 a1 : Nat) : List Nat := if a0 > a1 then alphaEight a0 a1 else alphaSix a0 a1

theorem alphaTable_eight {a0 a1 : Nat} (h : a0 > a1) : alphaTable a0 a1 = alphaEight a0 a1 := if_pos h

theorem alphaTable_six {a0 a1 : Nat} (h : a0 ≤ a1) : alphaTable a0 a1 = alphaSix a0 a1 := if_neg (Nat.not_lt.2 h)

/-- Both tables begin with the endpoints. -/
theorem alphaTable_endpoints (a0 a1 : Nat) : (alphaTable a0 a1).getD 0 0 = a0 ∧ (alphaTable a0 a1).getD 1 0 = a1 := by
  unfold alphaTable
  split <;> exact ⟨rfl, rfl⟩

/-- The sevenths (R192). -/
theorem alphaEight_getD {k : Nat} (h2 : 2 ≤ k) (h8 : k < 8) (a0 a1 : Nat) :
    (alphaEight a0 a1).getD k 0 = bcInterp ((8 - k) * a0 + (k - 1) * a1) 7 := by
  interval_cases k <;> rfl

/-- The fifths (R193). -/
theorem alphaSix_getD {k : Nat} (h2 : 2 ≤ k) (h5 : k ≤ 5) (a0 a1 : Nat) :
    (alphaSix a0 a1).getD k 0 = bcInterp ((6 - k) * a0 + (k - 1) * a1) 5 := by
  interval_cases k <;> rfl

/-- The constants of the second table (R193). -/
theorem alphaSix_constants (a0 a1 : Nat) : (alphaSix a0 a1).getD 6 0 = 0 ∧ (alphaSix a0 a1).getD 7 0 = 255 :=
  ⟨rfl, rfl⟩

/-- Between two bytes every value is a byte. -/
theorem alphaTable_getD_lt {a0 a1 k : Nat} (h0 : a0 < 256) (h1 : a1 < 256) (hk : k < 8) :
    (alphaTable a0 a1).getD k 0 < 256 := by
  obtain ⟨hend0, hend1⟩ := alphaTable_endpoints a0 a1
  obtain rfl | rfl | h2 : k = 0 ∨ k = 1 ∨ 2 ≤ k := by omega
  · rwa [hend0]
  · rwa [hend1]
  rcases Nat.lt_or_ge a1 a0 with hord | hord
  · rw [alphaTable_eight hord, alphaEight_getD h2 hk]
    exact bcInterp_lt (by omega) (by decide) h0 h1
  rw [alphaTable_six hord]
  obtain ⟨hconst6, hconst7⟩ := alphaSix_constants a0 a1
  obtain h5 | rfl | rfl : k ≤ 5 ∨ k = 6 ∨ k = 7 := by omega
  · rw [alphaSix_getD h2 h5]
    exact bcInterp_lt (by omega) (by decide) h0 h1
  · rw [hconst6]; decide
  · rw [hconst7]; decide

/-! ## Index lookup (R190, R194) -/

theorem leNat_lt (bs : List Byte) : leNat bs < 256 ^ bs.length := by
  induction bs with
  | nil => decide
  | cons b bs ih =>
    have hb : b.toNat < 256 := b.isLt
    rw [leNat, List.length_cons, Nat.pow_succ]
    omega

/-- An endpoint is one byte (R190). -/
theorem leAt_one_lt (bs : List Byte) (i : Nat) : leAt bs i 1 < 256 :=
  (leNat_lt _).trans_le (Nat.pow_le_pow_right (by decide) (List.length_take_le 1 _))

theorem slice_triple_lt (v i : Nat) : slice v (3 * i + 2) (3 * i) < 8 := by
  rw [slice, show 3 * i + 2 + 1 - 3 * i = 3 by omega]
  exact Nat.mod_lt _ (by decide)

/-- Value `i` is the table entry of its three index bits (R194). -/
theorem alphaBlock_getElem? (bs : List Byte) {i : Nat} (hi : i < 16) :
    (alphaBlock bs)[i]? = some ((alphaTable (leAt bs 0 1) (leAt bs 1 1)).getD
      (slice (leAt bs 2 6) (3 * i + 2) (3 * i)) 0) := by
  simp [alphaBlock, alphaTable, hi]

/-- Settles O37: value `i` is the entry of its three index bits, and each clause is one kind of entry of the table that
the order of the endpoints chooses. -/
theorem alphaBlockValues : Obligations.AlphaBlockValues := by
  intro bs i a0 a1 k hi h0 h1 hk
  have hk8 : k < 8 := hk ▸ slice_triple_lt _ _
  have hbyte : (alphaTable a0 a1).getD k 0 < 256 :=
    alphaTable_getD_lt (h0 ▸ leAt_one_lt bs 0) (h1 ▸ leAt_one_lt bs 1) hk8
  obtain ⟨hend0, hend1⟩ := alphaTable_endpoints a0 a1
  obtain ⟨hconst6, hconst7⟩ := alphaSix_constants a0 a1
  refine ⟨_, by rw [alphaBlock_getElem? bs hi, ← h0, ← h1, ← hk], by omega, hk8, ?_, ?_, ?_, ?_, ?_, ?_⟩
  · rintro rfl
    exact hend0
  · rintro rfl
    exact hend1
  · intro h2 hord
    rw [alphaTable_eight hord, alphaEight_getD h2 hk8, bcInterp]
  · intro h2 h5 hord
    rw [alphaTable_six hord, alphaSix_getD h2 h5, bcInterp]
  · rintro rfl hord
    rw [alphaTable_six hord, hconst6]
  · rintro rfl hord
    rw [alphaTable_six hord, hconst7]

/-! ## The blocks made of alpha blocks (R200 to R211) -/

/-- The palette of a BC3 block's colour half, whatever the order of its endpoints (R201). -/
theorem bc1Palette_always_four (c0 c1 : Nat) : bc1Palette c0 c1 false = bc1Four (expand565 c0) (expand565 c1) :=
  if_pos (.inr rfl)

/-- The four-colour palette has an entry for every index. -/
theorem bc1Four_getElem? (e0 e1 : Rgb) {k : Nat} (hk : k < 4) :
    (bc1Four e0 e1)[k]? = some ((bc1Four e0 e1).getD k noTexel) := by
  have hlen : k < (bc1Four e0 e1).length := hk
  rw [List.getElem?_eq_getElem hlen, List.getD_eq_getElem _ _ hlen]

section Texel

variable {bs : List Byte} {i : Nat}

/-- A BC3 texel has the colour of the second half and the alpha of the first (R200). -/
theorem bc3Block_getElem? {c : Texel} {v : Nat} (hc : (bc1Color (bs.drop 8) false)[i]? = some c)
    (hv : (alphaBlock (bs.take 8))[i]? = some v) : (bc3Block bs)[i]? = some ⟨c.r, c.g, c.b, BitVec.ofNat 8 v⟩ := by
  simp [bc3Block, List.getElem?_zipWith, hc, hv]

/-- A BC4 texel has one channel three times, opaque (R205). -/
theorem bc4Block_getElem? {v : Nat} (hv : (alphaBlock bs)[i]? = some v) :
    (bc4Block bs)[i]? = some (mkTexel v v v 255) := by
  simp [bc4Block, hv]

/-- A BC5 texel has the red of the first half and the green of the second; its third channel is 0 (R210, R211). -/
theorem bc5Block_getElem? {r g : Nat} (hr : (alphaBlock (bs.take 8))[i]? = some r)
    (hg : (alphaBlock ((bs.drop 8).take 8))[i]? = some g) : (bc5Block bs)[i]? = some (mkTexel r g 0 255) := by
  simp [bc5Block, List.getElem?_zipWith, hr, hg, bc5Third]

end Texel

/-- Settles O36: texel `i` of each block from value `i` of its alpha blocks, and for BC3 from the palette entry of its
colour half. -/
theorem alphaBlockUse : Obligations.AlphaBlockUse := by
  intro bs i hi
  have hred := alphaBlock_getElem? (bs.take 8) hi
  have hgreen := alphaBlock_getElem? ((bs.drop 8).take 8) hi
  have hwhole := alphaBlock_getElem? bs hi
  have hcolor := bc1Color_getElem? (bs.drop 8) false hi
  rw [bc1Palette_always_four] at hcolor
  exact ⟨_, _, _, _, hred, hgreen, hwhole, bc1Four_getElem? _ _ (slice_pair_lt _ _), bc3Block_getElem? hcolor hred,
    bc4Block_getElem? hwhole, bc5Block_getElem? hred hgreen⟩

end Sys2Proof.Machine
end

section
/-! A command refused by its start checks (60_exceptions R430), and the two formats that always are (41_bcd_bc3_bc4_bc5
R214, R215). -/

namespace Sys2Proof.Machine

/-- A fault says the same against the state a command starts from as against the state before the command. -/
theorem FaultedAs.of_atStart {r : Rule} {s t : State} {code info : Nat} (h : FaultedAs (atStart r s) t code info) :
    FaultedAs s t code info :=
  { h with
    ovr := by simpa using h.ovr
    irqEn := by simpa using h.irqEn
    regs := by simpa using h.regs
    platform := by
      obtain ⟨hmap, hbase, hrst, hqueue, hbus⟩ := h.platform
      constructor
      case memMap => simpa using hmap
      case regBase => simpa using hbase
      case rst => simpa using hrst
      case hostIn => simpa using hqueue
      case busData => simpa using hbus }

section Command

variable {i : Instr} {r : Rule} {s : State} {o : Operands} (hat : atCommand s o)

include hat

/-- A command whose checks fail takes that fault before it accesses memory (60_exceptions R423, R430). -/
theorem exec_checkFault (hr : ruleOf i = some r) {t : Trap} (hcheck : r.check o = some t) :
    exec i s = .next (takeFault t (atStart r s)) := by
  rw [exec_atCommand hat hr, endCommand_check hcheck]

/-- The check of a rejected format fails on all operands (R214, R215). -/
theorem exec_unsupported {op : Nat} (hr : ruleOf i = some (unsupportedRule op)) :
    ∃ t, exec i s = .next t ∧ FaultedAs s t 0x02 op ∧ t.mem = s.mem :=
  ⟨_, exec_checkFault hat hr rfl, (takeFault_faultedAs (atStart_done hat) rfl rfl).of_atStart, by simp⟩

end Command

/-- Settles O29: both commands have the rule of a rejected format, each with its own opcode. -/
theorem unsupportedFormats : Obligations.UnsupportedFormats :=
  fun _ _ hat => ⟨exec_unsupported hat rfl, exec_unsupported hat rfl⟩

end Sys2Proof.Machine
end

section
/-! The BC7 block rows inside a pending BCD.BC7 (10_state R43; 42_bcd_bc7 R222, R237): the operation behind the rows is
`fillTile`, so each row leaves its texels in the tile buffer. -/

namespace Sys2Proof.Machine

/-- The row of the reserved mode fills the tile with transparent black, whatever its ignored bits are (R222). -/
theorem exec_bc7Reserved (x : BitVec 120) (s : State) : exec (.bc7Reserved x) s = fillTile bc7ReservedTexels s := rfl

/-- Settles O39: each row is `fillTile`, which under a pending BCD.BC7 sets the tile buffer and nothing else. -/
theorem bc7RowsFillTheTile : Obligations.Bc7RowsFillTheTile := by
  intro s p k tile hp hword hwork
  have hfill := fillTile_busy hp hwork hword
  have hmode {m : Nat} (hm : m < 8) (f : Bc7Fields) :
      exec (bc7Instr m f) s = .next (setWork p (.bcd k (bc7Texels m f)) s) := (exec_bc7Instr hm f s).trans (hfill _)
  constructor
  case left =>
    intro f
    exact ⟨hmode (m := 0) (by decide) f, hmode (m := 1) (by decide) f, hmode (m := 2) (by decide) f,
      hmode (m := 3) (by decide) f, hmode (m := 4) (by decide) f, hmode (m := 5) (by decide) f,
      hmode (m := 6) (by decide) f, hmode (m := 7) (by decide) f⟩
  case right => exact fun x => (exec_bc7Reserved x s).trans (hfill _)

end Sys2Proof.Machine
end

section
/-! Every bit of a BC7 block is read exactly once (42_bcd_bc7 R224, R239): packing inverts unpacking, the widths of a
mode fill the block, and the bits up to the least set one are the mode bits. -/

namespace Sys2Proof.Machine

/-! ## Unpacked fields -/

/-- Unpacked fields fit their widths (42_bcd_bc7 R224). -/
theorem fitsWidths_unpack (ws : List Nat) (v : Nat) : FitsWidths ws (unpack ws v) := by
  induction ws generalizing v with
  | nil => exact .nil
  | cons w ws ih => exact .cons (Nat.mod_lt _ (by positivity)) (ih _)

/-- Packing inverts unpacking, on as many bits as the fields are wide (42_bcd_bc7 R224). -/
theorem pack_unpack (ws : List Nat) (v : Nat) : pack (ws.zip (unpack ws v)) = v % 2 ^ ws.sum := by
  induction ws generalizing v with
  | nil => simp [pack, Nat.mod_one]
  | cons w ws ih =>
    rw [unpack, List.zip_cons_cons, pack, ih, Nat.mod_mod, List.sum_cons, pow_add, Nat.mod_mul]

/-- Values that fit two lists of widths in a row are the values of each in a row. -/
theorem FitsWidths.split {ws ws' vs : List Nat} (h : FitsWidths (ws ++ ws') vs) :
    ∃ xs ys, vs = xs ++ ys ∧ FitsWidths ws xs ∧ FitsWidths ws' ys := by
  refine ⟨vs.take ws.length, vs.drop ws.length, (List.take_append_drop _ _).symm, ?low, ?high⟩
  case low => simpa [FitsWidths] using List.forall₂_take ws.length h
  case high => simpa [FitsWidths] using List.forall₂_drop ws.length h

/-- The check of `wellFormed` passes on fields of one width that fit. -/
theorem fieldsFit_of_fitsWidths {count width : Nat} {vs : List Nat} (h : FitsWidths (List.replicate count width) vs) :
    fieldsFit count width vs = true := by
  have hlength : vs.length = count := by simpa using h.length_eq.symm
  have hfits : ∀ v ∈ vs, v < 2 ^ width := by
    subst hlength
    induction vs with
    | nil => simp
    | cons v vs ih =>
      obtain ⟨hv, hvs⟩ := List.forall₂_cons.1 h
      exact List.forall_mem_cons.2 ⟨hv, ih hvs⟩
  simpa [fieldsFit, hlength] using hfits

/-- Values that fit the widths of a mode and start with its mode bits are those of well-formed fields (30_encoding R112,
R114). -/
theorem bc7Values_surjective {m : Nat} {vs : List Nat} (h : FitsWidths (bc7Widths m) vs)
    (hbits : vs.head? = some (2 ^ m)) : ∃ f, bc7FieldsOk m f = true ∧ bc7Values m f = vs := by
  obtain ⟨_, indices, rfl, h, hindices⟩ := h.split
  obtain ⟨_, p, rfl, h, hp⟩ := h.split
  obtain ⟨_, a, rfl, h, ha⟩ := h.split
  obtain ⟨_, b, rfl, h, hb⟩ := h.split
  obtain ⟨_, g, rfl, h, hg⟩ := h.split
  obtain ⟨header, r, rfl, hheader, hr⟩ := h.split
  obtain _ | ⟨-, _ | ⟨hpart, _ | ⟨hrot, _ | ⟨hisel, _ | _⟩⟩⟩⟩ := hheader
  obtain _ | ⟨hidx1, _ | ⟨hidx2, _ | _⟩⟩ := hindices
  obtain rfl := Option.some.inj hbits
  refine ⟨⟨_, _, _, r, g, b, a, p, _, _⟩, ?_, rfl⟩
  simp only [bc7FieldsOk, bc7HeaderFits, bc7EndpointsFit, bc7IndicesFit, hpart, hrot, hisel,
    fieldsFit_of_fitsWidths hr, fieldsFit_of_fitsWidths hg, fieldsFit_of_fitsWidths hb, fieldsFit_of_fitsWidths ha,
    fieldsFit_of_fitsWidths hp, hidx1, hidx2, decide_true, Bool.and_self]

/-! ## The mode bits -/

theorem bitAt_eq_zero_of_ne_one {v i : Nat} (h : bitAt v i ≠ 1) : bitAt v i = 0 := by
  unfold bitAt at h ⊢
  omega

/-- The bits up to place `n`, in terms of those below it and the one at it. -/
theorem mod_two_pow_succ_eq_bitAt (v n : Nat) : v % 2 ^ (n + 1) = v % 2 ^ n + 2 ^ n * bitAt v n := by
  rw [bitAt, Nat.shiftRight_eq_div_pow, Nat.mod_pow_succ]

/-- A number whose first `n` bits are clear. -/
theorem mod_two_pow_eq_zero {v n : Nat} (h : ∀ j < n, bitAt v j = 0) : v % 2 ^ n = 0 := by
  induction n with
  | zero => simp [Nat.mod_one]
  | succ n ih =>
    have hbelow : v % 2 ^ n = 0 := ih fun j hj => h j (Nat.lt_succ_of_lt hj)
    rw [mod_two_pow_succ_eq_bitAt, hbelow, h n (Nat.lt_succ_self n), Nat.mul_zero]

/-- The mode of a block says what its low bits are: the mode bits, or a zero byte (42_bcd_bc7 R221, R222). -/
theorem bc7ModeOf_cases (v : Nat) :
    (∃ m < 8, bc7ModeOf v = some m ∧ v % 2 ^ (m + 1) = 2 ^ m) ∨ (bc7ModeOf v = none ∧ v % 256 = 0) := by
  cases hmode : bc7ModeOf v with
  | none =>
    have hclear : ∀ j < 8, bitAt v j = 0 := fun j hj =>
      bitAt_eq_zero_of_ne_one (by simpa using List.find?_eq_none.1 hmode j (by simpa using hj))
    exact .inr ⟨rfl, mod_two_pow_eq_zero hclear⟩
  | some m =>
    obtain ⟨hset, hm, hbelow⟩ := List.find?_range_eq_some.1 hmode
    have hclear : v % 2 ^ m = 0 := mod_two_pow_eq_zero fun j hj => bitAt_eq_zero_of_ne_one (by simpa using hbelow j hj)
    have hone : bitAt v m = 1 := by simpa using hset
    refine .inl ⟨m, by simpa using hm, rfl, ?_⟩
    rw [mod_two_pow_succ_eq_bitAt, hclear, hone, Nat.zero_add, Nat.mul_one]

/-! ## Blocks -/

/-- A 128-bit block that starts with the bits of a mode is the encoding of well-formed fields (30_encoding R111 to
R114). -/
theorem exists_encodeBc7_eq {m v : Nat} (hm : m < 8) (hv : v < 2 ^ 128) (hbits : v % 2 ^ (m + 1) = 2 ^ m) :
    ∃ f, bc7FieldsOk m f = true ∧ encodeBc7 m f = v := by
  have hsum : ∀ m < 8, (bc7Widths m).sum = 128 := by decide
  obtain ⟨f, hok, hvalues⟩ := bc7Values_surjective (fitsWidths_unpack (bc7Widths m) v) (congrArg some hbits)
  refine ⟨f, hok, ?_⟩
  rw [encodeBc7, hvalues, pack_unpack, hsum m hm, Nat.mod_eq_of_lt hv]

/-- The row of a mode is well formed when its fields are (30_encoding R112, R114). -/
theorem wellFormed_bc7Instr {m : Nat} (hm : m < 8) (f : Bc7Fields) : wellFormed (bc7Instr m f) = bc7FieldsOk m f := by
  interval_cases m <;> rfl

/-- The row of a mode is encoded as a block of that mode (30_encoding R111). -/
theorem encodeValue_bc7Instr {m : Nat} (hm : m < 8) (f : Bc7Fields) : encodeValue (bc7Instr m f) = encodeBc7 m f := by
  interval_cases m <;> rfl

/-- Settles O2: a block with a mode bit is the encoding of well-formed fields, which decoding gives back; a reserved
block is its 120 ignored bits above a zero byte. -/
theorem bc7BlockBitsExact : Obligations.Bc7BlockBitsExact := by
  intro v hv
  rcases bc7ModeOf_cases v with ⟨m, hm, hmode, hbits⟩ | ⟨hmode, hbyte⟩
  · obtain ⟨f, hok, rfl⟩ := exists_encodeBc7_eq hm hv hbits
    have hdec : decodeBc7 (encodeBc7 m f) = bc7Instr m f := by
      simp only [decodeBc7, hmode, bc7FieldsOf_encodeBc7 hok]
    rw [hdec, wellFormed_bc7Instr hm, encodeValue_bc7Instr hm]
    exact ⟨hok, rfl⟩
  · have hdec : decodeBc7 v = .bc7Reserved (BitVec.ofNat 120 (v / 256)) := by simp only [decodeBc7, hmode]
    rw [hdec]
    refine ⟨rfl, ?_⟩
    rw [encodeValue, BitVec.toNat_ofNat]
    omega

end Sys2Proof.Machine
end

section
/-! Interpolation of BC7 texels (42_bcd_bc7 R235) and the modes without alpha (R229). -/

namespace Sys2Proof.Machine

/-! ## Interpolation -/

/-- The interpolation is the weighted mean of sixty-fourths, rounded (R235). -/
theorem bc7Lerp_eq_div (x y w : Nat) : bc7Lerp x y w = ((64 - w) * x + w * y + 32) / 64 := by
  rw [bc7Lerp, Nat.shiftRight_eq_div_pow]

/-- Rounding does not leave bounds that hold of both endpoints (R235). -/
theorem bc7Lerp_mem_Icc {lo hi x y w : Nat} (hw : w ≤ 64) (hx : lo ≤ x ∧ x ≤ hi) (hy : lo ≤ y ∧ y ≤ hi) :
    lo ≤ bc7Lerp x y w ∧ bc7Lerp x y w ≤ hi := by
  have hshare (z : Nat) : (64 - w) * z + w * z = 64 * z := by rw [← Nat.add_mul, Nat.sub_add_cancel hw]
  have hlo : 64 * lo ≤ (64 - w) * x + w * y := hshare lo ▸ by gcongr; exacts [hx.1, hy.1]
  have hhi : (64 - w) * x + w * y ≤ 64 * hi := hshare hi ▸ by gcongr; exacts [hx.2, hy.2]
  rw [bc7Lerp_eq_div]
  omega

/-- Settles O41: at the end weights one share is the whole, and between them the bounds hold of both endpoints. -/
theorem bc7LerpBetween : Obligations.Bc7LerpBetween := by
  intro x y w hw
  refine ⟨?first, ?second, ?between⟩
  case first => rw [bc7Lerp_eq_div]; omega
  case second => rw [bc7Lerp_eq_div]; omega
  case between =>
    exact bc7Lerp_mem_Icc hw ⟨min_le_left x y, le_max_left x y⟩ ⟨min_le_right x y, le_max_right x y⟩

/-- Between two equal endpoints there is nothing to interpolate. -/
theorem bc7Lerp_self {w : Nat} (hw : w ≤ 64) (x : Nat) : bc7Lerp x x w = x := by
  obtain ⟨hlo, hhi⟩ := bc7Lerp_mem_Icc hw (x := x) (y := x) ⟨le_rfl, le_rfl⟩ ⟨le_rfl, le_rfl⟩
  exact le_antisymm hhi hlo

/-- Every weight of the tables is at most 64 (43_bcd_bc7_tables R265). -/
theorem bc7Weight_le (idx : Nat × List Nat) (i : Nat) : bc7Weight idx i ≤ 64 := by
  have htable : ∀ w ∈ bc7Weights idx.1, w ≤ 64 := by
    unfold bc7Weights
    split <;> decide
  unfold bc7Weight
  rw [List.getD_eq_getElem?_getD]
  cases hw : (bc7Weights idx.1)[idx.2.getD i 0]? with
  | none => exact Nat.zero_le 64
  | some w => exact htable w (List.mem_of_getElem? hw)

/-! ## Modes without alpha -/

/-- Modes 0 to 3 have no alpha field and no rotation field (30_encoding R112). -/
theorem bc7Params_opaque {m : Nat} (hm : m ≤ 3) : (bc7Params m).ab = 0 ∧ (bc7Params m).rb = 0 := by
  have hrows : ∀ m ≤ 3, (bc7Params m).ab = 0 ∧ (bc7Params m).rb = 0 := by decide
  exact hrows m hm

/-- Well-formed fields of a mode without rotation ask for none (30_encoding R112; 42_bcd_bc7 R236). -/
theorem rot_eq_zero {m : Nat} {f : Bc7Fields} (hrb : (bc7Params m).rb = 0) (h : bc7FieldsOk m f = true) : f.rot = 0 := by
  simp only [bc7FieldsOk, bc7HeaderFits, Bool.and_eq_true, decide_eq_true_eq, hrb] at h
  obtain ⟨⟨⟨⟨-, hrot⟩, -⟩, -⟩, -⟩ := h
  simpa using hrot

/-- Every endpoint of a mode without alpha is opaque (R229). -/
theorem bc7Alpha_of_no_alpha {p : Bc7Params} (hab : p.ab = 0) (f : Bc7Fields) (e : Nat) : bc7Alpha p f e = 255 :=
  if_pos hab

/-- With opaque endpoints and no rotation a texel is opaque (R229, R235, R236). -/
theorem bc7Texel_alpha {p : Bc7Params} {f : Bc7Fields} (hab : p.ab = 0) (hrot : f.rot = 0) (i : Nat) :
    (bc7Texel p f i).a = 255 := by
  simp only [bc7Texel, hrot, bc7Rotate, mkTexel, bc7Alpha_of_no_alpha hab, bc7Lerp_self (bc7Weight_le _ _)]
  rfl

/-- Settles O40: modes 0 to 3 have neither alpha nor rotation, and interpolating 255 with 255 gives 255. -/
theorem bc7ModesWithoutAlphaOpaque : Obligations.Bc7ModesWithoutAlphaOpaque := by
  intro m f hm hok
  obtain ⟨hab, hrb⟩ := bc7Params_opaque hm
  refine ⟨hab, bc7Alpha_of_no_alpha hab f, fun t ht => ?_⟩
  obtain ⟨i, -, rfl⟩ := List.mem_map.1 ht
  exact bc7Texel_alpha hab (rot_eq_zero hrb hok) i

end Sys2Proof.Machine
end

section
/-! The four byte filters as functions (44_zpf_filters R282 to R290): each filter against its inverse, along the
recursion that defines it, and each filter position by position. -/

namespace Sys2Proof.Machine

/-! ## Delta coding and its inverse -/

/-- One step of `Decon` undoes one step of `Recon`: the two biases are the same byte (44_zpf_filters R290). -/
theorem decon_step_recon_step (prev y : Byte) : prev + y - 128 - prev + BitVec.ofNat 8 0x180 = y := by bv_omega

theorem recon_step_decon_step (prev y : Byte) : prev + (y - prev + BitVec.ofNat 8 0x180) - 128 = y := by bv_omega

theorem deconFrom_reconFrom (prev : Byte) (bs : List Byte) : deconFrom prev (reconFrom prev bs) = bs := by
  induction bs generalizing prev with
  | nil => rfl
  | cons y ys ih => rw [reconFrom, deconFrom, decon_step_recon_step, ih]

theorem reconFrom_deconFrom (prev : Byte) (bs : List Byte) : reconFrom prev (deconFrom prev bs) = bs := by
  induction bs generalizing prev with
  | nil => rfl
  | cons y ys ih => rw [deconFrom, reconFrom, recon_step_decon_step, ih]

theorem decon_recon (bs : List Byte) : decon (recon bs) = bs := by
  cases bs with
  | nil => rfl
  | cons y ys => rw [recon, decon, deconFrom_reconFrom]

theorem recon_decon (bs : List Byte) : recon (decon bs) = bs := by
  cases bs with
  | nil => rfl
  | cons y ys => rw [decon, recon, reconFrom_deconFrom]

/-! ## Interleaving and its inverse -/

theorem evens_length (bs : List Byte) : (evens bs).length = firstHalf bs := by
  unfold firstHalf
  induction bs using evens.induct with
  | case1 => rfl
  | case2 x => simp [evens]
  | case3 x y t ih => simp only [evens, List.length_cons, ih]; omega

/-- Two strings that can be alternated without a rest: the first is as long as the second, or one byte longer. -/
def Alternates (xs ys : List Byte) : Prop := ys.length ≤ xs.length ∧ xs.length ≤ ys.length + 1

/-- The two halves of a string alternate (44_zpf_filters R284). -/
theorem alternates_halves (bs : List Byte) : Alternates (bs.take (firstHalf bs)) (bs.drop (firstHalf bs)) := by
  simp only [Alternates, firstHalf, List.length_take, List.length_drop]
  omega

theorem Alternates.tail {x y : Byte} {xs ys : List Byte} (h : Alternates (x :: xs) (y :: ys)) : Alternates xs ys := by
  simpa [Alternates] using h

/-- A string that alternates with nothing has at most one byte. -/
theorem Alternates.nil_right {x : Byte} {xs : List Byte} (h : Alternates (x :: xs) []) : xs = [] := by
  simpa [Alternates] using h

theorem Alternates.nil_left {ys : List Byte} (h : Alternates [] ys) : ys = [] := by
  simpa [Alternates] using h

/-- The even positions of two alternated strings hold the first one, the odd positions the second. -/
theorem evens_odds_alternate {xs ys : List Byte} (h : Alternates xs ys) :
    evens (alternate xs ys) = xs ∧ odds (alternate xs ys) = ys := by
  induction xs, ys using alternate.induct with
  | case1 ys => obtain rfl := h.nil_left; exact ⟨rfl, rfl⟩
  | case2 x xs => obtain rfl := h.nil_right; exact ⟨rfl, rfl⟩
  | case3 x xs y ys ih =>
    obtain ⟨heven, hodd⟩ := ih h.tail
    exact ⟨congrArg (x :: ·) heven, congrArg (y :: ·) hodd⟩

theorem alternate_evens_odds (bs : List Byte) : alternate (evens bs) (odds bs) = bs := by
  induction bs using evens.induct with
  | case1 => rfl
  | case2 x => rfl
  | case3 x y t ih => rw [evens, odds, alternate, ih]

theorem reord_intlv (bs : List Byte) : reord (intlv bs) = bs := by
  obtain ⟨heven, hodd⟩ := evens_odds_alternate (alternates_halves bs)
  rw [reord, intlv, heven, hodd, List.take_append_drop]

theorem intlv_reord (bs : List Byte) : intlv (reord bs) = bs := by
  have hhalf : firstHalf (reord bs) = (evens bs).length := by
    rw [evens_length, firstHalf, reord_length, firstHalf]
  rw [intlv, hhalf, reord, List.take_left, List.drop_left, alternate_evens_odds]

/-- Settles O42: the delta filters and the position filters are inverse in pairs, and so are their compositions. -/
theorem filterInverseLaws : Obligations.FilterInverseLaws := fun b =>
  ⟨decon_recon b, recon_decon b, reord_intlv b, intlv_reord b, by rw [reord_intlv, decon_recon],
    by rw [recon_decon, intlv_reord], recon_length b, decon_length b, intlv_length b, reord_length b⟩

/-! ## Position by position -/

/-- Each output of the `Recon` recurrence comes from the output before it and the input there (44_zpf_filters R282). -/
theorem reconFrom_getElem? (prev : Byte) (bs : List Byte) (i : Nat) :
    (reconFrom prev bs)[i]? = (prev :: reconFrom prev bs)[i]?.bind fun p => bs[i]?.map fun y => p + y - 128 := by
  induction bs generalizing prev i with
  | nil => simp [reconFrom]
  | cons y ys ih =>
    cases i with
    | zero => simp [reconFrom]
    | succ i => simpa [reconFrom] using ih (prev + y - 128) i

/-- Each output of the `Decon` recurrence comes from two neighbouring inputs (44_zpf_filters R288). -/
theorem deconFrom_getElem? (prev : Byte) (bs : List Byte) (i : Nat) :
    (deconFrom prev bs)[i]? = (prev :: bs)[i]?.bind fun p => bs[i]?.map fun y => y - p + 128 := by
  induction bs generalizing prev i with
  | nil => simp [deconFrom]
  | cons y ys ih =>
    cases i with
    | zero => simp [deconFrom]
    | succ i => simpa [deconFrom] using ih y i

theorem recon_getElem? (bs : List Byte) (i : Nat) :
    (recon bs)[i]? = if i = 0 then bs[0]? else
      (recon bs)[i - 1]?.bind fun prev => bs[i]?.map fun y => prev + y - 128 := by
  cases bs with
  | nil => simp [recon]
  | cons y ys =>
    cases i with
    | zero => simp [recon]
    | succ i => simpa [recon] using reconFrom_getElem? y ys i

theorem decon_getElem? (bs : List Byte) (i : Nat) :
    (decon bs)[i]? = if i = 0 then bs[0]? else
      bs[i - 1]?.bind fun prev => bs[i]?.map fun y => y - prev + 128 := by
  cases bs with
  | nil => simp [decon]
  | cons y ys =>
    cases i with
    | zero => simp [decon]
    | succ i => simpa [decon] using deconFrom_getElem? y ys i

/-- Alternated strings give their bytes in turn. -/
theorem alternate_getElem? {xs ys : List Byte} (h : Alternates xs ys) (i : Nat) :
    (alternate xs ys)[i]? = if i % 2 = 0 then xs[i / 2]? else ys[i / 2]? := by
  induction xs, ys using alternate.induct generalizing i with
  | case1 ys => obtain rfl := h.nil_left; simp [alternate]
  | case2 x xs =>
    obtain rfl := h.nil_right
    match i with
    | 0 => rfl
    | 1 => rfl
    | i + 2 => simp [alternate]
  | case3 x xs y ys ih =>
    match i with
    | 0 => rfl
    | 1 => rfl
    | i + 2 => simpa [alternate] using ih h.tail i

theorem intlv_getElem? {bs : List Byte} {i : Nat} (hi : i < bs.length) :
    (intlv bs)[i]? = if i % 2 = 0 then bs[i / 2]? else bs[i / 2 + firstHalf bs]? := by
  have hhalf : i % 2 = 0 → i / 2 < firstHalf bs := by unfold firstHalf; omega
  rw [intlv, alternate_getElem? (alternates_halves bs), List.getElem?_drop, Nat.add_comm]
  split
  next heven => rw [List.getElem?_take_of_lt (hhalf heven)]
  next => rfl

theorem evens_getElem? (bs : List Byte) (i : Nat) : (evens bs)[i]? = bs[2 * i]? := by
  induction bs using evens.induct generalizing i with
  | case1 => simp [evens]
  | case2 x => cases i <;> simp [evens]
  | case3 x y t ih =>
    cases i with
    | zero => rfl
    | succ i => simpa [evens, Nat.mul_succ] using ih i

theorem odds_getElem? (bs : List Byte) (i : Nat) : (odds bs)[i]? = bs[2 * i + 1]? := by
  induction bs using evens.induct generalizing i with
  | case1 => simp [odds]
  | case2 x => simp [odds]
  | case3 x y t ih =>
    cases i with
    | zero => rfl
    | succ i => simpa [odds, Nat.mul_succ] using ih i

theorem reord_getElem? (bs : List Byte) (i : Nat) :
    (reord bs)[i]? = if i < firstHalf bs then bs[2 * i]? else bs[2 * (i - firstHalf bs) + 1]? := by
  rw [reord, List.getElem?_append, evens_length, evens_getElem?, odds_getElem?]

/-- Settles O43: the rules' formulas are what the four recursions give at a position. -/
theorem filterPositions : Obligations.FilterPositions := fun b i hi =>
  ⟨recon_getElem? b i, decon_getElem? b i, intlv_getElem? hi, reord_getElem? b i⟩

end Sys2Proof.Machine
end

section
/-! The start checks of the commands that read a counted number of items (44_zpf_filters R281, 46_nrm_normalizer R360):
what a filter command that passes them has, and that TRUNCATED is the answer exactly where the checks before it pass and
the source is short. -/

namespace Sys2Proof.Machine

/-! ## Answers of a list of checks -/

/-- The first check of a list either applies and answers, or passes and leaves the answer to the rest
(60_exceptions R433). -/
theorem firstTrap_cons_eq_some {b : Bool} {t x : Trap} {l : List (Bool × Trap)} :
    firstTrap ((b, t) :: l) = some x ↔ b = true ∧ t = x ∨ b = false ∧ firstTrap l = some x := by
  cases b <;> simp [firstTrap]

theorem firstTrap_nil_eq_some {x : Trap} : firstTrap [] = some x ↔ False := by simp [firstTrap]

/-- `COUNT` items of `size` bytes are asked for, and the source does not hold them (60_exceptions R426). -/
def SourceShort (size : Nat) (o : Operands) : Prop :=
  0 < countOf o ∧ o.srcLen.toNat < o.srcPos.toNat + size * countOf o

/-! ## The filter commands -/

/-- The checks of R281 before the truncation ones all pass; the scratch window is `ZPF.FILT`'s only. -/
structure FilterFits (scratch : Bool) (o : Operands) : Prop where
  src : wraps (srcWindow o) = false
  dst : wraps (dstWindow o) = false
  tmp : scratch = true → wraps (tmpWindow o) = false
  dstLen : countOf o ≤ o.dstLen.toNat
  tmpLen : scratch = true → countOf o ≤ o.tmpLen.toNat
  apart : anyOverlap ([srcWindow o, dstWindow o] ++ if scratch then [tmpWindow o] else []) = false

/-- A filter command starts where everything fits and the source is not short (44_zpf_filters R281). -/
theorem filterCheck_eq_none {b : Bool} {o : Operands} :
    filterCheck b o = none ↔ FilterFits b o ∧ ¬SourceShort 1 o := by
  simp only [filterCheck, firstTrap_eq_none, List.forall_mem_cons, List.not_mem_nil, false_implies, implies_true,
    and_true, Bool.and_eq_false_imp, decide_eq_false_iff_not, gt_iff_lt, not_lt]
  constructor
  · rintro ⟨hsrc, hdst, htmp, hlen, htmpLen, hapart, hpast, hshort⟩
    refine ⟨⟨hsrc, hdst, htmp, hlen, htmpLen, hapart⟩, ?_⟩
    unfold SourceShort
    omega
  · rintro ⟨⟨hsrc, hdst, htmp, hlen, htmpLen, hapart⟩, hshort⟩
    unfold SourceShort at hshort
    exact ⟨hsrc, hdst, htmp, hlen, htmpLen, hapart, by omega, by omega⟩

/-- The two truncation steps of R281 together: the offset is the cursor or the end of the source, whichever is later. -/
theorem filterCheck_eq_truncated {b : Bool} {o : Operands} {x : Nat} :
    filterCheck b o = some (.truncated x) ↔
      FilterFits b o ∧ SourceShort 1 o ∧ x = max o.srcPos.toNat o.srcLen.toNat := by
  simp only [filterCheck, firstTrap_cons_eq_some, firstTrap_nil_eq_some, reduceCtorEq, and_false, false_or, or_false,
    Trap.truncated.injEq, Bool.and_eq_false_imp, decide_eq_true_eq, decide_eq_false_iff_not, gt_iff_lt, not_lt]
  constructor
  · rintro ⟨hsrc, hdst, htmp, hlen, htmpLen, hapart, hshort⟩
    refine ⟨⟨hsrc, hdst, htmp, hlen, htmpLen, hapart⟩, ?_, by omega⟩
    unfold SourceShort
    omega
  · rintro ⟨⟨hsrc, hdst, htmp, hlen, htmpLen, hapart⟩, hshort, hx⟩
    unfold SourceShort at hshort
    exact ⟨hsrc, hdst, htmp, hlen, htmpLen, hapart, by omega⟩

/-! ## The NRM commands -/

theorem pixelBytes_pos (fmt : NrmFormat) : 0 < pixelBytes fmt := by cases fmt <;> decide

/-- The checks of R360 before the truncation ones all pass. -/
structure NrmFits (o : Operands) : Prop where
  gray : ¬(grayOf o = 6 ∨ grayOf o = 7)
  src : wraps (srcWindow o) = false
  dst : wraps (dstWindow o) = false
  dstLen : 8 * countOf o ≤ o.dstLen.toNat
  apart : anyOverlap [srcWindow o, dstWindow o] = false

/-- The two truncation steps of R360 together: the offset is that of the first pixel past the whole ones. -/
theorem nrmCheck_eq_truncated {fmt : NrmFormat} {o : Operands} {x : Nat} :
    nrmCheck fmt o = some (.truncated x) ↔
      NrmFits o ∧ SourceShort (pixelBytes fmt) o ∧
        x = o.srcPos.toNat + pixelBytes fmt * wholeBlocks (pixelBytes fmt) o := by
  have hpast : o.srcLen.toNat < o.srcPos.toNat → pixelBytes fmt * wholeBlocks (pixelBytes fmt) o = 0 := fun h => by
    rw [wholeBlocks, Nat.sub_eq_zero_of_le h.le, Nat.zero_div, Nat.mul_zero]
  have hneeded : 0 < countOf o → 0 < pixelBytes fmt * countOf o := Nat.mul_pos (pixelBytes_pos fmt)
  unfold wholeBlocks at hpast ⊢
  simp only [nrmCheck, firstTrap_cons_eq_some, firstTrap_nil_eq_some, reduceCtorEq, and_false, false_or, or_false,
    Trap.truncated.injEq, decide_eq_true_eq, decide_eq_false_iff_not, gt_iff_lt, not_lt]
  constructor
  · rintro ⟨hgray, hsrc, hdst, hlen, hapart, hshort⟩
    refine ⟨⟨hgray, hsrc, hdst, hlen, hapart⟩, ?_, by omega⟩
    unfold SourceShort
    omega
  · rintro ⟨⟨hgray, hsrc, hdst, hlen, hapart⟩, hshort, hx⟩
    unfold SourceShort at hshort
    exact ⟨hgray, hsrc, hdst, hlen, hapart, by omega⟩

/-- Where the source is short, the first item past the whole ones is one the command asks for, and the first that cannot
be read whole (60_exceptions R426). -/
theorem SourceShort.first_short_item {size : Nat} {o : Operands} (hsize : 0 < size) (h : SourceShort size o) :
    wholeBlocks size o < countOf o ∧
      (wholeBlocks size o = 0 ∨ o.srcPos.toNat + size * wholeBlocks size o ≤ o.srcLen.toNat) ∧
      o.srcLen.toNat < o.srcPos.toNat + size * wholeBlocks size o + size := by
  obtain ⟨hcount, hshort⟩ := h
  have hpast := short_at_wholeBlocks (o := o) hsize
  rw [blockOffset, Nat.mul_comm] at hpast
  refine ⟨wholeBlocks_lt hsize hcount (by rwa [Nat.mul_comm]), ?_, hpast⟩
  cases hwhole : wholeBlocks size o with
  | zero => exact .inl rfl
  | succ k =>
    have hlast := whole_of_lt_wholeBlocks (o := o) hsize (j := k) (by omega)
    rw [blockOffset, Nat.mul_comm] at hlast
    exact .inr (by rw [Nat.mul_succ]; omega)

/-- Settles O46: both checks are characterised above; what is left is which checks of a filter read the scratch window,
and which pixel the offset of an NRM command is at. -/
theorem countedTruncation : Obligations.CountedTruncation := by
  refine ⟨fun b o x h => ?filter, fun fmt o x h => ?nrm,
    fun b o hsrc hdst hlen hscratch hapart hcount hshort => ?filter',
    fun fmt o hgray hsrc hdst hlen hapart hcount hshort => ?nrm'⟩
  case filter =>
    obtain ⟨-, ⟨hcount, hshort⟩, hx⟩ := filterCheck_eq_truncated.1 h
    exact ⟨hcount, by omega, hx⟩
  case nrm =>
    obtain ⟨-, hs, rfl⟩ := nrmCheck_eq_truncated.1 h
    obtain ⟨hk, hwhole, hpast⟩ := hs.first_short_item (pixelBytes_pos fmt)
    obtain ⟨hcount, hshort⟩ := hs
    exact ⟨hcount, hshort, _, rfl, hk, hwhole, hpast⟩
  case filter' =>
    refine filterCheck_eq_truncated.2 ⟨?_, ⟨hcount, by omega⟩, rfl⟩
    cases b with
    | false => exact ⟨hsrc, hdst, nofun, hlen, nofun, hapart⟩
    | true =>
      obtain ⟨htmp, htmpLen, hapart'⟩ := hscratch rfl
      exact ⟨hsrc, hdst, fun _ => htmp, hlen, fun _ => htmpLen, hapart'⟩
  case nrm' =>
    exact nrmCheck_eq_truncated.2 ⟨⟨by omega, hsrc, hdst, hlen, hapart⟩, ⟨hcount, hshort⟩, rfl⟩

end Sys2Proof.Machine
end

section
/-! The filter commands and the two composites (44_zpf_filters R280 to R294): their input is read and their output
stored whole, the composites store theirs apart from the scratch range they keep their first string in, and completion
leaves it there. -/

namespace Sys2Proof.Machine

/-! ## What the entitled set and the checks give -/

/-- Every byte of an output range of a valid entitled set is valid (60_exceptions R429). -/
theorem memValid_output {r : Rule} {o : Operands} {s : State} (h : entitledValid r o s) {x : Range}
    (hx : x ∈ r.outputs o) {i : Nat} (hi : i < x.len) : memValid s.memMap (x.base + i) = true :=
  h x (.tail _ hx) _ (inRange_iff.2 (by omega))

/-- A string that fits an output range of a valid entitled set can be stored there. -/
theorem storeBytes_output {r : Rule} {o : Operands} {s : State} (h : entitledValid r o s) {x : Range}
    (hx : x ∈ r.outputs o) {bs : List Byte} (hlen : bs.length ≤ x.len) (m : Memory) :
    ∃ m', storeBytes s.memMap m x.base bs = .ok m' :=
  storeBytes_ok m fun _ hi => memValid_output h hx (by omega)

/-- A filter command that has passed its checks reads its whole input (44_zpf_filters R280, R281). -/
theorem filterInput_ok {b : Bool} {o : Operands} {s : State} (hcheck : filterCheck b o = none)
    (hsource : ∀ a, inRange (sourceFrom o (countOf o)) a = true → memValid s.memMap a = true) :
    filterInput s.memMap o s.mem = .ok (sourceBytes s o 0 (countOf o)) := by
  obtain ⟨-, hlong⟩ := filterCheck_eq_none.1 hcheck
  unfold SourceShort at hlong
  refine readBytes_eq_ok.2 ⟨fun i hi => hsource _ (inRange_iff.2 ?_), rfl⟩
  simp only [sourceFrom]
  omega

theorem sourceBytes_length (s : State) (o : Operands) (off n : Nat) : (sourceBytes s o off n).length = n :=
  peekBytes_length _ _ _

/-- Shorter ranges at the same bases share no more bytes (20_memory R80). -/
theorem rangesOverlap_shorter {x y : Range} (h : rangesOverlap x y = false) {n k : Nat} (hn : n ≤ x.len)
    (hk : k ≤ y.len) : rangesOverlap ⟨x.base, n⟩ ⟨y.base, k⟩ = false := by
  rw [Bool.eq_false_iff, ne_eq, rangesOverlap_iff] at h ⊢
  simp only [inRange_iff] at h ⊢
  rintro ⟨a, hx, hy⟩
  exact h ⟨a, by omega, by omega⟩

/-- Of three windows that share no byte, the second and the third share none. -/
theorem rangesOverlap_of_triple {x y z : Range} (h : anyOverlap [x, y, z] = false) : rangesOverlap y z = false := by
  rw [anyOverlap_triple, Bool.or_eq_false_iff] at h
  exact h.2

/-! ## What completion leaves -/

section Finish

variable {r : Rule} {o : Operands} {f : Finished} {s : State} {mm : List Region}

/-- Completion leaves the memory of the run but for the scratch bytes (44_zpf_filters R291, R292). -/
theorem memGet_finishCommand {a : Nat} (h : (r.scratch o).any (inRange · a) = false) :
    memGet (finishCommand r o f s).mem a = memGet f.mem a := by
  rw [finishCommand_mem, havoc_frame h, complete_mem]

/-- A string stored last, apart from the scratch bytes, stands in memory after completion. -/
theorem finishCommand_peek {m : Memory} {a : Nat} {bs : List Byte} (hstore : storeBytes mm m a bs = .ok f.mem)
    (hm : m.wf) (hapart : ∀ y ∈ r.scratch o, rangesOverlap ⟨a, bs.length⟩ y = false) :
    peekBytes (finishCommand r o f s).mem a bs.length = bs := by
  rw [peekBytes_congr f.mem]
  · exact storeBytes_peek hstore hm
  · refine fun i hi => memGet_finishCommand (List.any_eq_false.2 fun y hy => ?_)
    rw [not_inRange_of_not_overlap (hapart y hy) (inRange_iff.2 (by dsimp only; omega))]
    exact Bool.false_ne_true

/-- A composite keeps its first string in the scratch range and stores its second one apart from it; completion leaves
the second, and every byte outside the two ranges as it was (44_zpf_filters R291, R292). -/
theorem finishCommand_composite {tmp : Range} {dst : Nat} {bs cs : List Byte} {m : Memory} (hm : s.mem.wf)
    (hscratch : r.scratch o = [tmp]) (hfits : bs.length ≤ tmp.len)
    (hapart : rangesOverlap ⟨dst, cs.length⟩ tmp = false) (hfirst : storeBytes mm s.mem tmp.base bs = .ok m)
    (hsecond : storeBytes mm m dst cs = .ok f.mem) :
    peekBytes (finishCommand r o f (atStart r s)).mem dst cs.length = cs ∧
      sameOutside [⟨dst, cs.length⟩, tmp] s (finishCommand r o f (atStart r s)) := by
  refine ⟨finishCommand_peek hsecond (storeBytes_wf hfirst hm) (by simpa [hscratch] using hapart), fun a ha => ?_⟩
  have htmp : (r.scratch o).any (inRange · a) = false := by
    rw [hscratch]
    exact List.any_eq_false.2 fun x hx => List.any_eq_false.1 ha x (.tail _ hx)
  calc memGet (finishCommand r o f (atStart r s)).mem a
      = memGet f.mem a := memGet_finishCommand htmp
    _ = memGet m a := storeBytes_outside hsecond (.head _) le_rfl le_rfl ha
    _ = memGet s.mem a := storeBytes_outside hfirst (.tail _ (.head _)) le_rfl (by omega) ha

end Finish

/-! ## The commands -/

/-- The commands of the statement are the model's four filter rows, and each filter keeps the length (44_zpf_filters
R283, R285, R287, R289). -/
theorem ruleOf_filter {i : Instr} {f : List Byte → List Byte}
    (h : (i, f) ∈ [(Instr.zpfRecon, recon), (.zpfIntlv, intlv), (.zpfReord, reord), (.zpfDecon, decon)]) :
    ruleOf i = some (filterRule f) ∧ ∀ bs, (f bs).length = bs.length := by
  simp only [List.mem_cons, Prod.mk.injEq, List.not_mem_nil, or_false] at h
  rcases h with ⟨rfl, rfl⟩ | ⟨rfl, rfl⟩ | ⟨rfl, rfl⟩ | ⟨rfl, rfl⟩
  · exact ⟨rfl, recon_length⟩
  · exact ⟨rfl, intlv_length⟩
  · exact ⟨rfl, reord_length⟩
  · exact ⟨rfl, decon_length⟩

/-- Settles O44: the input is read whole, and its filter, of the same length, is stored with no scratch range. -/
theorem filterCompletes : Obligations.FilterCompletes := by
  intro i f s o hrow hat hm hcheck hvalid
  obtain ⟨hrule, hkeeps⟩ := ruleOf_filter hrow
  have hinput := filterInput_ok hcheck (hvalid _ (.head _))
  have hlen : (f (sourceBytes s o 0 (countOf o))).length = countOf o := by rw [hkeeps, sourceBytes_length]
  obtain ⟨m, hstore⟩ := storeBytes_output hvalid (.head _) hlen.le s.mem
  have hrun : (filterRule f).run s.memMap o s.mem = .ok (filterFinished o m) :=
    bind_eq_ok.2 ⟨_, hinput, bind_eq_ok.2 ⟨m, hstore, rfl⟩⟩
  refine ⟨_, exec_finishes hat hrule hcheck hvalid hrun, ?_, ?_, fun a ha => ?_⟩
  · exact finishCommand_completedAs hat (filterFinished o m)
  · have hpeek := finishCommand_peek (r := filterRule f) (o := o) (f := filterFinished o m)
      (s := atStart (filterRule f) s) hstore hm nofun
    rwa [hlen] at hpeek
  · rw [memGet_finishCommand rfl]
    exact storeBytes_outside hstore (.head _) le_rfl (Nat.add_le_add_left hlen.le _) ha

/-- Settles O45: the reordered bytes go to the scratch window and their `Decon` to the destination, which is apart from
it. -/
theorem filtCompletes : Obligations.FiltCompletes := by
  intro s o hat hm hcheck hvalid
  obtain ⟨hfits, -⟩ := filterCheck_eq_none.1 hcheck
  have hinput := filterInput_ok hcheck (hvalid _ (.head _))
  have hreord : (reord (sourceBytes s o 0 (countOf o))).length = countOf o := by
    rw [reord_length, sourceBytes_length]
  have hdecon : (decon (reord (sourceBytes s o 0 (countOf o)))).length = countOf o := by rw [decon_length, hreord]
  obtain ⟨m1, htmp⟩ := storeBytes_output hvalid (.tail _ (.head _)) hreord.le s.mem
  obtain ⟨m2, hdst⟩ := storeBytes_output hvalid (.head _) hdecon.le m1
  have hrun : filtRule.run s.memMap o s.mem = .ok (filterFinished o m2) :=
    bind_eq_ok.2 ⟨_, hinput, bind_eq_ok.2 ⟨m1, htmp, bind_eq_ok.2 ⟨m2, hdst, rfl⟩⟩⟩
  have hapart := rangesOverlap_shorter (rangesOverlap_of_triple hfits.apart) (hdecon.le.trans hfits.dstLen)
    (hfits.tmpLen rfl)
  have hend := finishCommand_composite (r := filtRule) (o := o) (f := filterFinished o m2) hm rfl hreord.le hapart htmp
    hdst
  rw [hdecon] at hend
  exact ⟨_, exec_finishes hat rfl hcheck hvalid hrun, finishCommand_completedAs hat (filterFinished o m2), hend⟩

/-- Settles O48: the inflated bytes are within both windows' lengths; they go to the scratch window and what the two
filters make of them to the destination. -/
theorem unzipCompletes : Obligations.UnzipCompletes := by
  intro s o out used hat hm hcheck hvalid hstream
  have hlimit : out.length ≤ unzipLimit o := (inflateStream_bound hstream).1
  have hfiltered : (intlv (recon out)).length = out.length := by rw [intlv_length, recon_length]
  obtain ⟨m1, htmp⟩ := storeBytes_output hvalid (.tail _ (.head _)) hlimit s.mem
  obtain ⟨m2, hdst⟩ := storeBytes_output hvalid (.head _) (hfiltered.trans_le hlimit) m1
  have hrun : unzipRule.run s.memMap o s.mem = .ok (inflateFinished used out.length m2) :=
    bind_eq_ok.2 ⟨(out, used), hstream, bind_eq_ok.2 ⟨m1, htmp, bind_eq_ok.2 ⟨m2, hdst, rfl⟩⟩⟩
  have hwindows := firstTrap_eq_none.1 hcheck (anyOverlap [srcWindow o, dstWindow o, tmpWindow o], .overlap) (by simp)
  have hapart := rangesOverlap_shorter (rangesOverlap_of_triple hwindows)
    (hfiltered.trans_le (hlimit.trans (min_le_left _ _))) (min_le_right o.dstLen.toNat o.tmpLen.toNat)
  have hend := finishCommand_composite (r := unzipRule) (o := o) (f := inflateFinished used out.length m2) hm rfl hlimit
    hapart htmp hdst
  rw [hfiltered] at hend
  exact ⟨_, exec_finishes hat rfl hcheck hvalid hrun,
    finishCommand_completedAs hat (inflateFinished used out.length m2), hend⟩

end Sys2Proof.Machine
end

section
/-! The LZ77 copy (45_zpf_inflate R323), by induction on how many bytes are still to be copied. -/

namespace Sys2Proof.Machine

/-- Settles O52: the newest byte is the one `dist` before it when it is emitted, and the copies after it only push both
further back. -/
theorem copyReadsItsOwnOutput : Obligations.CopyReadsItsOwnOutput := by
  intro e dist n st st' hpos hdist hcopy
  induction n generalizing st with
  | zero => cases hcopy; simp
  | succ n ih =>
    obtain ⟨st1, hemit, hcopy⟩ := bind_eq_ok.1 hcopy
    obtain ⟨rfl, -, -⟩ := emit_eq_ok hemit
    obtain ⟨hlen, hcount, hdrop, hback⟩ := ih _ (by simp only [List.length_cons]; omega) hcopy
    simp only [List.length_cons] at hlen hcount hdrop
    have hold (k : Nat) : st'.rev[n + k]? = (st.rev.getD (dist - 1) 0 :: st.rev)[k]? := by
      rw [← hdrop, List.getElem?_drop]
    refine ⟨by omega, by omega, by rw [← List.drop_drop, hdrop, List.drop_one, List.tail_cons], fun i hi => ?_⟩
    rcases Nat.lt_succ_iff_lt_or_eq.1 hi with hlt | rfl
    · exact hback i hlt
    · calc st'.rev[i]?
          = some (st.rev.getD (dist - 1) 0) := hold 0
        _ = st.rev[dist - 1]? := by rw [List.getD_eq_getElem _ _ (by omega), List.getElem?_eq_getElem]
        _ = st'.rev[i + dist]? := by rw [hold, List.getElem?_cons, if_neg (by omega)]

end Sys2Proof.Machine
end

section
/-! The fixed codes (45_zpf_inflate R314): their lengths come in runs, and the canonical code counts up along a run
(R317). -/

namespace Sys2Proof.Machine

/-! ## Runs of equal lengths -/

/-- The codewords of `n` successive symbols from `s` on, of one length: the codes count up from `c` (R317). -/
def codeRun (l c s n : Nat) : List Codeword := (List.range' s n).map fun t => ⟨l, c + (t - s), t⟩

theorem codeRun_succ (l c s n : Nat) : codeRun l c s (n + 1) = ⟨l, c, s⟩ :: codeRun l (c + 1) (s + 1) n := by
  unfold codeRun
  rw [List.range'_succ, List.map_cons, Nat.sub_self, Nat.add_zero]
  congr 1
  refine List.map_congr_left fun t ht => ?_
  have hs := (List.mem_range'_1.1 ht).1
  rw [show c + (t - s) = c + 1 + (t - (s + 1)) by omega]

/-- Symbols of one length in a row take successive codes of that length (R317). -/
theorem assignCodes_run {next : List Nat} {l : Nat} (hpos : l ≠ 0) (hl : l < next.length) (s n : Nat) (ls : List Nat) :
    assignCodes next s (List.replicate n l ++ ls) =
      codeRun l (next.getD l 0) s n ++ assignCodes (next.set l (next.getD l 0 + n)) (s + n) ls := by
  induction n generalizing next s with
  | zero => rw [List.getD_eq_getElem _ _ hl, Nat.add_zero, List.set_getElem_self]; rfl
  | succ n ih =>
    have hnext : (next.set l (next.getD l 0 + 1)).getD l 0 = next.getD l 0 + 1 := by simp [hl]
    rw [List.replicate_succ, List.cons_append, assignCodes, if_neg hpos, ih (by simpa using hl), hnext, List.set_set,
      codeRun_succ, List.cons_append, Nat.add_assoc _ 1 n, Nat.add_assoc s 1 n, Nat.add_comm 1 n]

/-- A function of the symbol that counts codes up along a run gives the run's codewords. -/
theorem map_range'_eq_codeRun {f : Nat → Codeword} {l c s n : Nat}
    (h : ∀ t, s ≤ t → t < s + n → f t = ⟨l, c + (t - s), t⟩) : (List.range' s n).map f = codeRun l c s n :=
  List.map_congr_left fun t ht => h t (List.mem_range'_1.1 ht).1 (List.mem_range'_1.1 ht).2

/-! ## The literal/length code -/

/-- How many literal/length symbols have each length (R314). -/
theorem lengthCount_fixedLit {l : Nat} (hl : l ≠ 0) :
    lengthCount fixedLitLengths l =
      (if l = 8 then 152 else 0) + (if l = 9 then 112 else 0) + (if l = 7 then 24 else 0) := by
  simp only [lengthCount, if_neg hl, fixedLitLengths, List.filter_append, List.filter_replicate, List.length_append,
    beq_iff_eq, eq_comm (b := l), apply_ite List.length, List.length_replicate, List.length_nil]
  split_ifs <;> omega

/-- The first code of each length: 7, 8 and 9 bits start at 0, 0x30 and 0x190 (R314, R317). -/
theorem firstCode_fixedLit : (List.range 16).map (firstCode fixedLitLengths) =
    [0, 0, 0, 0, 0, 0, 0, 0, 0x30, 0x190, 1024, 2048, 4096, 8192, 16384, 32768] := by
  simp [List.range_succ, firstCode, lengthCount_fixedLit]

/-- The fixed literal/length code is four runs (R314). -/
theorem canonicalCode_fixedLit : canonicalCode fixedLitLengths =
    codeRun 8 0x30 0 144 ++ (codeRun 9 0x190 144 112 ++ (codeRun 7 0 256 24 ++ codeRun 8 0xC0 280 8)) := by
  rw [canonicalCode, firstCode_fixedLit, fixedLitLengths, List.append_assoc, List.append_assoc,
    ← List.append_nil (List.replicate 8 8)]
  iterate 4 rw [assignCodes_run (by decide) (by simp)]
  simp [assignCodes]

/-! ## The distance code -/

/-- All 32 distance symbols have length 5 (R314). -/
theorem lengthCount_fixedDist {l : Nat} (hl : l ≠ 5) : lengthCount fixedDistLengths l = 0 := by
  simp [lengthCount, fixedDistLengths, hl.symm]

/-- The fixed distance code is one run (R314). -/
theorem canonicalCode_fixedDist : canonicalCode fixedDistLengths = codeRun 5 0 0 32 := by
  have hfirst : ((List.range 16).map (firstCode fixedDistLengths)).getD 5 0 = 0 := by
    simp [firstCode, lengthCount_fixedDist]
  have hrun := assignCodes_run (l := 5) (next := (List.range 16).map (firstCode fixedDistLengths)) (by decide) (by simp)
    0 32 []
  rw [hfirst, List.append_nil, assignCodes, List.append_nil] at hrun
  exact hrun

/-! ## Completeness -/

/-- Equal lengths add up (R318). -/
theorem kraftSum_replicate {l : Nat} (hl : l ≠ 0) (n : Nat) : kraftSum (List.replicate n l) = n * 2 ^ (15 - l) := by
  simp [kraftSum, hl]

theorem kraftSum_append (xs ys : List Nat) : kraftSum (xs ++ ys) = kraftSum xs + kraftSum ys := by
  simp [kraftSum]

/-- Settles O53: both codes are runs, and so is each part of the statement's enumeration by symbol. -/
theorem fixedCodes : Obligations.FixedCodes := by
  refine ⟨?litComplete, ?distComplete, ?lit, ?dist⟩
  case litComplete =>
    simp only [completeSet, fixedLitLengths, kraftSum_append, kraftSum_replicate, ne_eq, OfNat.ofNat_ne_zero,
      not_false_eq_true]
    rfl
  case distComplete => rw [completeSet, fixedDistLengths, kraftSum_replicate (by decide)]; rfl
  case lit =>
    rw [canonicalCode_fixedLit, List.range_eq_range', show 288 = 144 + (112 + (24 + 8)) from rfl]
    iterate 3 rw [← List.range'_append_1, List.map_append]
    refine congrArg₂ _ ?low8 (congrArg₂ _ ?nine (congrArg₂ _ ?seven ?high8))
    case low8 => exact (map_range'_eq_codeRun fun t _ ht => by rw [if_pos (by omega), Nat.sub_zero]).symm
    case nine => exact (map_range'_eq_codeRun fun t hs ht => by rw [if_neg (by omega), if_pos (by omega)]).symm
    case seven => exact (map_range'_eq_codeRun fun t hs ht => by
        rw [if_neg (by omega), if_neg (by omega), if_pos (by omega), Nat.zero_add]).symm
    case high8 => exact (map_range'_eq_codeRun fun t hs ht => by
        rw [if_neg (by omega), if_neg (by omega), if_neg (by omega)]).symm
  case dist =>
    rw [canonicalCode_fixedDist, List.range_eq_range']
    exact (map_range'_eq_codeRun fun t _ _ => by rw [Nat.zero_add, Nat.sub_zero]).symm

end Sys2Proof.Machine
end

section
/-! The commands ZPF.INFLATE and ZPF.UNZIP over their stream (45_zpf_inflate R328 to R331, 44_zpf_filters R291), and the
DEFLATE block rows inside a pending one (45_zpf_inflate R312; log 7). -/

namespace Sys2Proof.Machine

/-! ## The commands -/

/-- Settles O47: the output is inside the destination window, so it is stored whole, and there is no scratch range. -/
theorem inflateCompletes : Obligations.InflateCompletes := by
  intro s o out used hat hm hcheck hvalid hstream
  have hlimit : out.length ≤ o.dstLen.toNat := (inflateStream_bound hstream).1
  obtain ⟨m, hstore⟩ := storeBytes_output hvalid (.head _) hlimit s.mem
  have hrun : inflateRule.run s.memMap o s.mem = .ok (inflateFinished used out.length m) :=
    bind_eq_ok.2 ⟨(out, used), hstream, bind_eq_ok.2 ⟨m, hstore, rfl⟩⟩
  refine ⟨_, exec_finishes hat rfl hcheck hvalid hrun, ?_, ?_, fun a ha => ?_⟩
  · exact finishCommand_completedAs hat (inflateFinished used out.length m)
  · exact finishCommand_peek hstore hm nofun
  · rw [memGet_finishCommand rfl]
    exact storeBytes_outside (x := ⟨o.dstBase.toNat, out.length⟩) hstore (.head _) le_rfl le_rfl ha

/-- A computation that faults takes what follows it with it. -/
theorem bind_error {α β : Type} {x : Except Trap α} {t : Trap} (h : x = .error t) (f : α → Except Trap β) :
    (x >>= f) = .error t := by
  rw [h]
  rfl

/-- Settles O49: the fault of the stream is the fault of the run, before anything is stored. -/
theorem badStreamFaults : Obligations.BadStreamFaults := by
  intro i r env s o t hcommand hat hcheck hvalid hstream
  obtain ⟨hrule, hrun⟩ : ruleOf i = some r ∧ r.run s.memMap o s.mem = .error t := by
    rcases hcommand with ⟨rfl, rfl, rfl⟩ | ⟨rfl, rfl, rfl⟩
    · exact ⟨rfl, bind_error hstream _⟩
    · exact ⟨rfl, bind_error hstream _⟩
  refine ⟨_, exec_faults hat hrule hcheck hvalid hrun, faultRunning_faultedAs hat (by simp) (by simp), ?_, ?_, ?_,
    fun a ha => ?_⟩
  · rintro off rfl
    exact faultRunning_faultedAs hat rfl rfl
  · rintro sub rfl
    exact faultRunning_faultedAs hat rfl rfl
  · rintro limit rfl
    exact faultRunning_faultedAs hat rfl rfl
  · rw [faultRunning_sameOutside r o t _ a ha, atStart_mem]

/-! ## The block rows -/

/-- The rows of the three types that have a body run it on a pending stream (R312). -/
theorem exec_deflateBody {i : Bool → Instr} {body : InflateEnv → Inf → Except Trap Inf}
    (h : (i, body) ∈ [(Instr.deflateStored, storedBlock), (Instr.deflateFixed, fixedBlock),
      (Instr.deflateDynamic, dynamicBlock)]) (fin : Bool) (s : State) : exec (i fin) s = runBlock body fin s := by
  simp only [List.mem_cons, Prod.mk.injEq, List.not_mem_nil, or_false] at h
  rcases h with ⟨rfl, rfl⟩ | ⟨rfl, rfl⟩ | ⟨rfl, rfl⟩ <;> rfl

/-- The bodies of the three types only append (R312, R331). -/
theorem deflateBody_appends {i : Bool → Instr} {body : InflateEnv → Inf → Except Trap Inf}
    (h : (i, body) ∈ [(Instr.deflateStored, storedBlock), (Instr.deflateFixed, fixedBlock),
      (Instr.deflateDynamic, dynamicBlock)]) {e : InflateEnv} {st st' : Inf} (hbody : body e st = .ok st') :
    Appends e st st' := by
  simp only [List.mem_cons, Prod.mk.injEq, List.not_mem_nil, or_false] at h
  rcases h with ⟨-, rfl⟩ | ⟨-, rfl⟩ | ⟨-, rfl⟩
  · exact storedBlock_appends hbody
  · exact huffmanBlock_appends hbody
  · exact dynamicBlock_appends hbody

/-- What a block appended is its new bytes: as many as the output has grown by, and they can be stored after the bytes
already emitted (R312, R331). -/
theorem Appends.newBytes_storable {e : InflateEnv} {w : InflateWork} {st : Inf} (h : Appends e (blockStart e w) st) :
    w.len ≤ st.len ∧ (newBytes w st).length = st.len - w.len ∧
      ∃ m, storeBytes e.mm e.mem (e.outBase + w.len) (newBytes w st) = .ok m := by
  obtain ⟨new, hrev, hlen, -, hvalid⟩ := h
  simp only [blockStart] at hrev hlen hvalid
  have hcount : (newBytes w st).length = new.length := by
    simp only [newBytes, hrev, List.length_reverse, List.length_take, List.length_append]
    omega
  exact ⟨by omega, by omega, storeBytes_ok _ fun i hi => hvalid i (hcount ▸ hi)⟩

/-- Settles O54: what the body appends can be stored, and storing it is all that the block does besides advancing the
working state. -/
theorem deflateBlocksRun : Obligations.DeflateBlocksRun := by
  intro i body fin s p w r e st hrow hp hw he hm hbody
  have hmem := streamOf_env he
  obtain ⟨hgrows, hcount, m, hstore⟩ := (deflateBody_appends hrow hbody).newBytes_storable
  have hpeek : peekBytes m (e.outBase + w.len) (st.len - w.len) = newBytes w st :=
    hcount ▸ storeBytes_peek hstore (hmem ▸ hm)
  refine ⟨_, (exec_deflateBody hrow fin s).trans (runBlock_ok hp hw he fin hbody hstore), rfl, hgrows, hpeek, ?_, rfl⟩
  · rw [← hcount, sameOutside, ← hmem]
    exact fun a ha => storeBytes_outside hstore (.head _) le_rfl le_rfl ha

/-- A block whose body faults ends the command with that fault (R312, R329). -/
theorem runBlock_error {s : State} {p : Pending} {w : InflateWork} {r : Rule} {e : InflateEnv}
    (hp : s.phase = .busy p) (hw : p.work = .inflate w) (he : streamOf s.memMap s.mem p.word p.ops = some (r, e))
    {body : InflateEnv → Inf → Except Trap Inf} (fin : Bool) {t : Trap} (hbody : body e (blockStart e w) = .error t) :
    runBlock body fin s = .next (faultRunning r p.ops t s) := by
  simp only [runBlock, hp, hw, he, bind_error hbody]

/-- A fault says the same against the state with bytes made unspecified as against the state before (60_exceptions
R435). -/
theorem FaultedAs.of_havoc {rs : List Range} {s t : State} {code info : Nat} (h : FaultedAs (havoc rs s) t code info) :
    FaultedAs s t code info :=
  { h with
    ovr := by simpa using h.ovr
    irqEn := by simpa using h.irqEn
    regs := by simpa using h.regs
    platform :=
      { memMap := by simpa using h.platform.memMap
        regBase := by simpa using h.platform.regBase
        rst := by simpa using h.platform.rst
        hostIn := by simpa using h.platform.hostIn
        busData := by simpa using h.platform.busData } }

/-- Settles O55: the body of the reserved type faults, and a block's fault ends the command. -/
theorem deflateReservedFaults : Obligations.DeflateReservedFaults := by
  intro fin s p w r e hp hw he hdone
  have hfault : FaultedAs s (faultRunning r p.ops (.malformedStream 1) s) 0x06 1 :=
    (takeFault_faultedAs (by simpa using hdone) rfl rfl).of_havoc
  exact ⟨_, runBlock_error hp hw he (body := reservedBlock) fin rfl, hfault, faultRunning_sameOutside r p.ops _ s,
    faultRunning_held r p.ops _ s⟩

end Sys2Proof.Machine
end

section
/-! The source bits a stream reads (45_zpf_inflate R311, R325, R330): the decoder only moves the bit position forward,
and every bit that it reads is of a byte inside the source window. -/

namespace Sys2Proof.Machine

/-- What the decoder can do to the bit position: it moves forward, and if it moves, the last bit before the new position
is inside the source window (R311, R330). -/
def ReadsTo (e : InflateEnv) (q q' : Nat) : Prop :=
  q ≤ q' ∧ (q < q' → e.start + (q' - 1) / 8 < e.ops.srcLen.toNat)

theorem ReadsTo.refl (e : InflateEnv) (q : Nat) : ReadsTo e q q := ⟨le_rfl, fun h => absurd h (lt_irrefl q)⟩

section ReadsTo

variable {e : InflateEnv}

theorem ReadsTo.trans {q q' q'' : Nat} (h : ReadsTo e q q') (h' : ReadsTo e q' q'') : ReadsTo e q q'' := by
  obtain ⟨hle, hin⟩ := h
  obtain ⟨hle', hin'⟩ := h'
  refine ⟨hle.trans hle', fun hlt => ?_⟩
  rcases hle'.lt_or_eq with hmoved | rfl
  · exact hin' hmoved
  · exact hin hlt

/-- Bits that are skipped before a read need not exist (R311). -/
theorem ReadsTo.skip {q q' q'' : Nat} (hskip : q ≤ q') (h : ReadsTo e q' q'') (hmoves : q' < q'') : ReadsTo e q q'' :=
  ⟨hskip.trans h.1, fun _ => h.2 hmoves⟩

/-- A source byte that is read is inside the source window (R311, R330). -/
theorem sourceByte_inside {off : Nat} {b : Byte} (h : sourceByte e off = .ok b) : off < e.ops.srcLen.toNat := by
  unfold sourceByte at h
  split at h
  · cases h
  · omega

theorem streamBit_readsTo {q b : Nat} (h : streamBit e q = .ok b) : ReadsTo e q (q + 1) := by
  obtain ⟨byte, hbyte, -⟩ := bind_eq_ok.1 h
  exact ⟨Nat.le_succ q, fun _ => sourceByte_inside hbyte⟩

theorem streamBits_readsTo {n q v : Nat} (h : streamBits e n q = .ok v) : ReadsTo e q (q + n) := by
  induction n generalizing q v with
  | zero => exact .refl e q
  | succ n ih =>
    obtain ⟨b, hb, h⟩ := bind_eq_ok.1 h
    obtain ⟨rest, hrest, -⟩ := bind_eq_ok.1 h
    have htail := (streamBit_readsTo hb).trans (ih hrest)
    rwa [Nat.add_assoc, Nat.add_comm 1 n] at htail

theorem decodeSym_readsTo {cs : List Codeword} {fuel l c q s q' : Nat} (h : decodeSym e cs fuel l c q = .ok (s, q')) :
    ReadsTo e q q' := by
  induction fuel generalizing l c q with
  | zero => cases h
  | succ fuel ih =>
    unfold decodeSym at h
    split at h
    · obtain ⟨b, hb, h⟩ := bind_eq_ok.1 h
      split at h
      · cases h; exact streamBit_readsTo hb
      · exact (streamBit_readsTo hb).trans (ih h)
    · cases h

theorem nextSym_readsTo {cs : List Codeword} {q s q' : Nat} (h : nextSym e cs q = .ok (s, q')) : ReadsTo e q q' :=
  decodeSym_readsTo h

/-! ## Symbols -/

/-- The output does not move the bit position (R312). -/
theorem emit_q {b : Byte} {st st' : Inf} (h : emit e b st = .ok st') : st'.q = st.q := by
  obtain ⟨rfl, -⟩ := emit_eq_ok h
  rfl

theorem copyBytes_q {dist n : Nat} {st st' : Inf} (h : copyBytes e dist n st = .ok st') : st'.q = st.q := by
  induction n generalizing st with
  | zero => cases h; rfl
  | succ n ih =>
    obtain ⟨st1, hemit, h⟩ := bind_eq_ok.1 h
    rw [ih h, emit_q hemit]

theorem lengthSymbol_readsTo {dd : List Codeword} {s : Nat} {st st' : Inf} (h : lengthSymbol e dd s st = .ok st') :
    ReadsTo e st.q st'.q := by
  obtain ⟨lx, hlx, h⟩ := bind_eq_ok.1 h
  obtain ⟨⟨d, q⟩, hd, h⟩ := bind_eq_ok.1 h
  simp only at h
  split at h
  · cases h
  · obtain ⟨dx, hdx, h⟩ := bind_eq_ok.1 h
    split at h
    · cases h
    · rw [copyBytes_q h]
      exact ((streamBits_readsTo hlx).trans (nextSym_readsTo hd)).trans (streamBits_readsTo hdx)

/-! ## Blocks -/

theorem storedBytes_readsTo {n : Nat} {st st' : Inf} (h : storedBytes e n st = .ok st') : ReadsTo e st.q st'.q := by
  induction n generalizing st with
  | zero => cases h; exact .refl e _
  | succ n ih =>
    obtain ⟨v, hv, h⟩ := bind_eq_ok.1 h
    obtain ⟨st1, hemit, h⟩ := bind_eq_ok.1 h
    have hrest := ih h
    rw [emit_q hemit] at hrest
    exact (streamBits_readsTo hv).trans hrest

theorem le_alignByte (q : Nat) : q ≤ alignByte q := by
  unfold alignByte ceilDiv
  omega

/-- The bits skipped before a stored block are followed by its two length fields, which are read (R313). -/
theorem storedBlock_readsTo {st st' : Inf} (h : storedBlock e st = .ok st') : ReadsTo e st.q st'.q := by
  obtain ⟨len, hlen, h⟩ := bind_eq_ok.1 h
  obtain ⟨nlen, hnlen, h⟩ := bind_eq_ok.1 h
  split at h
  · cases h
  · have hfields := (streamBits_readsTo hlen).trans (streamBits_readsTo hnlen)
    exact (hfields.skip (le_alignByte st.q) (by omega)).trans (storedBytes_readsTo h)

theorem huffmanBlock_readsTo {ll dd : List Codeword} {fuel : Nat} {st st' : Inf}
    (h : huffmanBlock e ll dd fuel st = .ok st') : ReadsTo e st.q st'.q := by
  induction fuel generalizing st with
  | zero => cases h
  | succ fuel ih =>
    obtain ⟨⟨s, q⟩, hs, h⟩ := bind_eq_ok.1 h
    have hsym := nextSym_readsTo hs
    simp only at h
    split at h
    · obtain ⟨st1, hemit, h⟩ := bind_eq_ok.1 h
      have hrest := ih h
      rw [emit_q hemit] at hrest
      exact hsym.trans hrest
    · split at h
      · cases h; exact hsym
      · split at h
        · cases h
        · obtain ⟨st1, hlength, h⟩ := bind_eq_ok.1 h
          exact (hsym.trans (lengthSymbol_readsTo hlength)).trans (ih h)

theorem readCodeLengths_readsTo {ss cl cl' : List Nat} {q q' : Nat} (h : readCodeLengths e ss cl q = .ok (cl', q')) :
    ReadsTo e q q' := by
  induction ss generalizing cl q with
  | nil => cases h; exact .refl e _
  | cons s ss ih =>
    obtain ⟨v, hv, h⟩ := bind_eq_ok.1 h
    exact (streamBits_readsTo hv).trans (ih h)

theorem applyCodeLength_readsTo {s : Nat} {rev rev' : List Nat} {q q' : Nat}
    (h : applyCodeLength e s rev q = .ok (rev', q')) : ReadsTo e q q' := by
  unfold applyCodeLength at h
  split at h
  · cases h; exact .refl e q
  · split at h
    · cases rev with
      | nil => cases h
      | cons v rev =>
        obtain ⟨r, hr, h⟩ := bind_eq_ok.1 h
        cases h; exact streamBits_readsTo hr
    · split at h
      · obtain ⟨r, hr, h⟩ := bind_eq_ok.1 h
        cases h; exact streamBits_readsTo hr
      · obtain ⟨r, hr, h⟩ := bind_eq_ok.1 h
        cases h; exact streamBits_readsTo hr

theorem readLengths_readsTo {cl : List Codeword} {total fuel : Nat} {rev lens : List Nat} {q q' : Nat}
    (h : readLengths e cl total fuel rev q = .ok (lens, q')) : ReadsTo e q q' := by
  induction fuel generalizing rev q with
  | zero => cases h
  | succ fuel ih =>
    unfold readLengths at h
    split at h
    · cases h; exact .refl e _
    · obtain ⟨⟨s, q1⟩, hs, h⟩ := bind_eq_ok.1 h
      obtain ⟨⟨rev', q2⟩, hcode, h⟩ := bind_eq_ok.1 h
      simp only at h
      split at h
      · cases h
      · exact ((nextSym_readsTo hs).trans (applyCodeLength_readsTo hcode)).trans (ih h)

theorem dynamicHeader_readsTo {q q' : Nat} {ll dd : List Codeword} (h : dynamicHeader e q = .ok (ll, dd, q')) :
    ReadsTo e q q' := by
  obtain ⟨hlit, hhlit, h⟩ := bind_eq_ok.1 h
  obtain ⟨hdist, hhdist, h⟩ := bind_eq_ok.1 h
  obtain ⟨hclen, hhclen, h⟩ := bind_eq_ok.1 h
  have hcounts := ((streamBits_readsTo hhlit).trans (streamBits_readsTo hhdist)).trans (streamBits_readsTo hhclen)
  split at h
  · cases h
  · obtain ⟨⟨cl, q1⟩, hcl, h⟩ := bind_eq_ok.1 h
    simp only at h
    split at h
    · cases h
    · obtain ⟨⟨lens, q2⟩, hlens, h⟩ := bind_eq_ok.1 h
      obtain ⟨codes, -, h⟩ := bind_eq_ok.1 h
      cases h
      exact (hcounts.trans (readCodeLengths_readsTo hcl)).trans (readLengths_readsTo hlens)

theorem dynamicBlock_readsTo {st st' : Inf} (h : dynamicBlock e st = .ok st') : ReadsTo e st.q st'.q := by
  obtain ⟨⟨ll, dd, q⟩, hheader, h⟩ := bind_eq_ok.1 h
  exact (dynamicHeader_readsTo hheader).trans (huffmanBlock_readsTo h)

/-- A block of any type reads inside the source window (R312). -/
theorem blockBody_readsTo {btype : Nat} {st st' : Inf} (h : blockBody btype e st = .ok st') :
    ReadsTo e st.q st'.q := by
  match btype, h with
  | 0, h => exact storedBlock_readsTo h
  | 1, h => exact huffmanBlock_readsTo h
  | 2, h => exact dynamicBlock_readsTo h
  | _ + 3, h => cases h

/-- The block loop reads at least the first header's three bits (R312). -/
theorem inflateBlocks_readsTo {fuel : Nat} {st st' : Inf} (h : inflateBlocks e fuel st = .ok st') :
    ReadsTo e st.q st'.q ∧ st.q < st'.q := by
  induction fuel generalizing st with
  | zero => cases h
  | succ fuel ih =>
    obtain ⟨bfinal, hfin, h⟩ := bind_eq_ok.1 h
    obtain ⟨btype, htype, h⟩ := bind_eq_ok.1 h
    obtain ⟨st1, hbody, h⟩ := bind_eq_ok.1 h
    have hblock := blockBody_readsTo hbody
    have hread := ((streamBits_readsTo hfin).trans (streamBits_readsTo htype)).trans hblock
    have hmoves : st.q < st1.q := by have := hblock.1; simp only at this; omega
    split at h
    · cases h; exact ⟨hread, hmoves⟩
    · obtain ⟨hrest, -⟩ := ih h
      exact ⟨hread.trans hrest, hmoves.trans_le hrest.1⟩

end ReadsTo

/-! ## The stream -/

/-- The four bytes of a zlib trailer are inside the source window (R326). -/
theorem readTrailer_inside {e : InflateEnv} {q : Nat} {ab : Nat × Nat} (hz : zlibOf e.ops = true)
    (h : readTrailer e q ab = .ok ()) : e.start + ceilDiv q 8 + 3 < e.ops.srcLen.toNat := by
  simp only [readTrailer, hz, if_true] at h
  obtain ⟨t0, -, h⟩ := bind_eq_ok.1 h
  obtain ⟨t1, -, h⟩ := bind_eq_ok.1 h
  obtain ⟨t2, -, h⟩ := bind_eq_ok.1 h
  obtain ⟨t3, hlast, -⟩ := bind_eq_ok.1 h
  exact sourceByte_inside hlast

/-- Settles O51: a raw stream ends with the byte of the last bit that it read, a zlib stream with its trailer's last
byte. -/
theorem inflateStaysInWindows : Obligations.InflateStaysInWindows := by
  intro e out used hstart hstream
  refine ⟨?_, (inflateStream_bound hstream).1⟩
  obtain ⟨st, -, hblocks, htrailer, -, rfl⟩ := inflateStream_parts hstream
  cases hz : zlibOf e.ops with
  | true =>
    have hinside := readTrailer_inside hz htrailer
    simp only [hstart, streamStart, bytesUsed, hz, if_true] at hinside ⊢
    omega
  | false =>
    obtain ⟨⟨-, hinside⟩, hmoves⟩ := inflateBlocks_readsTo hblocks
    have hlast := hinside hmoves
    simp only [hstart, streamStart, bytesUsed, ceilDiv, hz, Bool.false_eq_true, if_false] at hlast hmoves ⊢
    omega

end Sys2Proof.Machine
end

section
/-! A raw stream of one final stored block (45_zpf_inflate R311 to R313, R324, R325): what the bit reader makes of whole
bytes, what a stored block makes of its payload, and the header of such a stream. -/

namespace Sys2Proof.Machine

/-! ## Whole bytes in the bit reader -/

/-- The bit reader finds the bytes `bs` from byte `j` of the stream on (R311). -/
def SourceHolds (e : InflateEnv) (j : Nat) (bs : List Byte) : Prop :=
  ∀ i < bs.length, sourceByte e (e.start + j + i) = .ok (bs.getD i 0)

section Reader

variable {e : InflateEnv}

theorem sourceHolds_cons {j : Nat} {b : Byte} {bs : List Byte} :
    SourceHolds e j (b :: bs) ↔ sourceByte e (e.start + j) = .ok b ∧ SourceHolds e (j + 1) bs := by
  constructor
  · refine fun h => ⟨h 0 (Nat.succ_pos _), fun i hi => ?_⟩
    rw [show e.start + (j + 1) + i = e.start + j + (i + 1) by omega]
    exact h (i + 1) (Nat.succ_lt_succ hi)
  · rintro ⟨hb, hbs⟩ (_ | i) hi
    · exact hb
    · rw [show e.start + j + (i + 1) = e.start + (j + 1) + i by omega]
      exact hbs i (Nat.lt_of_succ_lt_succ hi)

/-- Bits inside one byte are that byte's bits, least significant first (R311). -/
theorem streamBits_in_byte {j : Nat} {b : Byte} (hb : sourceByte e (e.start + j) = .ok b) {i n : Nat} (h : i + n ≤ 8) :
    streamBits e n (8 * j + i) = .ok (b.toNat / 2 ^ i % 2 ^ n) := by
  induction n generalizing i with
  | zero => simp [streamBits, Nat.mod_one]
  | succ n ih =>
    have hbyte : (8 * j + i) / 8 = j := by omega
    have hplace : (8 * j + i) % 8 = i := by omega
    have hbit : streamBit e (8 * j + i) = .ok (b.toNat / 2 ^ i % 2) := by
      rw [streamBit, hbyte, hplace]
      exact bind_eq_ok.2 ⟨b, hb, by rw [← Nat.shiftRight_eq_div_pow]; rfl⟩
    refine bind_eq_ok.2 ⟨_, hbit, bind_eq_ok.2 ⟨_, ih (i := i + 1) (by omega), congrArg Except.ok ?_⟩⟩
    rw [pow_succ' 2 n, Nat.mod_mul, pow_succ, Nat.div_div_eq_div_mul]

theorem streamBits_byte {j : Nat} {b : Byte} (hb : sourceByte e (e.start + j) = .ok b) :
    streamBits e 8 (8 * j) = .ok b.toNat := by
  have hbits := streamBits_in_byte hb (i := 0) (n := 8) le_rfl
  rwa [pow_zero, Nat.div_one, Nat.mod_eq_of_lt b.isLt] at hbits

/-- Bits read in two goes (R311). -/
theorem streamBits_add {m n q u v : Nat} (hlow : streamBits e m q = .ok u) (hhigh : streamBits e n (q + m) = .ok v) :
    streamBits e (m + n) q = .ok (u + 2 ^ m * v) := by
  induction m generalizing q u with
  | zero =>
    cases hlow
    simpa using hhigh
  | succ m ih =>
    obtain ⟨b, hb, hlow⟩ := bind_eq_ok.1 hlow
    obtain ⟨rest, hrest, hlow⟩ := bind_eq_ok.1 hlow
    cases hlow
    rw [← Nat.add_assoc, Nat.add_right_comm] at hhigh
    rw [Nat.add_right_comm]
    refine bind_eq_ok.2 ⟨b, hb, bind_eq_ok.2 ⟨_, ih hrest hhigh, congrArg Except.ok ?_⟩⟩
    ring

/-- A field of two bytes is little-endian (R313). -/
theorem streamBits_two_bytes {j : Nat} {b0 b1 : Byte} (h0 : sourceByte e (e.start + j) = .ok b0)
    (h1 : sourceByte e (e.start + (j + 1)) = .ok b1) : streamBits e 16 (8 * j) = .ok (b0.toNat + 256 * b1.toNat) :=
  streamBits_add (m := 8) (streamBits_byte h0) (streamBits_byte h1)

/-! ## The stored block -/

/-- A byte that fits the limit, at a valid address, is emitted (R312, R331). -/
theorem emit_ok {st : Inf} (hroom : st.len < e.limit) (hvalid : memValid e.mm (e.outBase + st.len) = true) (b : Byte) :
    emit e b st = .ok { st with rev := b :: st.rev, len := st.len + 1 } := by
  rw [emit, if_neg (Nat.not_le.2 hroom), if_pos hvalid]

/-- Whole bytes that the source holds and the output has room for are emitted in order (R313). -/
theorem storedBytes_ok {j : Nat} {bs : List Byte} (hsrc : SourceHolds e j bs) {rev : List Byte} {len : Nat}
    (hroom : len + bs.length ≤ e.limit) (hvalid : ∀ i < bs.length, memValid e.mm (e.outBase + len + i) = true) :
    storedBytes e bs.length ⟨8 * j, rev, len⟩ = .ok ⟨8 * (j + bs.length), bs.reverse ++ rev, len + bs.length⟩ := by
  induction bs generalizing j rev len with
  | nil => rfl
  | cons b bs ih =>
    obtain ⟨hb, hsrc⟩ := sourceHolds_cons.1 hsrc
    simp only [List.length_cons] at hroom hvalid
    have hemit : emit e (BitVec.ofNat 8 b.toNat) ⟨8 * j + 8, rev, len⟩ = .ok ⟨8 * (j + 1), b :: rev, len + 1⟩ := by
      rw [BitVec.ofNat_toNat, BitVec.setWidth_eq]
      exact emit_ok (by simp only; omega) (hvalid 0 (Nat.succ_pos _)) b
    have hrest := ih hsrc (rev := b :: rev) (len := len + 1) (by omega) fun i hi => by
      rw [show e.outBase + (len + 1) + i = e.outBase + len + (i + 1) by omega]
      exact hvalid (i + 1) (by omega)
    refine bind_eq_ok.2 ⟨_, streamBits_byte hb, bind_eq_ok.2 ⟨_, hemit, ?_⟩⟩
    simpa [Nat.add_assoc, Nat.add_comm 1] using hrest

/-- The complement of a length field (R313). -/
theorem xor_ffff {n : Nat} (h : n < 65536) : n ^^^ 0xFFFF = 65535 - n := by
  have hnot := congrArg BitVec.toNat (BitVec.xor_allOnes (x := BitVec.ofNat 16 n))
  simpa [Nat.mod_eq_of_lt h] using hnot

/-- The four bytes before the payload of a stored block: its length and the complement of its length (R313). -/
def storedHeader (n : Nat) : List Byte :=
  [BitVec.ofNat 8 (n % 256), BitVec.ofNat 8 (n / 256), BitVec.ofNat 8 (255 - n % 256), BitVec.ofNat 8 (255 - n / 256)]

/-- A stored block whose header starts with the next byte emits its payload (R313). -/
theorem storedBlock_ok {j q : Nat} {bs : List Byte} (hlen : bs.length < 65536) (hq : alignByte q = 8 * j)
    (hsrc : SourceHolds e j (storedHeader bs.length ++ bs)) {rev : List Byte} {len : Nat}
    (hroom : len + bs.length ≤ e.limit) (hvalid : ∀ i < bs.length, memValid e.mm (e.outBase + len + i) = true) :
    storedBlock e ⟨q, rev, len⟩ = .ok ⟨8 * (j + 4 + bs.length), bs.reverse ++ rev, len + bs.length⟩ := by
  simp only [storedHeader, List.cons_append, List.nil_append, sourceHolds_cons] at hsrc
  obtain ⟨hlen0, hlen1, hnlen0, hnlen1, hpayload⟩ := hsrc
  have hlenField : streamBits e 16 (alignByte q) = .ok bs.length := by
    rw [hq, streamBits_two_bytes hlen0 hlen1]
    simp only [BitVec.toNat_ofNat, Except.ok.injEq]
    omega
  have hnlenField : streamBits e 16 (alignByte q + 16) = .ok (bs.length ^^^ 0xFFFF) := by
    rw [hq, show 8 * j + 16 = 8 * (j + 1 + 1) by ring, streamBits_two_bytes hnlen0 hnlen1, xor_ffff hlen]
    simp only [BitVec.toNat_ofNat, Except.ok.injEq]
    omega
  refine bind_eq_ok.2 ⟨_, hlenField, bind_eq_ok.2 ⟨_, hnlenField, ?_⟩⟩
  rw [if_neg (not_not.2 rfl), hq, show 8 * j + 32 = 8 * (j + 1 + 1 + 1 + 1) by ring]
  exact storedBytes_ok hpayload hroom hvalid

/-! ## The stream -/

/-- A stream whose first byte is the header of a final stored block ends with that block (R312, R324). -/
theorem inflateBlocks_stored (hheader : sourceByte e (e.start + 0) = .ok 0x01) {st : Inf}
    (hblock : storedBlock e ⟨3, [], 0⟩ = .ok st) : inflateBlocks e (streamFuel e) ⟨0, [], 0⟩ = .ok st := by
  have hfin : streamBits e 1 0 = .ok 1 := streamBits_in_byte hheader (i := 0) (by decide)
  have htype : streamBits e 2 1 = .ok 0 := streamBits_in_byte hheader (i := 1) (by decide)
  rw [streamFuel]
  exact bind_eq_ok.2 ⟨1, hfin, bind_eq_ok.2 ⟨0, htype, bind_eq_ok.2 ⟨st, hblock, rfl⟩⟩⟩

end Reader

/-- The source bytes of a raw stream as memory holds them, inside the window and at valid addresses (R311, R330). -/
theorem sourceHolds_of_peekBytes {mm : List Region} {o : Operands} {m : Memory} {bs : List Byte}
    (hraw : zlibOf o = false) (hwindow : o.srcPos.toNat + bs.length ≤ o.srcLen.toNat)
    (hvalid : ∀ a, inRange (streamSource o) a = true → memValid mm a = true)
    (hbytes : peekBytes m (o.srcBase.toNat + o.srcPos.toNat) bs.length = bs) :
    SourceHolds (inflateEnv mm o m) 0 bs := by
  intro i hi
  have hin : memValid mm (o.srcBase.toNat + (o.srcPos.toNat + i)) = true :=
    hvalid _ (inRange_iff.2 (by simp only [streamSource, sourceFrom]; omega))
  have hbyte := peekBytes_getD m (o.srcBase.toNat + o.srcPos.toNat) bs.length i hi 0
  rw [hbytes, Nat.add_assoc] at hbyte
  simp only [sourceByte, inflateEnv, streamStart, hraw, Bool.false_eq_true, if_false, Nat.add_zero]
  rw [if_neg (by omega)]
  exact readByte_eq_ok.2 ⟨hin, hbyte⟩

/-- A raw stream has neither a zlib header nor a trailer (R326). -/
theorem inflateStream_raw {e : InflateEnv} (hraw : zlibOf e.ops = false) {st : Inf}
    (hblocks : inflateBlocks e (streamFuel e) ⟨0, [], 0⟩ = .ok st) :
    inflateStream e = .ok (st.rev.reverse, ceilDiv st.q 8) := by
  simp [inflateStream, readHeader, readTrailer, bytesUsed, hraw, hblocks, bind, Except.bind, pure, Except.pure]

/-- The bytes of a raw stream of one final stored block (R312, R313). -/
def storedStream (bs : List Byte) : List Byte := 0x01 :: (storedHeader bs.length ++ bs)

theorem storedStream_length (bs : List Byte) : (storedStream bs).length = 5 + bs.length := by
  simp only [storedStream, storedHeader, List.length_cons, List.length_append, List.length_nil]
  omega

/-- Settles O50: the first byte is the header of a final stored block, the next four are its lengths, and the block
emits the rest. -/
theorem storedBlockInflates : Obligations.StoredBlockInflates := by
  intro mm o m bs hraw hlen hroom hwindow hvalid hbytes
  have hstream : peekBytes m (o.srcBase.toNat + o.srcPos.toNat) (storedStream bs).length = storedStream bs := by
    rw [storedStream_length]
    exact hbytes
  have hsrc := sourceHolds_of_peekBytes (mm := mm) hraw (by rw [storedStream_length]; omega) (hvalid _ (.head _))
    hstream
  obtain ⟨hheader, hblock⟩ := sourceHolds_cons.1 hsrc
  have hout : ∀ i < bs.length, memValid mm (o.dstBase.toNat + 0 + i) = true := fun i hi =>
    hvalid _ (.tail _ (.head _)) _ (inRange_iff.2 (by simp only [dstWindow]; omega))
  have hstored := storedBlock_ok (q := 3) (rev := []) hlen (by decide) hblock (by simpa [inflateEnv] using hroom) hout
  rw [inflateStream_raw (e := inflateEnv mm o m) hraw (inflateBlocks_stored hheader hstored)]
  simp only [List.append_nil, List.reverse_reverse, ceilDiv, Except.ok.injEq, Prod.mk.injEq, true_and]
  omega

end Sys2Proof.Machine
end

section
/-! The normalised pixel (46_nrm_normalizer R362 to R373): every step from the channel values to the output channels keeps
the order of its arguments, and the output for `⟨1, 1, 1, 1⟩` bounds that of every pixel of unit values. -/

namespace Sys2Proof.Machine

/-! ## Quantisation (R372) -/

theorem nrmQuant_eq_natFloor (q : ℚ) : nrmQuant q = ⌊q⌋₊ := rfl

theorem nrmQuant_mono {p q : ℚ} (h : p ≤ q) : nrmQuant p ≤ nrmQuant q := Nat.floor_mono h

@[simp] theorem nrmQuant_zero : nrmQuant 0 = 0 := (nrmQuant_eq_natFloor 0).trans Nat.floor_zero

@[simp] theorem nrmQuant_65535 : nrmQuant 65535 = 65535 :=
  (nrmQuant_eq_natFloor 65535).trans (Nat.floor_natCast 65535)

/-- Floor quantisation of a fraction is integer division. -/
theorem nrmQuant_div (m n : Nat) : nrmQuant ((m : ℚ) / (n : ℚ)) = m / n :=
  (nrmQuant_eq_natFloor _).trans (Nat.floor_div_eq_div m n)

/-! ## Unit values (R365, R366, R373) -/

theorem clamp01_fin (q : ℚ) : clamp01 (.fin q) = max 0 (min 1 q) := by
  simp only [clamp01]
  split_ifs with hneg hbig
  · rw [max_eq_left ((min_le_right 1 q).trans hneg)]
  · rw [min_eq_left hbig, max_eq_right zero_le_one]
  · rw [min_eq_right (not_le.1 hbig).le, max_eq_right (not_le.1 hneg).le]

theorem clamp01_mem_unit (x : FloatVal) : 0 ≤ clamp01 x ∧ clamp01 x ≤ 1 := by
  cases x with
  | nan => exact ⟨le_rfl, zero_le_one⟩
  | inf neg => cases neg <;> simp [clamp01]
  | fin q => simp [clamp01_fin]

/-- The clamp keeps the order of the numbers, infinities included (R365). -/
theorem clamp01_mono {x y : FloatVal} (h : numberLe x y) : clamp01 x ≤ clamp01 y := by
  match x, y with
  | .fin p, .fin q =>
    have hpq : p ≤ q := h
    rw [clamp01_fin, clamp01_fin]
    exact max_le_max le_rfl (min_le_min le_rfl hpq)
  | .inf neg, .fin q =>
    cases (h : neg = true)
    exact (clamp01_mem_unit (.fin q)).1
  | .fin p, .inf neg =>
    cases (h : neg = false)
    exact (clamp01_mem_unit (.fin p)).2
  | .inf neg, .inf neg' =>
    rcases (h : neg = true ∨ neg' = false) with rfl | rfl
    · exact (clamp01_mem_unit (.inf neg')).1
    · exact (clamp01_mem_unit (.inf neg)).2
  | .nan, _ => exact h.elim
  | .fin _, .nan => exact h.elim
  | .inf _, .nan => exact h.elim

/-- A channel that is left alone may be a NaN (R366; R378 item 7). -/
theorem clamp01_mono_of_raised {val : Nat → FloatVal} {x y : Nat} (h : x = y ∨ numberLe (val x) (val y)) :
    clamp01 (val x) ≤ clamp01 (val y) := by
  rcases h with rfl | hle
  · exact le_rfl
  · exact clamp01_mono hle

theorem unitValue_nonneg (fmt : NrmFormat) (x : Nat) : 0 ≤ unitValue fmt x := by
  cases fmt with
  | f32 => exact (clamp01_mem_unit _).1
  | f16 => exact (clamp01_mem_unit _).1
  | u32 => exact div_nonneg (Nat.cast_nonneg x) (Nat.cast_nonneg _)

/-- An unsigned channel is a fraction of its largest pattern, so the bound needs the format's width. -/
theorem unitValue_le_one (fmt : NrmFormat) {x : Nat} (h : x < 2 ^ 32) : unitValue fmt x ≤ 1 := by
  cases fmt with
  | f32 => exact (clamp01_mem_unit _).2
  | f16 => exact (clamp01_mem_unit _).2
  | u32 => exact div_le_one_of_le₀ (Nat.cast_le.2 (Nat.le_sub_one_of_lt h)) (Nat.cast_nonneg _)

theorem unitValue_mono {fmt : NrmFormat} {x y : Nat} (h : channelLe fmt x y) : unitValue fmt x ≤ unitValue fmt y := by
  cases fmt with
  | f32 => exact clamp01_mono_of_raised h
  | f16 => exact clamp01_mono_of_raised h
  | u32 => exact div_le_div_of_nonneg_right (Nat.cast_le.2 h) (Nat.cast_nonneg _)

/-! ## Raising the channels of a pixel (R378 item 7) -/

/-- The channels of `u` are not negative, and those of `v` are no lower. -/
structure RaisedTo (u v : Rgba ℚ) : Prop where
  r : 0 ≤ u.r ∧ u.r ≤ v.r
  g : 0 ≤ u.g ∧ u.g ≤ v.g
  b : 0 ≤ u.b ∧ u.b ≤ v.b
  a : 0 ≤ u.a ∧ u.a ≤ v.a

/-- No output channel of `p` is above that of `q`. -/
structure OutputLe (p q : Rgba Nat) : Prop where
  r : p.r ≤ q.r
  g : p.g ≤ q.g
  b : p.b ≤ q.b
  a : p.a ≤ q.a

/-- Each gray setting copies channels and the constant 1 (R367). -/
theorem RaisedTo.grayTransform {u v : Rgba ℚ} (h : RaisedTo u v) :
    ∀ g, RaisedTo (grayTransform g u) (grayTransform g v)
  | 1 => ⟨h.r, h.r, h.r, zero_le_one, le_rfl⟩
  | 2 => ⟨h.g, h.g, h.g, zero_le_one, le_rfl⟩
  | 3 => ⟨h.b, h.b, h.b, zero_le_one, le_rfl⟩
  | 4 => ⟨h.a, h.a, h.a, zero_le_one, le_rfl⟩
  | 5 => ⟨h.r, h.g, h.b, zero_le_one, le_rfl⟩
  | 0 | _ + 6 => h

/-- A premultiplied colour is monotone in the colour and in the alpha (R370 to R372). -/
theorem nrmQuant_premultiply_mono {c d a b : ℚ} (hc : 0 ≤ c ∧ c ≤ d) (ha : 0 ≤ a ∧ a ≤ b) :
    nrmQuant (65535 * c * a) ≤ nrmQuant (65535 * d * b) := by
  obtain ⟨hc0, hcd⟩ := hc
  obtain ⟨ha0, hab⟩ := ha
  have hd0 := hc0.trans hcd
  exact nrmQuant_mono (by gcongr)

theorem RaisedTo.premultiplied {u v : Rgba ℚ} (h : RaisedTo u v) : OutputLe (premultiplied u) (premultiplied v) where
  r := nrmQuant_premultiply_mono h.r h.a
  g := nrmQuant_premultiply_mono h.g h.a
  b := nrmQuant_premultiply_mono h.b h.a
  a := nrmQuant_mono (mul_le_mul_of_nonneg_left h.a.2 (by norm_num))

/-- Settles O59: raised channels have raised unit values, and the gray transform and the premultiplication keep that. -/
theorem nrmMonotone : Obligations.NrmMonotone := by
  constructor
  case left =>
    intro fmt g x y hr hg hb ha
    have hunit : RaisedTo (unitPixel fmt x) (unitPixel fmt y) :=
      ⟨⟨unitValue_nonneg fmt _, unitValue_mono hr⟩, ⟨unitValue_nonneg fmt _, unitValue_mono hg⟩,
        ⟨unitValue_nonneg fmt _, unitValue_mono hb⟩, ⟨unitValue_nonneg fmt _, unitValue_mono ha⟩⟩
    obtain ⟨hr', hg', hb', ha'⟩ := (hunit.grayTransform g).premultiplied
    exact ⟨hr', hg', hb', ha'⟩
  case right =>
    intro g u v hr0 hg0 hb0 ha0 hr hg hb ha
    have huv : RaisedTo u v := ⟨⟨hr0, hr⟩, ⟨hg0, hg⟩, ⟨hb0, hb⟩, ⟨ha0, ha⟩⟩
    obtain ⟨hr', hg', hb', ha'⟩ := (huv.grayTransform g).premultiplied
    exact ⟨hr', hg', hb', ha'⟩

/-! ## Range, premultiplication, opacity and gray (R378 items 2 to 6) -/

/-- Opaque white. -/
def unitWhite : Rgba ℚ := ⟨1, 1, 1, 1⟩

/-- The gray settings keep opaque white (R367). -/
theorem grayTransform_unitWhite : ∀ g, grayTransform g unitWhite = unitWhite
  | 0 | 1 | 2 | 3 | 4 | 5 | _ + 6 => rfl

theorem premultiplied_unitWhite : premultiplied unitWhite = ⟨65535, 65535, 65535, 65535⟩ := by
  simp [premultiplied, unitWhite]

/-- A pixel of unit values lies below opaque white. -/
theorem unitPixel_raisedTo_unitWhite (fmt : NrmFormat) {x : Rgba Nat} (hr : x.r < 2 ^ 32) (hg : x.g < 2 ^ 32)
    (hb : x.b < 2 ^ 32) (ha : x.a < 2 ^ 32) : RaisedTo (unitPixel fmt x) unitWhite where
  r := ⟨unitValue_nonneg fmt _, unitValue_le_one fmt hr⟩
  g := ⟨unitValue_nonneg fmt _, unitValue_le_one fmt hg⟩
  b := ⟨unitValue_nonneg fmt _, unitValue_le_one fmt hb⟩
  a := ⟨unitValue_nonneg fmt _, unitValue_le_one fmt ha⟩

/-- A colour of at most 1 times the alpha is at most the alpha (R378 item 3). -/
theorem nrmQuant_premultiply_le_alpha {c a : ℚ} (hc : 0 ≤ c ∧ c ≤ 1) (ha : 0 ≤ a) :
    nrmQuant (65535 * c * a) ≤ nrmQuant (65535 * a) := by
  have hle := nrmQuant_premultiply_mono hc ⟨ha, le_rfl⟩
  rwa [mul_one] at hle

/-- The gray settings 1 to 5 are opaque (R367). -/
theorem grayTransform_opaque (u : Rgba ℚ) : ∀ g, 1 ≤ g → g ≤ 5 → (grayTransform g u).a = 1
  | 1, _, _ | 2, _, _ | 3, _, _ | 4, _, _ | 5, _, _ => rfl

/-- The gray settings 1 to 4 give one value to the three colours (R367). -/
theorem grayTransform_gray (u : Rgba ℚ) :
    ∀ g, 1 ≤ g → g ≤ 4 → (grayTransform g u).r = (grayTransform g u).g ∧ (grayTransform g u).g = (grayTransform g u).b
  | 1, _, _ | 2, _, _ | 3, _, _ | 4, _, _ => ⟨rfl, rfl⟩

/-- A transparent pixel is all zeros, whatever its colours. -/
theorem premultiplied_of_transparent {t : Rgba ℚ} (h : t.a = 0) : premultiplied t = ⟨0, 0, 0, 0⟩ := by
  simp [premultiplied, h]

/-- Without a gray setting the unit values themselves are premultiplied (R367). -/
theorem nrmPixel_ungrayed (fmt : NrmFormat) (x : Rgba Nat) : nrmPixel fmt 0 x = premultiplied (unitPixel fmt x) := rfl

/-- Settles O58: the transformed pixel lies below opaque white, which bounds its channels by 65535 and its colours by the
alpha; the rest is what the gray settings give and what the end points of the unit values come to. -/
theorem nrmPixelProperties : Obligations.NrmPixelProperties := by
  intro fmt g x hr hg hb ha
  have hbelow := (unitPixel_raisedTo_unitWhite fmt hr hg hb ha).grayTransform g
  rw [grayTransform_unitWhite] at hbelow
  have halpha : 0 ≤ (grayTransform g (unitPixel fmt x)).a := hbelow.a.1
  have hrange := hbelow.premultiplied.a
  rw [premultiplied_unitWhite] at hrange
  refine ⟨hrange, nrmQuant_premultiply_le_alpha hbelow.r halpha, nrmQuant_premultiply_le_alpha hbelow.g halpha,
    nrmQuant_premultiply_le_alpha hbelow.b halpha, fun hlo hhi => ?isOpaque, fun hlo hhi => ?gray,
    fun hclear => ?transparent, fun hr1 hg1 hb1 ha1 => ?white⟩
  case isOpaque => simp [nrmPixel, premultiplied, grayTransform_opaque (unitPixel fmt x) g hlo hhi]
  case gray =>
    obtain ⟨hrg, hgb⟩ := grayTransform_gray (unitPixel fmt x) g hlo hhi
    simp [nrmPixel, premultiplied, hrg, hgb]
  case transparent => rw [nrmPixel_ungrayed, premultiplied_of_transparent (t := unitPixel fmt x) hclear]
  case white =>
    have hwhite : unitPixel fmt x = unitWhite := by rw [unitPixel, hr1, hg1, hb1, ha1, unitWhite]
    rw [nrmPixel_ungrayed, hwhite, premultiplied_unitWhite]

/-! ## The closed form of an unsigned pixel (R373) -/

/-- The largest channel pattern is `65535 · 65537`, so one factor 65535 cancels. -/
theorem nrmQuant_unsigned_color (c a : Nat) :
    nrmQuant (65535 * unitValue .u32 c * unitValue .u32 a) = c * a / (65537 * (2 ^ 32 - 1)) := by
  have hfraction : 65535 * unitValue .u32 c * unitValue .u32 a =
      ((c * a : ℕ) : ℚ) / ((65537 * (2 ^ 32 - 1) : ℕ) : ℚ) := by
    norm_num [unitValue]
    ring
  rw [hfraction, nrmQuant_div]

theorem nrmQuant_unsigned_alpha (a : Nat) : nrmQuant (65535 * unitValue .u32 a) = a / 65537 := by
  have hfraction : 65535 * unitValue .u32 a = (a : ℚ) / ((65537 : ℕ) : ℚ) := by
    norm_num [unitValue]
    ring
  rw [hfraction, nrmQuant_div]

/-- Settles O60: channel by channel, the one rounding is an integer division. -/
theorem nrmUnsignedClosedForm : Obligations.NrmUnsignedClosedForm := by
  intro x
  rw [nrmPixel_ungrayed]
  simp only [premultiplied, unitPixel, nrmQuant_unsigned_color, nrmQuant_unsigned_alpha]

end Sys2Proof.Machine
end

section
/-! The NRM commands (46_nrm_normalizer R360, R369, R374 to R377): the windows are apart, so the loop reads every pixel as
it stood when the command began, and no pixel, once stored, is stored to again. -/

namespace Sys2Proof.Machine

/-! ## What the start checks give -/

/-- The reserved gray settings are the first check (R369). -/
theorem nrmCheck_badMode (fmt : NrmFormat) {o : Operands} (h : grayOf o = 6 ∨ grayOf o = 7) :
    nrmCheck fmt o = some (.badMode (grayOf o)) :=
  firstTrap_cons_eq_some.2 (.inl ⟨decide_eq_true h, rfl⟩)

/-- An NRM command starts where everything fits and the source is not short (R360). -/
theorem nrmCheck_eq_none {fmt : NrmFormat} {o : Operands} :
    nrmCheck fmt o = none ↔ NrmFits o ∧ ¬SourceShort (pixelBytes fmt) o := by
  have hneeded : 0 < countOf o → 0 < pixelBytes fmt * countOf o := Nat.mul_pos (pixelBytes_pos fmt)
  simp only [nrmCheck, firstTrap_eq_none, List.forall_mem_cons, List.not_mem_nil, false_implies, implies_true,
    and_true, decide_eq_false_iff_not, gt_iff_lt, not_lt]
  constructor
  · rintro ⟨hgray, hsrc, hdst, hlen, hapart, hpast, hshort⟩
    refine ⟨⟨hgray, hsrc, hdst, hlen, hapart⟩, ?_⟩
    unfold SourceShort
    omega
  · rintro ⟨⟨hgray, hsrc, hdst, hlen, hapart⟩, hshort⟩
    unfold SourceShort at hshort
    exact ⟨hgray, hsrc, hdst, hlen, hapart, by omega, by omega⟩

/-- Where pixel `k` of the source stands (R375). -/
def pixelAddr (fmt : NrmFormat) (o : Operands) (k : Nat) : Nat :=
  o.srcBase.toNat + o.srcPos.toNat + k * pixelBytes fmt

section Loop

variable {fmt : NrmFormat} {mm : List Region} {o : Operands} {n k j c : Nat} {m m' : Memory}

/-- The pixels of a command that has passed its checks lie in its entitled source (R360). -/
theorem pixel_in_source (hcheck : nrmCheck fmt o = none) (hk : k < countOf o) (hc : c < pixelBytes fmt) :
    inRange ((nrmRule fmt).source o) (pixelAddr fmt o k + c) = true := by
  obtain ⟨-, hlong⟩ := nrmCheck_eq_none.1 hcheck
  have hpixels : k * pixelBytes fmt + pixelBytes fmt ≤ pixelBytes fmt * countOf o := by
    rw [← Nat.add_one_mul, Nat.mul_comm]
    exact Nat.mul_le_mul_left _ hk
  unfold SourceShort at hlong
  refine inRange_iff.2 ?_
  simp only [nrmRule, sourceFrom, pixelAddr]
  omega

/-- The entitled source has no byte of the destination pixels (R360; 20_memory R80). -/
theorem nrmCheck_clear (hcheck : nrmCheck fmt o = none) {a : Nat}
    (ha : inRange ((nrmRule fmt).source o) a = true) :
    ¬(o.dstBase.toNat ≤ a ∧ a < o.dstBase.toNat + 8 * countOf o) := by
  obtain ⟨hfits, -⟩ := nrmCheck_eq_none.1 hcheck
  have hapart := hfits.apart
  have hlen := hfits.dstLen
  rw [anyOverlap_pair] at hapart
  have hsrc : inRange (srcWindow o) a = true := by
    rw [inRange_iff] at ha ⊢
    simp only [nrmRule, sourceFrom, srcWindow] at ha ⊢
    omega
  have hdst := not_inRange_of_not_overlap hapart hsrc
  rw [Bool.eq_false_iff, ne_eq, inRange_iff] at hdst
  simp only [dstWindow] at hdst
  omega

/-! ## The pixel loop -/

/-- What one pixel of the loop comes to: its source bytes are read and the eight bytes of its result are stored. -/
theorem nrmOne_eq_ok : nrmOne fmt mm o k m = .ok m' ↔
    (∀ c < pixelBytes fmt, memValid mm (pixelAddr fmt o k + c) = true) ∧
      storeBytes mm m (o.dstBase.toNat + 8 * k)
        (pixelOut (nrmPixel fmt (grayOf o) (pixelChannels fmt (peekBytes m (pixelAddr fmt o k) (pixelBytes fmt))))) =
          .ok m' := by
  constructor
  · intro h
    obtain ⟨bs, hread, hstore⟩ := bind_eq_ok.1 h
    obtain ⟨hvalid, rfl⟩ := readBytes_eq_ok.1 hread
    exact ⟨hvalid, hstore⟩
  · rintro ⟨hvalid, hstore⟩
    exact bind_eq_ok.2 ⟨_, readBytes_eq_ok.2 ⟨hvalid, rfl⟩, hstore⟩

/-- The loop finishes over the pixels of the command, where the entitled set is valid. -/
theorem nrmLoop_ok (hcheck : nrmCheck fmt o = none)
    (hvalid : allValid mm ((nrmRule fmt).source o :: (nrmRule fmt).outputs o)) (hn : k + n ≤ countOf o) (m : Memory) :
    ∃ m', nrmLoop fmt mm o n k m = .ok m' := by
  induction n generalizing k m with
  | zero => exact ⟨m, rfl⟩
  | succ n ih =>
    have hsource : ∀ c < pixelBytes fmt, memValid mm (pixelAddr fmt o k + c) = true := fun c hc =>
      hvalid _ (.head _) _ (pixel_in_source hcheck (by omega) hc)
    obtain ⟨m1, hstore⟩ := storeBytes_ok (mm := mm) m (a := o.dstBase.toNat + 8 * k)
      (bs := pixelOut (nrmPixel fmt (grayOf o) (pixelChannels fmt (peekBytes m (pixelAddr fmt o k) (pixelBytes fmt)))))
      fun c hc => hvalid _ (.tail _ (.head _)) _ (inRange_iff.2 (by rw [pixelOut_length] at hc; dsimp only; omega))
    obtain ⟨m', hrest⟩ := ih (k := k + 1) (by omega) m1
    exact ⟨m', bind_eq_ok.2 ⟨m1, nrmOne_eq_ok.2 ⟨hsource, hstore⟩, hrest⟩⟩

/-- The loop from pixel `k` on leaves the pixels before it alone. -/
theorem nrmLoop_keeps_before (h : nrmLoop fmt mm o n k m = .ok m') {a : Nat} (ha : a < o.dstBase.toNat + 8 * k) :
    memGet m' a = memGet m a := by
  induction n generalizing k m with
  | zero => cases h; rfl
  | succ n ih =>
    obtain ⟨m1, hone, hrest⟩ := bind_eq_ok.1 h
    obtain ⟨-, hstore⟩ := nrmOne_eq_ok.1 hone
    rw [ih hrest (by omega), storeBytes_frame hstore (by omega)]

/-- The store of one pixel leaves the source of every pixel alone. -/
theorem nrmOne_keeps_source (hcheck : nrmCheck fmt o = none) (h : nrmOne fmt mm o k m = .ok m') (hk : k < countOf o)
    (hj : j < countOf o) :
    peekBytes m' (pixelAddr fmt o j) (pixelBytes fmt) = peekBytes m (pixelAddr fmt o j) (pixelBytes fmt) := by
  obtain ⟨-, hstore⟩ := nrmOne_eq_ok.1 h
  refine peekBytes_congr _ _ _ _ fun c hc => storeBytes_frame hstore ?_
  have hclear := nrmCheck_clear hcheck (pixel_in_source hcheck hj hc)
  rw [pixelOut_length]
  omega

/-- After the loop each of its pixels is the normalised one of the source as it stood before (R373 to R375). -/
theorem nrmLoop_pixel (hcheck : nrmCheck fmt o = none) (hm : m.wf) (h : nrmLoop fmt mm o n k m = .ok m')
    (hn : k + n ≤ countOf o) (hkj : k ≤ j) (hj : j < k + n) :
    peekBytes m' (o.dstBase.toNat + 8 * j) 8 =
      pixelOut (nrmPixel fmt (grayOf o) (pixelChannels fmt (peekBytes m (pixelAddr fmt o j) (pixelBytes fmt)))) := by
  induction n generalizing k m with
  | zero => omega
  | succ n ih =>
    obtain ⟨m1, hone, hrest⟩ := bind_eq_ok.1 h
    obtain ⟨-, hstore⟩ := nrmOne_eq_ok.1 hone
    rcases Nat.eq_or_lt_of_le hkj with rfl | hlater
    · rw [peekBytes_congr m1 m' _ _ fun c hc => nrmLoop_keeps_before hrest (by omega)]
      have hpeek := storeBytes_peek hstore hm
      rwa [pixelOut_length] at hpeek
    · rw [ih (storeBytes_wf hstore hm) hrest (by omega) (by omega) (by omega),
        nrmOne_keeps_source hcheck hone (by omega) (by omega)]

end Loop

/-! ## The commands -/

/-- The commands of the statement are the model's three NRM rows (R375 to R377). -/
theorem ruleOf_nrm {i : Instr} {fmt : NrmFormat}
    (h : (i, fmt) ∈ [(Instr.nrmF32, NrmFormat.f32), (.nrmF16, .f16), (.nrmU32, .u32)]) :
    ruleOf i = some (nrmRule fmt) := by
  simp only [List.mem_cons, Prod.mk.injEq, List.not_mem_nil, or_false] at h
  rcases h with ⟨rfl, rfl⟩ | ⟨rfl, rfl⟩ | ⟨rfl, rfl⟩ <;> rfl

/-- Settles O56: the loop finishes, each of its pixels is in place, and completion has no scratch range. -/
theorem nrmCompletes : Obligations.NrmCompletes := by
  intro i fmt s o hrow hat hm hcheck hvalid
  obtain ⟨m, hloop⟩ := nrmLoop_ok hcheck hvalid (k := 0) (n := countOf o) (by omega) s.mem
  have hrun : (nrmRule fmt).run s.memMap o s.mem = .ok (nrmFinished fmt o m) := map_eq_ok.2 ⟨m, hloop, rfl⟩
  refine ⟨_, exec_finishes hat (ruleOf_nrm hrow) hcheck hvalid hrun, ?_, fun k hk => ?_, fun a ha => ?_⟩
  · exact finishCommand_completedAs hat (nrmFinished fmt o m)
  · rw [peekBytes_congr m _ _ _ fun c _ => memGet_finishCommand rfl]
    exact nrmLoop_pixel hcheck hm hloop (by omega) (by omega) (by omega)
  · rw [memGet_finishCommand rfl]
    exact (nrmRule_confined fmt).run _ _ _ _ hrun a ha

/-- Every NRM command takes the fault of a reserved gray setting before it accesses memory (R369). -/
theorem exec_nrm_badMode {i : Instr} {fmt : NrmFormat} {s : State} {o : Operands} (hat : atCommand s o)
    (hr : ruleOf i = some (nrmRule fmt)) (hgray : grayOf o = 6 ∨ grayOf o = 7) :
    ∃ t, exec i s = .next t ∧ FaultedAs s t 0x09 (grayOf o) ∧ t.mem = s.mem :=
  ⟨_, exec_checkFault hat hr (nrmCheck_badMode fmt hgray), (takeFault_faultedAs (atStart_done hat) rfl rfl).of_atStart,
    by simp⟩

/-- Settles O57: the three rows have the rule of their format, whose first check is that of the gray setting. -/
theorem nrmBadMode : Obligations.NrmBadMode := by
  intro i s o hi hat hgray
  simp only [List.mem_cons, List.not_mem_nil, or_false] at hi
  rcases hi with rfl | rfl | rfl
  · exact exec_nrm_badMode hat (fmt := .f32) rfl hgray
  · exact exec_nrm_badMode hat (fmt := .f16) rfl hgray
  · exact exec_nrm_badMode hat (fmt := .u32) rfl hgray

end Sys2Proof.Machine
end

section
/-! The system commands NOP and CLR, the order in which a write to `CMD` is judged, and command words while a fault is
recorded (47_system_commands R400, R401, R404 to R406; 60_exceptions R437). -/

namespace Sys2Proof.Machine

/-! ## NOP and CLR -/

theorem exec_nop_idle {s : State} (h : s.phase = .idle) : exec .nop s = .next s := by
  simp [exec, execNop, h]

theorem exec_nop_busy {s : State} {p : Pending} (h : s.phase = .busy p) : exec .nop s = .next (dropWrite s) := by
  simp [exec, execNop, h]

theorem exec_clr_idle {s : State} (h : s.phase = .idle) : exec .clr s = .next (acknowledge s) := by
  simp [exec, execClr, h]

theorem exec_clr_busy {s : State} {p : Pending} (h : s.phase = .busy p) : exec .clr s = .next (dropWrite s) := by
  simp [exec, execClr, h]

/-- With `DONE` and `ERR` cleared nothing asks for the interrupt (10_state R44). -/
@[simp] theorem irq_acknowledge (s : State) : irq (acknowledge s) = false := by
  simp [irq]

/-- Settles O13: the two phases are `exec_nop_idle` and `exec_nop_busy`. -/
theorem nopChangesNothing : Obligations.NopChangesNothing :=
  ⟨rfl, fun _ hp => exec_nop_idle hp, fun _ _ hp => exec_nop_busy hp⟩

/-- Settles O14: in IDLE the state that `CLR` leaves is `acknowledge s`, field by field. -/
theorem clrAcknowledges : Obligations.ClrAcknowledges := by
  refine ⟨rfl, fun s hp => ?idle, fun s p hp => exec_clr_busy hp⟩
  refine ⟨acknowledge s, exec_clr_idle hp, irq_acknowledge s, rfl, rfl, rfl, rfl, rfl, rfl, rfl, hp, rfl, rfl, rfl, rfl,
    rfl, ?_⟩
  constructor <;> simp

/-! ## Command words while a fault is recorded -/

/-- Every command but `NOP` and `CLR` has a rule (30_encoding R101). -/
theorem ruleOf_of_command {i : Instr} (h : formatOf i = .command) (hnop : i ≠ .nop) (hclr : i ≠ .clr) :
    ∃ r, ruleOf i = some r := by
  have hdec : decodeCommand (encodeValue i) = .ok i := decodeCommand_eq_ok.2 (mem_commandTable.2 ⟨h, rfl⟩)
  have hunique {j : Instr} (hj : decodeCommand (encodeValue i) = .ok j) : i = j :=
    Except.ok.inj (hdec.symm.trans hj)
  exact ruleOf_of_decodeCommand hdec (fun h0 => hnop (hunique (by rw [h0]; rfl)))
    (fun h1 => hclr (hunique (by rw [h1]; rfl)))

/-- Settles O26: such a command has a rule, and a rule's word is dropped while `ERR` is 1. -/
theorem noCommandWhileErr : Obligations.NoCommandWhileErr := by
  intro i s hfmt hnop hclr hp herr
  obtain ⟨r, hr⟩ := ruleOf_of_command hfmt hnop hclr
  rw [exec_ruleOf hr, runRule_err hp herr]
  rfl

/-! ## A write to `CMD` -/

theorem busyFlag_busy {s : State} {p : Pending} (h : s.phase = .busy p) : busyFlag s = true := by
  simp [busyFlag, h]

theorem busyFlag_idle {s : State} (h : s.phase = .idle) : busyFlag s = false := by
  simp [busyFlag, h]

theorem writeCmd_busy {s : State} {p : Pending} (v : Word) (h : s.phase = .busy p) :
    writeCmd v s = .goto (dropWrite s) :=
  if_pos (busyFlag_busy h)

theorem writeCmd_acceptable {s : State} {v : Word} (h : s.phase = .idle) (hv : acceptable v) :
    writeCmd v s = if s.err then .goto (dropWrite s) else .goto (holdWindows (acceptCommand v s)) := by
  rw [writeCmd, if_neg (by simp [busyFlag_idle h]), if_neg (not_or.2 hv)]

/-- The words of `NOP` and `CLR` are carried out at once in IDLE. -/
theorem writeCmd_system_outcome {s : State} {v : Word} {i : Instr} (h : s.phase = .idle)
    (hv : v = 0 ∧ i = .nop ∨ v = 1 ∧ i = .clr) : (writeCmd v s).outcome = exec i s := by
  rw [writeCmd_system h (hv.imp And.left And.left)]
  exact outcome_fetch ((decode_command_leBytes v).trans (decodeCommand_system hv)) s

/-- A word written to `CMD` is judged on the state that the access finds (47_system_commands R404). -/
theorem step_cmdWrite {s u : State} {v : Word} (hnext : hostNext s (.regWrite s.regBase .w32 v) u)
    (hrst : s.rst = false) : step s = (writeCmd v u).outcome := by
  obtain ⟨hur, hub⟩ := hostNext_platform hnext
  rw [step_eq_outcome, nextTurn_host hnext, ← hub, hostTurn_cmdWrite v (hur.trans hrst)]

/-- Serving a host access moves nothing of the state but the queue and, while BUSY, the count in the phase. -/
theorem hostNext_eq {s u : State} {act : HostAct} (h : hostNext s act u) :
    ∃ rest phase, u = { s with hostIn := rest, phase := phase } := by
  obtain ⟨rest, -, ⟨-, rfl⟩ | ⟨p, -, -, -, rfl⟩⟩ := h
  · exact ⟨rest, s.phase, rfl⟩
  · exact ⟨rest, _, rfl⟩

/-- In IDLE an access moves nothing but the queue before it acts. -/
theorem hostNext_idle {s u : State} {act : HostAct} (h : hostNext s act u) (hp : s.phase = .idle) :
    ∃ rest, u = { s with hostIn := rest } := by
  obtain ⟨rest, -, ⟨-, rfl⟩ | ⟨p, hbusy, -⟩⟩ := h
  · exact ⟨rest, rfl⟩
  · rw [hp] at hbusy
    cases hbusy

/-- With a command pending, `hostNext` speaks of accesses outside reset only. -/
theorem hostNext_busy_rst {s u : State} {act : HostAct} {p : Pending} (h : hostNext s act u) (hp : u.phase = .busy p) :
    s.rst = false := by
  obtain ⟨rest, -, ⟨hidle, rfl⟩ | ⟨_, -, hrst, -⟩⟩ := h
  · rw [hidle] at hp
    cases hp
  · exact hrst

/-- Settles O15: one clause for each branch of `writeCmd`, in its order. -/
theorem cmdWriteOrder : Obligations.CmdWriteOrder := by
  intro s u v hnext hrst
  have hstep := step_cmdWrite hnext hrst
  obtain ⟨rest, phase, hu⟩ := hostNext_eq hnext
  refine ⟨fun p hp => ?busy, fun hp hv => ?nop, fun hp hv => ?clr, fun hp hv herr => ?err, fun hp hv herr => ?accept⟩
  case busy =>
    rw [hstep, writeCmd_busy v hp]
    rfl
  case nop =>
    rw [hstep, writeCmd_system_outcome hp (.inl ⟨hv, rfl⟩), exec_nop_idle hp]
  case clr =>
    rw [hstep, writeCmd_system_outcome hp (.inr ⟨hv, rfl⟩), exec_clr_idle hp]
  case err =>
    have herru : u.err = true := by rw [hu, herr]
    rw [hstep, writeCmd_acceptable hp hv, if_pos herru]
    rfl
  case accept =>
    have herru : u.err = false := by rw [hu, herr]
    refine ⟨newPending v u, holdWindows (acceptCommand v u), ?_, rfl, ?_⟩
    · rw [hstep, writeCmd_acceptable hp hv, if_neg (by simp [herru])]
      rfl
    · subst hu
      exact ⟨rfl, rfl, rfl, rfl, herr, rfl, rfl, rfl, rfl, rfl, rfl, rfl, rfl, rfl, by constructor <;> rfl⟩

end Sys2Proof.Machine
end

section
/-! The host's accesses to the register block at its offsets (10_state R21, R22, R26, R27, R37, R38; 47_system_commands
R402, R403): which register stands where, what a write does to each kind of register, and what a read gives. -/

namespace Sys2Proof.Machine

/-! ## Which register stands where -/

/-- The offset of a register; a reserved one has no single offset and gets the first of them (10_state R22, R37). -/
def Reg.offset : Reg → Nat
  | .cmd => 0x00
  | .status => 0x04
  | .einfo => 0x08
  | .irqEn => 0x0C
  | .mode => 0x10
  | .srcBase => 0x14
  | .srcLen => 0x18
  | .srcPos => 0x1C
  | .dstBase => 0x20
  | .dstLen => 0x24
  | .dstStride => 0x28
  | .dstPos => 0x2C
  | .width => 0x30
  | .height => 0x34
  | .count => 0x38
  | .tmpBase => 0x3C
  | .tmpLen => 0x40
  | .tile => 0x44
  | .reserved => 0x48

theorem regAt_offset (r : Reg) : regAt r.offset = r := by
  cases r <;> rfl

theorem offset_regAt {off : Nat} (h : regAt off ≠ .reserved) : (regAt off).offset = off := by
  revert h
  unfold regAt
  split
  case h_19 => exact fun h => absurd rfl h
  all_goals exact fun _ => rfl

/-- Every named register stands at its own offset and nowhere else (10_state R22). -/
theorem regAt_eq_iff {off : Nat} {r : Reg} (h : r ≠ .reserved) : regAt off = r ↔ off = r.offset := by
  constructor
  · rintro rfl
    exact (offset_regAt h).symm
  · rintro rfl
    exact regAt_offset r

/-- The offsets of the twelve operand registers (10_state R22, R28); `writeOperand_isSome_iff` ties them to the model. -/
def operandOffsets : List Nat := [0x10, 0x14, 0x18, 0x1C, 0x20, 0x24, 0x28, 0x30, 0x34, 0x38, 0x3C, 0x40]

/-- The operand registers are those a write stores into (47_system_commands R403). -/
theorem writeOperand_isSome_iff (off : Nat) (v : Word) (o : Operands) :
    (writeOperand (regAt off) v o).isSome = true ↔ off ∈ operandOffsets := by
  constructor
  · intro h
    have hnamed : regAt off ≠ .reserved := by
      intro hres
      rw [hres] at h
      cases h
    rw [← offset_regAt hnamed]
    revert h
    cases regAt off <;> simp [writeOperand, operandOffsets, Reg.offset]
  · revert off
    simp only [operandOffsets, List.forall_mem_cons]
    exact ⟨rfl, rfl, rfl, rfl, rfl, rfl, rfl, rfl, rfl, rfl, rfl, rfl, by simp⟩

/-! ## Accesses at an offset -/

/-- An aligned 32-bit access inside the block finds the register at its offset (10_state R21). -/
theorem regAccess_offset {s : State} {off : Nat} (hrst : s.rst = false) (hlt : off < 256) (hal : off % 4 = 0)
    (k : Reg → Turn) : regAccess (s.regBase + off) .w32 k s = k (regAt off) := by
  have hoff : regOffset s.regBase (s.regBase + off) .w32 = some off := by
    rw [regOffset, Nat.add_sub_cancel_left, if_pos ⟨rfl, by omega, by omega, hal⟩]
  simp [regAccess, hrst, hoff]

theorem step_regRead {s u : State} {off : Nat} (hnext : hostNext s (.regRead (s.regBase + off) .w32) u)
    (hrst : s.rst = false) (hlt : off < 256) (hal : off % 4 = 0) : step s = .next (readRegister (regAt off) u) := by
  obtain ⟨hur, hub⟩ := hostNext_platform hnext
  rw [step_eq_outcome, nextTurn_host hnext, hostTurn_regRead, ← hub, regAccess_offset (hur.trans hrst) hlt hal]
  rfl

/-- A write beside `CMD` is one of R403. -/
theorem step_regWrite {s u : State} {off : Nat} {v : Word} (hnext : hostNext s (.regWrite (s.regBase + off) .w32 v) u)
    (hrst : s.rst = false) (hlt : off < 256) (hal : off % 4 = 0) (hcmd : off ≠ 0) :
    step s = .next (writeReg (regAt off) v u) := by
  obtain ⟨hur, hub⟩ := hostNext_platform hnext
  have hreg : regAt off ≠ .cmd := fun h => hcmd ((regAt_eq_iff (by decide)).1 h)
  rw [step_eq_outcome, nextTurn_host hnext, hostTurn_regWrite, ← hub, regAccess_offset (hur.trans hrst) hlt hal,
    if_neg hreg]
  rfl

/-! ## What a write does (R403) -/

theorem writeReg_irqEn (v : Word) (s : State) : writeReg .irqEn v s = { s with irqEn := v &&& irqEnMask } := rfl

/-- A register beside `IRQ_EN` takes a write as an operand register, or not at all. -/
theorem writeReg_eq {r : Reg} (h : r ≠ .irqEn) (v : Word) (s : State) :
    writeReg r v s =
      ((writeOperand r v s.regs).map fun o => if busyFlag s then dropWrite s else { s with regs := o }).getD s := by
  unfold writeReg
  split
  · exact absurd rfl h
  · cases writeOperand r v s.regs <;> rfl

/-- A read-only or reserved register ignores a write, in both phases. -/
theorem writeReg_ignored {r : Reg} {v : Word} {s : State} (hirq : r ≠ .irqEn) (h : writeOperand r v s.regs = none) :
    writeReg r v s = s := by
  simp [writeReg_eq hirq, h]

/-- An operand register drops a write while BUSY (10_state R38). -/
theorem writeReg_operand_busy {r : Reg} {v : Word} {s : State} {o : Operands} (h : writeOperand r v s.regs = some o)
    (hb : busyFlag s = true) : writeReg r v s = dropWrite s := by
  have hirq : r ≠ .irqEn := by
    rintro rfl
    cases h
  simp [writeReg_eq hirq, h, hb]

/-- An operand register takes a write in IDLE. -/
theorem writeReg_operand_idle {r : Reg} {v : Word} {s : State} {o : Operands} (h : writeOperand r v s.regs = some o)
    (hb : busyFlag s = false) : writeReg r v s = { s with regs := o } := by
  have hirq : r ≠ .irqEn := by
    rintro rfl
    cases h
  simp [writeReg_eq hirq, h, hb]

/-- Settles O17: at each kind of register the write is `writeReg` while BUSY. -/
theorem registerWriteWhileBusy : Obligations.RegisterWriteWhileBusy := by
  intro s u p off v hnext hp hlt hal hcmd
  rw [step_regWrite hnext (hostNext_busy_rst hnext hp) hlt hal hcmd]
  congr 1
  have hirq : regAt off = .irqEn ↔ off = 0x0C := regAt_eq_iff (by decide)
  have hoperand := writeOperand_isSome_iff off v u.regs
  split
  next h0C => rw [hirq.2 h0C, writeReg_irqEn]; rfl
  next h0C =>
    split
    next hmem =>
      obtain ⟨o, ho⟩ := Option.isSome_iff_exists.1 (hoperand.2 hmem)
      exact writeReg_operand_busy ho (busyFlag_busy hp)
    next hmem =>
      have hnone : writeOperand (regAt off) v u.regs = none := by simpa using mt hoperand.1 hmem
      exact writeReg_ignored (mt hirq.1 h0C) hnone

/-! ## What a register reads after a write in IDLE -/

/-- `STATUS` shows no operand register. -/
theorem statusWord_withRegs (s : State) (o : Operands) : statusWord { s with regs := o } = statusWord s := rfl

theorem readReg_withIrqEn_ne {r : Reg} (h : r ≠ .irqEn) (s : State) (w : Word) :
    readReg r { s with irqEn := w } = readReg r s := by
  cases r
  case irqEn => exact absurd rfl h
  all_goals rfl

/-- The written operand register reads as the word, `MODE` without its hardwired bits (10_state R27). -/
theorem readReg_operand_same {r : Reg} {v : Word} {s : State} {o : Operands} (h : writeOperand r v s.regs = some o) :
    readReg r { s with regs := o } = if r = .mode then v &&& modeMask else v := by
  cases r <;> cases h
  case mode => exact (BitVec.and_assoc ..).trans (by rw [BitVec.and_self]; rfl)
  all_goals rfl

/-- A write to an operand register shows in no other register. -/
theorem readReg_operand_ne {r r' : Reg} {v : Word} {s : State} {o : Operands} (h : writeOperand r v s.regs = some o)
    (hne : r' ≠ r) : readReg r' { s with regs := o } = readReg r' s := by
  cases r <;> cases h
  all_goals
    revert hne
    cases r' <;> simp [readReg, statusWord_withRegs]

/-- The queue is no register. -/
theorem readReg_withHostIn (r : Reg) (s : State) (q : List HostAct) :
    readReg r { s with hostIn := q } = readReg r s := by
  cases r <;> rfl

/-- The three kinds of register under a write in IDLE. -/
theorem writeReg_idle_cases {s : State} (hb : busyFlag s = false) (r : Reg) (v : Word) :
    (r = .irqEn ∧ writeReg r v s = { s with irqEn := v &&& irqEnMask }) ∨
    (∃ o, writeOperand r v s.regs = some o ∧ writeReg r v s = { s with regs := o }) ∨
    (r ≠ .irqEn ∧ writeOperand r v s.regs = none ∧ writeReg r v s = s) := by
  by_cases hirq : r = .irqEn
  · subst hirq
    exact .inl ⟨rfl, writeReg_irqEn v s⟩
  · cases ho : writeOperand r v s.regs with
    | some o => exact .inr (.inl ⟨o, rfl, writeReg_operand_idle ho hb⟩)
    | none => exact .inr (.inr ⟨hirq, rfl, writeReg_ignored hirq ho⟩)

theorem readReg_writeReg_ne {s : State} (hb : busyFlag s = false) {r r' : Reg} (hne : r' ≠ r) (v : Word) :
    readReg r' (writeReg r v s) = readReg r' s := by
  rcases writeReg_idle_cases hb r v with ⟨rfl, he⟩ | ⟨o, ho, he⟩ | ⟨-, -, he⟩ <;> rw [he]
  · exact readReg_withIrqEn_ne hne s _
  · exact readReg_operand_ne ho hne

theorem readReg_writeReg_same {s : State} (hb : busyFlag s = false) (r : Reg) (v : Word) :
    readReg r (writeReg r v s) =
      if r = .irqEn then v &&& irqEnMask
      else if r = .mode then v &&& modeMask
      else if (writeOperand r v s.regs).isSome then v
      else readReg r s := by
  rcases writeReg_idle_cases hb r v with ⟨rfl, he⟩ | ⟨o, ho, he⟩ | ⟨hirq, ho, he⟩ <;> rw [he]
  · exact (BitVec.and_assoc ..).trans (by rw [BitVec.and_self]; rfl)
  · have hirq : r ≠ .irqEn := by
      rintro rfl
      cases ho
    simp [readReg_operand_same ho, hirq, ho]
  · have hmode : r ≠ .mode := by
      rintro rfl
      cases ho
    simp [hirq, hmode, ho]

/-- A write to a register beside `CMD` moves nothing but `IRQ_EN`, the operand registers and `OVR`. -/
theorem writeReg_frame (r : Reg) (v : Word) (s : State) :
    ∃ w o b, writeReg r v s = { s with irqEn := w, regs := o, ovr := b } := by
  rcases writeReg_cases r v s with he | he | he | ⟨o, -, -, he⟩
  · exact ⟨_, s.regs, s.ovr, he⟩
  · exact ⟨s.irqEn, s.regs, s.ovr, he⟩
  · exact ⟨s.irqEn, s.regs, true, he⟩
  · exact ⟨s.irqEn, o, s.ovr, he⟩

/-- The writable registers are `IRQ_EN`, `MODE` and the operand registers that have all their bits (10_state R22). -/
theorem readReg_writeReg_regAt {s : State} (hb : busyFlag s = false) (off : Nat) (v : Word) :
    readReg (regAt off) (writeReg (regAt off) v s) =
      if off = 0x0C then v &&& 0x3
      else if off = 0x10 then v &&& 0x107
      else if off ∈ [0x14, 0x18, 0x1C, 0x20, 0x24, 0x28, 0x30, 0x34, 0x38, 0x3C, 0x40] then v
      else readReg (regAt off) s := by
  have hirq : regAt off = .irqEn ↔ off = 0x0C := regAt_eq_iff (by decide)
  have hmode : regAt off = .mode ↔ off = 0x10 := regAt_eq_iff (by decide)
  have hoperand := writeOperand_isSome_iff off v s.regs
  rw [operandOffsets, List.mem_cons] at hoperand
  simp only [readReg_writeReg_same hb, hirq, hmode, hoperand, irqEnMask, modeMask]
  by_cases h10 : off = 0x10 <;> simp only [h10, if_true, false_or]

/-- Settles O16: `readReg_writeReg_ne` and `readReg_writeReg_regAt` say what reads, `writeReg_frame` what stays. -/
theorem registerWriteInIdle : Obligations.RegisterWriteInIdle := by
  intro s u off v hnext hrst hp hlt hal hcmd
  have hstep := step_regWrite hnext hrst hlt hal hcmd
  obtain ⟨rest, rfl⟩ := hostNext_idle hnext hp
  have hidle : busyFlag { s with hostIn := rest } = false := busyFlag_idle hp
  refine ⟨_, hstep, ?_⟩
  have hother (r : Reg) (hr : r ≠ regAt off) :
      readReg r (writeReg (regAt off) v { s with hostIn := rest }) = readReg r s :=
    (readReg_writeReg_ne hidle hr v).trans (readReg_withHostIn r s rest)
  have hsame := readReg_writeReg_regAt hidle off v
  rw [readReg_withHostIn] at hsame
  obtain ⟨w, o, b, hframe⟩ := writeReg_frame (regAt off) v { s with hostIn := rest }
  rw [hframe] at hother hsame ⊢
  exact ⟨hp, rfl, rfl, rfl, by constructor <;> rfl, hother, hsame⟩

/-! ## What a read gives (R402) -/

/-- Settles O18: the step is `readRegister`, whose condition on `STATUS` is the word's bit 0; the value is read off at
each named offset, and at every other one the register is a reserved one. -/
theorem registerReadChangesNothing : Obligations.RegisterReadChangesNothing := by
  intro s u off hnext hrst hlt hal
  constructor
  case left =>
    obtain ⟨hbusy, -⟩ := statusWordBits u
    have hstatus : regAt off = .status ↔ off = 0x04 := regAt_eq_iff (by decide)
    rw [step_regRead hnext hrst hlt hal, readRegister, hbusy]
    simp only [hstatus]
  case right =>
    clear hnext hlt hal
    unfold regAt
    split
    case h_19 => simp_all [readReg]
    all_goals rfl

end Sys2Proof.Machine
end

section
/-! A command's end against the state before it (60_exceptions R430 to R435): the fault of a start check, and what every
end leaves as it was, in both forms of `exec` (log 12). -/

namespace Sys2Proof.Machine

/-- A command's own windows are held from its `CMD` write on, which in IDLE has just happened (70_reset_and_hazards
R480; log 12). -/
theorem atStart_held {r : Rule} {s : State} {o : Operands} (hat : atCommand s o) :
    (atStart r s).held = heldAfter r o s := by
  obtain ⟨-, rfl, -⟩ := hat
  cases hp : s.phase with
  | idle => simp only [atStart_idle hp, heldAfter, hp]
  | busy p => simp only [atStart_busy hp, heldAfter, hp]

/-- Settles O27: the fault is entered from the state the command starts from, and its code and information word are
those of the table. -/
theorem startFaultTouchesNothing : Obligations.StartFaultTouchesNothing := by
  intro i r s o t hr hat hcheck
  have faulted {code info : Nat} (hcode : trapCode t = BitVec.ofNat 8 code) (hinfo : trapInfo t = BitVec.ofNat 32 info) :
      FaultedAs s (takeFault t (atStart r s)) code info :=
    (takeFault_faultedAs (atStart_done hat) hcode hinfo).of_atStart
  refine ⟨_, exec_checkFault hat hr hcheck, faulted (by simp) (by simp), by simp, ?unsupportedFormat,
    ?resourceLimit, ?overlap, ?truncated, ?badMode⟩
  case overlap => rintro rfl; exact faulted rfl rfl
  all_goals rintro _ rfl; exact faulted rfl rfl

/-- However a command ends, it has written in its outputs only (60_exceptions R430, R435). -/
theorem endCommand_staysIn {r : Rule} (hr : r.Confined) (o : Operands) (s : State) :
    sameOutside (r.outputs o) s (endCommand r o s) := by
  rcases endCommand_cases r o s with ⟨t, -, he⟩ | ⟨t, -, he⟩ | ⟨f, -, hrun, he⟩ <;> rw [he]
  · exact sameOutside_of_mem_eq rfl _
  · exact faultRunning_sameOutside r o t s
  · exact finishCommand_sameOutside hr (hr.run _ _ _ _ hrun)

/-- A command that starts with no fault recorded ends with one, its operands as they were, or with `DONE`
(60_exceptions R430, R432; 10_state R39). -/
theorem endCommand_flags {r : Rule} {o : Operands} {s : State} (herr : s.err = false) :
    ((endCommand r o s).err = true → (endCommand r o s).regs = s.regs ∧ (endCommand r o s).done = s.done) ∧
      ((endCommand r o s).err = false → (endCommand r o s).done = true) := by
  rcases endCommand_cases r o s with ⟨t, -, he⟩ | ⟨t, -, he⟩ | ⟨f, -, -, he⟩ <;> rw [he]
  · simp
  · simp
  · simp [herr]

/-- Settles O31: every end of a command is `endCommand` on the state the command starts from, which differs from the
one before it in `DONE` and the held windows only. -/
theorem faultLeavesTheRest : Obligations.FaultLeavesTheRest := by
  intro i r s t o hr hat hexec
  rw [exec_atCommand hat hr, Host.Outcome.next.injEq] at hexec
  subst hexec
  have herr : (atStart r s).err = false := by rw [atStart_err]; exact hat.1
  obtain ⟨hfaulted, hcompleted⟩ := endCommand_flags (r := r) (o := o) herr
  rw [atStart_regs, atStart_done hat] at hfaulted
  have hmem := endCommand_staysIn (ruleOf_confined hr) o (atStart r s)
  simp only [sameOutside, atStart_mem] at hmem
  exact ⟨hmem, endCommand_phase .., hfaulted, hcompleted, by rw [endCommand_held, atStart_held hat]⟩

end Sys2Proof.Machine
end

section
/-! The reset input (70_reset_and_hazards R470 to R473). -/

namespace Sys2Proof.Machine

/-- A host access acts on the registers and the memory of the state in front of which it waits. -/
theorem hostNext_frame {s u : State} {act : HostAct} (h : hostNext s act u) : u.mem = s.mem ∧ u.held = s.held ∧
    u.regs = s.regs ∧ u.memMap = s.memMap := by
  obtain ⟨rest, phase, rfl⟩ := hostNext_eq h
  exact ⟨rfl, rfl, rfl, rfl⟩

/-- The registers of an asserted reset are those of the reset state (R471). -/
theorem readReg_assertReset (r : Reg) (s : State) : readReg r (assertReset s) = 0 :=
  readReg_reset r

/-- Neither the queue nor the level of `rst` is a register. -/
theorem readReg_release (r : Reg) (s : State) (q : List HostAct) :
    readReg r { s with hostIn := q, rst := false } = readReg r s := by
  cases r <;> rfl

/-- The interrupt output is low while `rst` is asserted (R470). -/
theorem irq_of_rst {s : State} (h : s.rst = true) : irq s = false := by simp [irq, h]

/-- While `rst` is asserted the register block refuses before it looks at the access (R470; log 10). -/
theorem regAccess_in_reset {s : State} (h : s.rst = true) (addr : Nat) (width : BusWidth) (k : Reg → Turn) :
    regAccess addr width k s = .refuse .registerAccessInReset := by
  simp [regAccess, h]

theorem step_host {s u : State} {act : HostAct} (h : hostNext s act u) : step s = (hostTurn act u).outcome := by
  rw [step_eq_outcome, nextTurn_host h]

/-- Settles O23: the three kinds of access are `assertReset`, the refusal of `regAccess`, and a release whose values the
invariant has held since the assertion. -/
theorem assertedResetAbandons : Obligations.AssertedResetAbandons := by
  refine ⟨fun s u hnext => ?assert, fun s u addr width v hrst hact => ?refused, fun s u h hrst => ?release⟩
  case assert =>
    obtain ⟨hmem, -⟩ := hostNext_frame hnext
    refine ⟨assertReset u, step_host hnext, rfl, rfl, (readReg_assertReset · u), irq_of_rst rfl, rfl, fun a ha => ?_⟩
    rw [assertReset_mem, havoc_frame ha, hmem]
  case refused =>
    rcases hact with hnext | hnext
    · rw [step_host hnext, hostTurn_regRead, regAccess_in_reset ((hostNext_platform hnext).1.trans hrst)]
      rfl
    · rw [step_host hnext, hostTurn_regWrite, regAccess_in_reset ((hostNext_platform hnext).1.trans hrst)]
      rfl
  case release =>
    obtain ⟨hidle, hdone, herr, hheld, hregs⟩ := h.rst hrst
    refine ⟨irq_of_rst hrst, fun hnext => ?_⟩
    obtain ⟨rest, rfl⟩ := hostNext_idle hnext hidle
    exact ⟨_, step_host hnext, rfl, hidle, fun r => (readReg_release r s rest).trans (hregs r),
      by simp [irq, hdone, herr], hheld, rfl⟩

end Sys2Proof.Machine
end

section
/-! The start checks of every command as the table of 60_exceptions R433 has them: each list of checks as one chain of
questions about the operand registers (R431). -/

namespace Sys2Proof.Machine

/-! ## The questions -/

/-- A list of checks asks them in its order (60_exceptions R433). -/
theorem firstTrap_cons (b : Bool) (t : Trap) (l : List (Bool × Trap)) :
    firstTrap ((b, t) :: l) = if b then some t else firstTrap l := rfl

theorem firstTrap_nil : firstTrap [] = none := rfl

theorem wraps_srcWindow (o : Operands) : wraps (srcWindow o) = true ↔ 2 ^ 32 < o.srcBase.toNat + o.srcLen.toNat :=
  decide_eq_true_iff

theorem wraps_dstWindow (o : Operands) : wraps (dstWindow o) = true ↔ 2 ^ 32 < o.dstBase.toNat + o.dstLen.toNat :=
  decide_eq_true_iff

theorem wraps_tmpWindow (o : Operands) : wraps (tmpWindow o) = true ↔ 2 ^ 32 < o.tmpBase.toNat + o.tmpLen.toNat :=
  decide_eq_true_iff

/-- The stride check in terms of the signed width (40_bcd_common_bc1 R152 step 4). -/
theorem stride_short_iff (o : Operands) :
    (planeW o > 0 ∧ planeH o > 0 ∧ o.dstStride.toNat < 4 * planeWidth o) ↔
      0 < o.width.toInt ∧ 0 < o.height.toInt ∧ (o.dstStride.toNat : ℤ) < 4 * o.width.toInt := by
  unfold planeWidth planeW planeH
  omega

/-- The extent check in terms of the signed dimensions; an empty plane fits every destination (R152 step 5). -/
theorem extent_long_iff (o : Operands) :
    planeExtent o > o.dstLen.toNat ↔
      0 < o.width.toInt ∧ 0 < o.height.toInt ∧
        (o.dstLen.toNat : ℤ) < (o.height.toInt - 1) * o.dstStride.toNat + 4 * o.width.toInt := by
  unfold planeExtent planeWidth planeHeight planeW planeH
  split
  next hplane =>
    obtain ⟨hw, hh⟩ := hplane
    have hextent : (((o.height.toInt.toNat - 1) * o.dstStride.toNat + 4 * o.width.toInt.toNat : ℕ) : ℤ) =
        (o.height.toInt - 1) * o.dstStride.toNat + 4 * o.width.toInt := by
      push_cast [Nat.cast_sub (show 1 ≤ o.height.toInt.toNat by omega), Int.toNat_of_nonneg hw.le,
        Int.toNat_of_nonneg hh.le]
      rfl
    rw [← hextent]
    omega
  next hplane => omega

/-- The last truncation check of a counted command asks whether its items end past the source (44_zpf_filters R281,
46_nrm_normalizer R360). -/
theorem remaining_short_iff {size : Nat} (hsize : 0 < size) (o : Operands) :
    (countOf o > 0 ∧ size * countOf o > o.srcLen.toNat - o.srcPos.toNat) ↔
      0 < o.count.toNat ∧ o.srcLen.toNat < o.srcPos.toNat + size * o.count.toNat := by
  have hneeded : 0 < o.count.toNat → 0 < size * o.count.toNat := Nat.mul_pos hsize
  unfold countOf
  omega

/-! ## The lists of checks -/

/-- The checks of a BCD decode command (40_bcd_common_bc1 R152). -/
theorem bcdCheck_eq (o : Operands) : bcdCheck o =
    if o.width.toInt < 0 then some (.resourceLimit 1)
    else if o.height.toInt < 0 then some (.resourceLimit 2)
    else if 2 ^ 32 < o.srcBase.toNat + o.srcLen.toNat then some (.resourceLimit 3)
    else if 2 ^ 32 < o.dstBase.toNat + o.dstLen.toNat then some (.resourceLimit 4)
    else if 0 < o.width.toInt ∧ 0 < o.height.toInt ∧ (o.dstStride.toNat : ℤ) < 4 * o.width.toInt then
      some (.resourceLimit 6)
    else if 0 < o.width.toInt ∧ 0 < o.height.toInt ∧
        (o.dstLen.toNat : ℤ) < (o.height.toInt - 1) * o.dstStride.toNat + 4 * o.width.toInt then
      some (.resourceLimit 7)
    else if anyOverlap [srcWindow o, dstWindow o] then some .overlap
    else none := by
  simp only [bcdCheck, firstTrap_cons, firstTrap_nil, decide_eq_true_eq, wraps_srcWindow, wraps_dstWindow,
    stride_short_iff, extent_long_iff]
  rfl

/-- The checks of a command over one filter (44_zpf_filters R281). -/
theorem filterCheck_eq (o : Operands) : filterCheck false o =
    if 2 ^ 32 < o.srcBase.toNat + o.srcLen.toNat then some (.resourceLimit 3)
    else if 2 ^ 32 < o.dstBase.toNat + o.dstLen.toNat then some (.resourceLimit 4)
    else if o.dstLen.toNat < o.count.toNat then some (.resourceLimit 7)
    else if anyOverlap [srcWindow o, dstWindow o] then some .overlap
    else if 0 < o.count.toNat ∧ o.srcLen.toNat < o.srcPos.toNat then some (.truncated o.srcPos.toNat)
    else if 0 < o.count.toNat ∧ o.srcLen.toNat < o.srcPos.toNat + o.count.toNat then
      some (.truncated o.srcLen.toNat)
    else none := by
  have hshort := remaining_short_iff Nat.one_pos o
  simp only [Nat.one_mul] at hshort
  simp only [filterCheck, firstTrap_cons, firstTrap_nil, decide_eq_true_eq, wraps_srcWindow, wraps_dstWindow,
    Bool.false_and, Bool.false_eq_true, if_false, List.append_nil, hshort]
  rfl

/-- The checks of `ZPF.FILT`, which has a scratch window besides (44_zpf_filters R281). -/
theorem filtCheck_eq (o : Operands) : filterCheck true o =
    if 2 ^ 32 < o.srcBase.toNat + o.srcLen.toNat then some (.resourceLimit 3)
    else if 2 ^ 32 < o.dstBase.toNat + o.dstLen.toNat then some (.resourceLimit 4)
    else if 2 ^ 32 < o.tmpBase.toNat + o.tmpLen.toNat then some (.resourceLimit 5)
    else if o.dstLen.toNat < o.count.toNat then some (.resourceLimit 7)
    else if o.tmpLen.toNat < o.count.toNat then some (.resourceLimit 8)
    else if anyOverlap [srcWindow o, dstWindow o, tmpWindow o] then some .overlap
    else if 0 < o.count.toNat ∧ o.srcLen.toNat < o.srcPos.toNat then some (.truncated o.srcPos.toNat)
    else if 0 < o.count.toNat ∧ o.srcLen.toNat < o.srcPos.toNat + o.count.toNat then
      some (.truncated o.srcLen.toNat)
    else none := by
  have hshort := remaining_short_iff Nat.one_pos o
  simp only [Nat.one_mul] at hshort
  simp only [filterCheck, firstTrap_cons, firstTrap_nil, decide_eq_true_eq, wraps_srcWindow, wraps_dstWindow,
    wraps_tmpWindow, Bool.true_and, if_true, List.cons_append, List.nil_append, hshort]
  rfl

/-- The checks of `ZPF.INFLATE` (45_zpf_inflate R328). -/
theorem inflateCheck_eq (o : Operands) : inflateCheck o =
    if 2 ^ 32 < o.srcBase.toNat + o.srcLen.toNat then some (.resourceLimit 3)
    else if 2 ^ 32 < o.dstBase.toNat + o.dstLen.toNat then some (.resourceLimit 4)
    else if anyOverlap [srcWindow o, dstWindow o] then some .overlap
    else none := by
  simp only [inflateCheck, firstTrap_cons, firstTrap_nil, wraps_srcWindow, wraps_dstWindow]

/-- The checks of `ZPF.UNZIP` (44_zpf_filters R291). -/
theorem unzipCheck_eq (o : Operands) : unzipCheck o =
    if 2 ^ 32 < o.srcBase.toNat + o.srcLen.toNat then some (.resourceLimit 3)
    else if 2 ^ 32 < o.dstBase.toNat + o.dstLen.toNat then some (.resourceLimit 4)
    else if 2 ^ 32 < o.tmpBase.toNat + o.tmpLen.toNat then some (.resourceLimit 5)
    else if anyOverlap [srcWindow o, dstWindow o, tmpWindow o] then some .overlap
    else none := by
  simp only [unzipCheck, firstTrap_cons, firstTrap_nil, wraps_srcWindow, wraps_dstWindow, wraps_tmpWindow]

/-- The checks of an NRM command (46_nrm_normalizer R360). -/
theorem nrmCheck_eq (fmt : NrmFormat) (o : Operands) : nrmCheck fmt o =
    if grayOf o = 6 ∨ grayOf o = 7 then some (.badMode (grayOf o))
    else if 2 ^ 32 < o.srcBase.toNat + o.srcLen.toNat then some (.resourceLimit 3)
    else if 2 ^ 32 < o.dstBase.toNat + o.dstLen.toNat then some (.resourceLimit 4)
    else if o.dstLen.toNat < 8 * o.count.toNat then some (.resourceLimit 7)
    else if anyOverlap [srcWindow o, dstWindow o] then some .overlap
    else if 0 < o.count.toNat ∧ o.srcLen.toNat < o.srcPos.toNat then some (.truncated o.srcPos.toNat)
    else if 0 < o.count.toNat ∧ o.srcLen.toNat < o.srcPos.toNat + pixelBytes fmt * o.count.toNat then
      some (.truncated (o.srcPos.toNat + pixelBytes fmt * ((o.srcLen.toNat - o.srcPos.toNat) / pixelBytes fmt)))
    else none := by
  simp only [nrmCheck, firstTrap_cons, firstTrap_nil, decide_eq_true_eq, wraps_srcWindow, wraps_dstWindow,
    remaining_short_iff (pixelBytes_pos fmt)]
  rfl

/-! ## The commands -/

/-- The two rejected formats have one check, which applies to all operands (60_exceptions R423). -/
theorem ruleOf_unsupported {i : Instr} {op : Nat} (hi : (i, op) ∈ [(Instr.bcdBc2, 0x11), (.bcdBc7s, 0x16)]) :
    ruleOf i = some (unsupportedRule op) := by
  simp only [List.mem_cons, Prod.mk.injEq, List.not_mem_nil, or_false] at hi
  rcases hi with ⟨rfl, rfl⟩ | ⟨rfl, rfl⟩ <;> rfl

/-- The five decode commands have the same checks (40_bcd_common_bc1 R152). -/
theorem check_decode {i : Instr} (hi : i ∈ [Instr.bcdBc1, .bcdBc3, .bcdBc4, .bcdBc5, .bcdBc7]) :
    (ruleOf i).map Rule.check = some bcdCheck := by
  simp only [List.mem_cons, List.not_mem_nil, or_false] at hi
  rcases hi with rfl | rfl | rfl | rfl | rfl <;> rfl

/-- The four commands over one filter have the same checks (44_zpf_filters R281). -/
theorem check_filter {i : Instr} (hi : i ∈ [Instr.zpfRecon, .zpfIntlv, .zpfReord, .zpfDecon]) :
    (ruleOf i).map Rule.check = some (filterCheck false) := by
  simp only [List.mem_cons, List.not_mem_nil, or_false] at hi
  rcases hi with rfl | rfl | rfl | rfl <;> rfl

/-- The three NRM commands have the checks of their pixel size (46_nrm_normalizer R360). -/
theorem ruleOf_nrmSize {i : Instr} {z : Nat} (hi : (i, z) ∈ [(Instr.nrmF32, 16), (.nrmF16, 8), (.nrmU32, 16)]) :
    ∃ fmt, pixelBytes fmt = z ∧ ruleOf i = some (nrmRule fmt) := by
  simp only [List.mem_cons, Prod.mk.injEq, List.not_mem_nil, or_false] at hi
  rcases hi with ⟨rfl, rfl⟩ | ⟨rfl, rfl⟩ | ⟨rfl, rfl⟩
  · exact ⟨.f32, rfl, rfl⟩
  · exact ⟨.f16, rfl, rfl⟩
  · exact ⟨.u32, rfl, rfl⟩

/-- Settles O28: each group of commands has one list of checks, whose chain stands above. -/
theorem startFaultPriority : Obligations.StartFaultPriority := by
  refine ⟨fun i r o op hr hi => ?unsupported, fun i r o hr hi => ?decode, fun i r o hr hi => ?filter, ?filt, ?inflate,
    ?unzip, fun i z r o hr hi => ?nrm⟩
  case unsupported =>
    rw [ruleOf_unsupported hi] at hr
    cases hr
    rfl
  case decode =>
    have hcheck := check_decode hi
    rw [hr, Option.map_some, Option.some.injEq] at hcheck
    rw [hcheck, bcdCheck_eq]
  case filter =>
    have hcheck := check_filter hi
    rw [hr, Option.map_some, Option.some.injEq] at hcheck
    rw [hcheck, filterCheck_eq]
  case filt => rintro _ o ⟨⟩; exact filtCheck_eq o
  case inflate => rintro _ o ⟨⟩; exact inflateCheck_eq o
  case unzip => rintro _ o ⟨⟩; exact unzipCheck_eq o
  case nrm =>
    obtain ⟨fmt, rfl, hrule⟩ := ruleOf_nrmSize hi
    rw [hrule] at hr
    cases hr
    exact nrmCheck_eq fmt o

end Sys2Proof.Machine
end

section
/-! The host's writes to memory, and the span in which they may not reach a command's windows (70_reset_and_hazards R480;
logs 9, 26). A step keeps every held window, but for the two accesses that end the span. -/

namespace Sys2Proof.Machine

/-! ## One write -/

/-- A host write to a valid address is refused in a forbidden window, and stores its byte elsewhere (R480; log 9). -/
theorem step_memWrite {s u : State} {a : Nat} {b : Byte} (hnext : hostNext s (.memWrite a b) u) (hm : s.mem.wf)
    (hvalid : memValid s.memMap a = true) :
    ((forbiddenWindows u).any (inRange · a) = true → step s = .refused (.hostWroteWindow a)) ∧
    ((forbiddenWindows u).any (inRange · a) = false → ∃ t, step s = .next t ∧ memGet t.mem a = b ∧
      (∀ a', a' ≠ a → memGet t.mem a' = memGet s.mem a') ∧ t.regs = s.regs ∧ t.phase = u.phase ∧ t.held = s.held) := by
  obtain ⟨hmem, hheld, hregs, hmap⟩ := hostNext_frame hnext
  have hstep : step s = (hostMemWrite a b u).outcome := step_host hnext
  rcases hostMemWrite_cases a b u with ⟨hinvalid, -⟩ | ⟨-, hforbidden, he⟩ | ⟨-, hfree, he⟩
  · simp [hmap, hvalid] at hinvalid
  · simp [hstep, he, hforbidden, Turn.outcome]
  · refine ⟨by simp [hfree], fun _ =>
      ⟨{ u with mem := memPut u.mem a b }, by rw [hstep, he, Turn.outcome], ?_, ?_, hregs, rfl, hheld⟩⟩
    · exact memGet_memPut_same u.mem a b (hmem ▸ hm)
    · exact fun a' ha => (memGet_memPut_ne u.mem a a' b ha).trans (by rw [hmem])

/-! ## What a turn does to the held windows -/

/-- Whatever the step makes of the turn still holds every window of `held`. -/
def Turn.Holds (held : List Range) (x : Turn) : Prop := ∀ t, x.outcome = .next t → held ⊆ t.held

theorem Turn.holds_goto {held : List Range} {t : State} (h : held ⊆ t.held) : (Turn.goto t).Holds held := by
  rintro _ ⟨⟩
  exact h

theorem Turn.holds_refuse (held : List Range) (r : Refusal) : (Turn.refuse r).Holds held := by rintro _ ⟨⟩

theorem Turn.holds_fault (held : List Range) (f : Fault) : (Turn.fault f).Holds held := by rintro _ ⟨⟩

/-- An access that finds no register of the block moves nothing. -/
theorem regAccess_holds {held : List Range} {s : State} {addr : Nat} {width : BusWidth} {k : Reg → Turn}
    (hk : ∀ off, regOffset s.regBase addr width = some off → (k (regAt off)).Holds held) :
    (regAccess addr width k s).Holds held := by
  unfold regAccess
  split
  · exact Turn.holds_refuse held _
  · split
    · exact Turn.holds_refuse held _
    · next off hoff => exact hk off hoff

/-- A write to `CMD` adds windows at most (47_system_commands R404, 70_reset_and_hazards R480). -/
theorem writeCmd_holds (v : Word) (s : State) : (writeCmd v s).Holds s.held := by
  cases hp : s.phase with
  | busy p =>
    rw [writeCmd_busy v hp]
    exact Turn.holds_goto (List.Subset.refl _)
  | idle =>
    by_cases hv : v = 0 ∨ v = 1
    · intro t ht
      rcases hv with rfl | rfl
      · rw [writeCmd_system_outcome hp (.inl ⟨rfl, rfl⟩), exec_nop_idle hp] at ht
        cases ht
        exact List.Subset.refl _
      · rw [writeCmd_system_outcome hp (.inr ⟨rfl, rfl⟩), exec_clr_idle hp] at ht
        cases ht
        exact List.Subset.refl _
    · rw [writeCmd_acceptable hp (not_or.1 hv)]
      split
      · exact Turn.holds_goto (List.Subset.refl _)
      · exact Turn.holds_goto (List.subset_append_right _ _)

theorem hostMemRead_holds (a : Nat) (s : State) : (hostMemRead a s).Holds s.held := by
  unfold hostMemRead
  split
  · split <;> exact Turn.holds_goto (List.Subset.refl _)
  · exact Turn.holds_fault _ _

theorem hostMemWrite_holds (a : Nat) (b : Byte) (s : State) : (hostMemWrite a b s).Holds s.held := by
  rcases hostMemWrite_cases a b s with ⟨-, he⟩ | ⟨-, -, he⟩ | ⟨-, -, he⟩ <;> rw [he]
  · exact Turn.holds_fault _ _
  · exact Turn.holds_refuse _ _
  · exact Turn.holds_goto (List.Subset.refl _)

/-- The accesses that end the span of R480: `rst`, and a read of `STATUS` that finds the phase IDLE. -/
def EndsSpan (act : HostAct) (s : State) : Prop :=
  act = .assertRst ∨ act = .regRead (s.regBase + 0x04) .w32 ∧ s.phase = .idle

/-- The access that has an offset is the 32-bit one at that offset (10_state R21). -/
theorem regOffset_eq_some {base addr off : Nat} {width : BusWidth} (h : regOffset base addr width = some off) :
    width = .w32 ∧ addr = base + off := by
  unfold regOffset at h
  split at h
  · next hok =>
    obtain ⟨hw, hlo, -⟩ := hok
    cases h
    exact ⟨hw, by omega⟩
  · cases h

/-- A register read gives windows back only where it ends the span. -/
theorem regRead_holds {s : State} {addr : Nat} {width : BusWidth} (h : ¬EndsSpan (.regRead addr width) s) :
    (hostTurn (.regRead addr width) s).Holds s.held := by
  rw [hostTurn_regRead]
  refine regAccess_holds fun off hoff => Turn.holds_goto ?_
  rw [readRegister_held]
  split
  · next hstatus =>
    obtain ⟨hreg, hb⟩ := hstatus
    obtain ⟨rfl, rfl⟩ := regOffset_eq_some hoff
    obtain rfl : off = 0x04 := (regAt_eq_iff (r := .status) (by decide)).1 hreg
    exact absurd (.inr ⟨rfl, phase_of_not_busy hb⟩) h
  · exact List.Subset.refl _

/-- A host access keeps every held window, or ends the span. -/
theorem hostTurn_holds {act : HostAct} {s : State} (h : ¬EndsSpan act s) : (hostTurn act s).Holds s.held := by
  cases act with
  | regRead addr width => exact regRead_holds h
  | regWrite addr width v =>
    rw [hostTurn_regWrite]
    refine regAccess_holds fun off _ => ?_
    split
    · exact writeCmd_holds v s
    · obtain ⟨w, o, b, he⟩ := writeReg_frame (regAt off) v s
      rw [he]
      exact Turn.holds_goto (List.Subset.refl _)
  | memRead a => exact hostMemRead_holds a s
  | memWrite a b => exact hostMemWrite_holds a b s
  | assertRst => exact absurd (.inl rfl) h
  | releaseRst => exact Turn.holds_goto (List.Subset.refl _)

/-- The pending command's own turn gives no window back (70_reset_and_hazards R480). -/
theorem cduTurn_holds {s : State} {p : Pending} (hp : s.phase = .busy p) : (cduTurn p s).Holds s.held := by
  rcases cduTurn_cases (s := s) (p := p) with ⟨fmt, bs, he⟩ | ⟨t, he, hheld, -⟩ <;> rw [he]
  · intro t ht
    cases hdec : decode fmt bs with
    | ok i =>
      rw [outcome_fetch hdec] at ht
      obtain ⟨hheld, -⟩ := exec_carriesOn i s t p hp ht
      exact hheld ▸ List.Subset.refl _
    | error e =>
      simp only [Turn.outcome, hdec] at ht
      cases ht
      exact List.Subset.refl _
  · exact Turn.holds_goto (hheld ▸ List.Subset.refl _)

/-! ## Every step -/

/-- What a step is about: nothing in IDLE with an empty queue, the oldest host access, or the pending command
(10_state R39; log 6). -/
theorem nextTurn_cases {s : State} (h : Inv s) :
    nextTurn s = .goto s ∨ (∃ act u, hostNext s act u) ∨ ∃ p, cduNext s p := by
  cases hp : s.phase with
  | idle =>
    cases hq : s.hostIn with
    | nil => exact .inl (by simp [nextTurn, hp, hq])
    | cons act rest => exact .inr (.inl ⟨act, _, rest, hq, .inl ⟨hp, rfl⟩⟩)
  | busy p =>
    have hrst := h.busy_rst hp
    by_cases hturn : s.hostIn = [] ∨ p.left = 0
    · exact .inr (.inr ⟨p, hp, hrst, hturn⟩)
    · obtain ⟨hqueue, hleft⟩ := not_or.1 hturn
      obtain ⟨act, rest, hq⟩ := List.exists_cons_of_ne_nil hqueue
      exact .inr (.inl ⟨act, _, rest, hq, .inr ⟨p, hp, hrst, Nat.pos_of_ne_zero hleft, rfl⟩⟩)

/-- A step keeps every held window, or serves an access that ends the span. -/
theorem step_holds {s t : State} (h : Inv s) (hstep : stepsTo s t) :
    s.held ⊆ t.held ∨ ∃ act u, hostNext s act u ∧ EndsSpan act u := by
  rw [stepsTo, step_eq_outcome] at hstep
  rcases nextTurn_cases h with he | ⟨act, u, hnext⟩ | ⟨p, hn⟩
  · rw [he] at hstep
    exact .inl (Turn.holds_goto (List.Subset.refl _) t hstep)
  · by_cases hends : EndsSpan act u
    · exact .inr ⟨act, u, hnext, hends⟩
    · rw [nextTurn_host hnext] at hstep
      obtain ⟨-, hheld, -⟩ := hostNext_frame hnext
      exact .inl (hheld ▸ hostTurn_holds hends t hstep)
  · rw [nextTurn_cdu hn] at hstep
    exact .inl (cduTurn_holds hn.1 t hstep)

/-- Under the invariant the forbidden windows are the held ones: the pending command's are among them (R480). -/
theorem forbidden_of_held {s : State} (h : Inv s) {a : Nat} :
    (forbiddenWindows s).any (inRange · a) = true ↔ s.held.any (inRange · a) = true := by
  simp only [forbiddenWindows, List.any_append, Bool.or_eq_true, or_iff_right_iff_imp, List.any_eq_true]
  rintro ⟨x, hx, hin⟩
  exact ⟨x, h.held x hx, hin⟩

/-- Settles O24: one write is `step_memWrite`; a forbidden byte is one of a held window, and a step keeps those. -/
theorem hostMemoryWrite : Obligations.HostMemoryWrite := by
  refine ⟨fun s u a b hnext hm hvalid => step_memWrite hnext hm hvalid, fun s t a h hstep hforbidden => ?_⟩
  rcases step_holds h hstep with hkept | ⟨act, u, hnext, hends⟩
  · rw [forbidden_of_held h, List.any_eq_true] at hforbidden
    obtain ⟨x, hx, hin⟩ := hforbidden
    exact .inl ((forbidden_of_held (stepKeepsInvariant s t h hstep)).2 (List.any_eq_true.2 ⟨x, hkept hx, hin⟩))
  · rw [EndsSpan, (hostNext_platform hnext).2] at hends
    exact .inr ⟨act, u, hnext, hends⟩

end Sys2Proof.Machine
end

section
/-! Every pending command ends (70_reset_and_hazards R488). The working state has a rank that each step of the command's
own lowers: a tile cursor has so many tiles before it, a stream so many source bits. -/

namespace Sys2Proof.Machine

/-! ## The rank of a working state -/

/-- How far a working state is from the command's end. -/
def Work.rank (o : Operands) : Work → Nat
  | .notBegun => 2 * tileCount o + 8 * o.srcLen.toNat + 2
  | .bcd k tile => 2 * (tileCount o - k) + if tile = [] then 1 else 0
  | .inflate w => 8 * o.srcLen.toNat - w.q

theorem rank_bcd_empty (o : Operands) (k : Nat) : (Work.bcd k []).rank o = 2 * (tileCount o - k) + 1 := rfl

theorem rank_bcd_full {tile : List Texel} (h : tile ≠ []) (o : Operands) (k : Nat) :
    (Work.bcd k tile).rank o = 2 * (tileCount o - k) := by
  simp [Work.rank, h]

theorem rank_bcd_begin (o : Operands) : (Work.bcd 0 []).rank o < Work.notBegun.rank o := by
  simp only [Work.rank, if_true]
  omega

theorem rank_inflate_begin (o : Operands) (w : InflateWork) : (Work.inflate w).rank o < Work.notBegun.rank o := by
  simp only [Work.rank]
  omega

/-- The command has ended, or has carried out a part of its work. -/
def NearerEnd (s : State) (p : Pending) (t : State) : Prop :=
  t.phase = .idle ∨ ∃ w m, t = setWork p w { s with mem := m } ∧ w.rank p.ops < p.work.rank p.ops

/-- The step makes of the turn a state that is nearer to the command's end. -/
def Turn.Progresses (s : State) (p : Pending) (x : Turn) : Prop := ∃ t, x.outcome = .next t ∧ NearerEnd s p t

section Progress

variable {s t : State} {p : Pending}

theorem Turn.progresses_goto (h : NearerEnd s p t) : (Turn.goto t).Progresses s p := ⟨t, rfl, h⟩

theorem Turn.progresses_fetch {fmt : Format} {bs : List Byte} {i : Instr} {u : State} (hdec : decode fmt bs = .ok i)
    (hexec : exec i u = .next t) (h : NearerEnd s p t) : (Turn.fetch fmt bs u).Progresses s p :=
  ⟨t, (outcome_fetch hdec u).trans hexec, h⟩

theorem nearerEnd_takeFault (x : Trap) : NearerEnd s p (takeFault x s) := .inl rfl

theorem nearerEnd_faultRunning (r : Rule) (x : Trap) : NearerEnd s p (faultRunning r p.ops x s) := .inl (by simp)

theorem nearerEnd_finishCommand (r : Rule) (f : Finished) : NearerEnd s p (finishCommand r p.ops f s) :=
  .inl (by simp)

theorem nearerEnd_setWork {w : Work} (h : w.rank p.ops < p.work.rank p.ops) (m : Memory) :
    NearerEnd s p (setWork p w { s with mem := m }) :=
  .inr ⟨w, m, rfl, h⟩

/-- A start-stage fault is an end of the command. -/
theorem nearerEnd_startFault {r : Rule} (h : startFault r p.ops s = some t) : NearerEnd s p t :=
  .inl (by rw [← endCommand_of_startFault h, endCommand_phase])

end Progress

/-! ## The turns -/

section Turns

variable {s : State} {p : Pending} (h : Inv s) (hp : s.phase = .busy p)

include h hp

/-- A pending word is run whole and ends, or is no command and faults. -/
theorem fetchWord_progresses : (Turn.fetch .command (leBytes 4 p.word.toNat) s).Progresses s p := by
  obtain ⟨-, hne0, hne1⟩ := h.busy_snapshot hp
  cases hdec : decodeCommand p.word.toNat with
  | ok i =>
    obtain ⟨r, hr⟩ := ruleOf_of_decodeCommand hdec (fun hw => hne0 (BitVec.eq_of_toNat_eq hw))
      (fun hw => hne1 (BitVec.eq_of_toNat_eq hw))
    exact Turn.progresses_fetch ((decode_command_leBytes _).trans hdec) ((exec_ruleOf hr s).trans (runRule_busy hp))
      (.inl (endCommand_phase ..))
  | error err =>
    refine ⟨takeFault (decodeTrap err) s, ?_, nearerEnd_takeFault _⟩
    simp only [Turn.outcome, decode_command_leBytes, hdec]

omit h hp in
theorem beginTiles_nearerEnd (hw : p.work = .notBegun) (r : Rule) : NearerEnd s p (beginTiles r p s) := by
  unfold beginTiles
  split
  · exact nearerEnd_startFault ‹_›
  · exact nearerEnd_setWork (hw ▸ rank_bcd_begin p.ops) s.mem

omit h hp in
theorem beginStream_nearerEnd (hw : p.work = .notBegun) (r : Rule) (e : InflateEnv) :
    NearerEnd s p (beginStream r e p s) := by
  unfold beginStream
  split
  · exact nearerEnd_startFault ‹_›
  · split
    · exact nearerEnd_faultRunning r _
    · exact nearerEnd_setWork (hw ▸ rank_inflate_begin p.ops _) s.mem

theorem beginTurn_progresses (hw : p.work = .notBegun) : (beginTurn p s).Progresses s p := by
  unfold beginTurn
  simp only
  split
  · split
    · exact Turn.progresses_goto (beginStream_nearerEnd hw _ _)
    · split
      · exact Turn.progresses_goto (beginTiles_nearerEnd hw _)
      · exact fetchWord_progresses h hp
  · exact fetchWord_progresses h hp

omit h in
/-- Filling an empty tile buffer and storing a full one take turns until the last tile (40_bcd_common_bc1 R153). -/
theorem tileTurn_progresses {k : Nat} {tile : List Texel} (hw : p.work = .bcd k tile) {size : Nat}
    {block : List Byte → List Texel} (hb : (pendingInstr p >>= blockFormatOf) = some (size, block)) :
    (tileTurn block size p k tile s).Progresses s p := by
  unfold tileTurn
  simp only
  split
  · exact Turn.progresses_goto (nearerEnd_finishCommand _ _)
  · next hk =>
    split
    next =>
      have filled (ts : List Texel) (hts : ts.length = 16) : NearerEnd s p (setWork p (.bcd k ts) s) := by
        have hne : ts ≠ [] := by rintro rfl; cases hts
        exact nearerEnd_setWork (by rw [hw, rank_bcd_empty, rank_bcd_full hne]; omega) s.mem
      split
      · exact Turn.progresses_goto (nearerEnd_faultRunning _ _)
      · next bs hbs =>
        split
        · next hword =>
          have hsize : size = 16 := by
            rw [blockFormat_bc7Word hword] at hb
            cases hb
            rfl
          obtain ⟨ts, hts, hexec⟩ := exec_decodeBc7 (leAt bs 0 16) s
          exact Turn.progresses_fetch (decode_bc7Block ((fetchBlock_length hbs).trans hsize))
            (hexec.trans (fillTile_busy hp hw hword ts)) (filled ts hts)
        · exact Turn.progresses_goto (filled _ (block_length hb bs))
    next t ts =>
      split
      · exact Turn.progresses_goto (nearerEnd_faultRunning _ _)
      · next m _ =>
        refine Turn.progresses_goto (nearerEnd_setWork ?_ m)
        rw [hw, rank_bcd_empty, rank_bcd_full (List.cons_ne_nil t ts)]
        omega

omit h hp in
/-- The header of a block is three bits inside the source, and the block moves the bit position on from there
(45_zpf_inflate R312, R330). -/
theorem rank_block {e : InflateEnv} {w : InflateWork} (hops : e.ops = p.ops) (hw : p.work = .inflate w) {v : Nat}
    (hv : streamBits e 3 w.q = .ok v) {btype : Nat} {st : Inf} (hbody : blockBody btype e (blockStart e w) = .ok st)
    (fin : Bool) : (Work.inflate (blockWork fin w st)).rank p.ops < p.work.rank p.ops := by
  obtain ⟨-, hinside⟩ := streamBits_readsTo hv
  have hheader := hinside (by omega)
  have hmoved : w.q + 3 ≤ st.q := (blockBody_readsTo hbody).1
  rw [hops] at hheader
  simp only [hw, Work.rank, blockWork]
  omega

omit h in
/-- A stream ends after its last block, and each block before it is three bits or more (45_zpf_inflate R312). -/
theorem streamTurn_progresses {w : InflateWork} (hw : p.work = .inflate w) {r : Rule} {e : InflateEnv}
    (he : streamOf s.memMap s.mem p.word p.ops = some (r, e)) : (streamTurn r e p w s).Progresses s p := by
  have hops : e.ops = p.ops := by rcases streamOf_cases he with ⟨-, -, rfl⟩ | ⟨-, -, rfl⟩ <;> rfl
  unfold streamTurn
  split
  · refine Turn.progresses_goto (.inl ?_)
    unfold endStream
    simp only
    split <;> simp
  · split
    · exact Turn.progresses_goto (nearerEnd_faultRunning r _)
    · next v hv =>
      have hdec := decode_deflateHeader (streamBits_lt hv)
      obtain ⟨btype, fin, hexec⟩ := exec_decodeDeflate v s
      rcases runBlock_cases hp hw he (blockBody btype) fin with ⟨t, hrun⟩ | ⟨st, m, hbody, -, hrun⟩
      · exact Turn.progresses_fetch hdec (hexec.trans hrun) (nearerEnd_faultRunning r t)
      · exact Turn.progresses_fetch hdec (hexec.trans hrun) (nearerEnd_setWork (rank_block hops hw hv hbody fin) m)

theorem cduTurn_progresses : (cduTurn p s).Progresses s p := by
  have hstray : (strayWork p s).Progresses s p := Turn.progresses_goto (nearerEnd_takeFault _)
  unfold cduTurn
  split
  · exact beginTurn_progresses h hp ‹_›
  · next k tile hw =>
    split
    · next hb => exact tileTurn_progresses hp hw hb
    · exact hstray
  · next w hw =>
    split
    · next he => exact streamTurn_progresses hp hw he
    · exact hstray

end Turns

/-- Settles O10, by induction on the rank of the working state. -/
theorem everyCommandEnds : Obligations.EveryCommandEnds := by
  intro s p h hn
  induction hrank : p.work.rank p.ops using Nat.strong_induction_on generalizing s p with
  | _ n ih =>
    obtain ⟨t, hturn, hnearer⟩ := cduTurn_progresses h hn.1
    have hstep : stepsTo s t := by rw [stepsTo, step_eq_outcome, nextTurn_cdu hn, hturn]
    rcases hnearer with hidle | ⟨w, m, rfl, hless⟩
    · exact ⟨t, .head hstep (.refl t), hidle⟩
    · obtain ⟨u, hreach, hidle⟩ :=
        ih _ (hrank ▸ hless) _ { p with work := w } (stepKeepsInvariant _ _ h hstep) (cduNext_setWork hn w m) rfl
      exact ⟨u, .head hstep hreach, hidle⟩

end Sys2Proof.Machine
end

section
/-! `BUS_ERROR` names an invalid address of the command's entitled set (60_exceptions R429; 20_memory R78). Every access of
a command is followed down to the byte at which it can fault: an access stays in the range it was made for, and the rules
make theirs inside the entitled set. -/

namespace Sys2Proof.Machine

/-! ## Computations whose bus errors are known -/

/-- The address is invalid and in one of the ranges. -/
def InvalidIn (mm : List Region) (rs : List Range) (a : Nat) : Prop :=
  memValid mm a = false ∧ ∃ x ∈ rs, inRange x a = true

/-- If the computation faults `BUS_ERROR`, then for an invalid address of the ranges. -/
def BusErrorsIn (mm : List Region) (rs : List Range) {α : Type} (x : Except Trap α) : Prop :=
  ∀ a, x = .error (.busError a) → InvalidIn mm rs a

section Sequencing

variable {mm : List Region} {rs : List Range} {α β : Type}

theorem busErrorsIn_ok (v : α) : BusErrorsIn mm rs (.ok v) := fun _ h => nomatch h

theorem busErrorsIn_error {t : Trap} (ht : ∀ a, t ≠ .busError a) : BusErrorsIn mm rs (.error t : Except Trap α) :=
  fun a h => absurd (Except.error.inj h) (ht a)

theorem busErrorsIn_malformed (sub : Nat) : BusErrorsIn mm rs (.error (.malformedStream sub) : Except Trap α) :=
  busErrorsIn_error nofun

/-- A source that runs out is no bus error (45_zpf_inflate R330). -/
theorem busErrorsIn_truncated (o : Operands) : BusErrorsIn mm rs (.error (streamTruncated o) : Except Trap α) :=
  busErrorsIn_error nofun

theorem BusErrorsIn.bind {x : Except Trap α} {f : α → Except Trap β} (hx : BusErrorsIn mm rs x)
    (hf : ∀ v, x = .ok v → BusErrorsIn mm rs (f v)) : BusErrorsIn mm rs (x >>= f) := by
  intro a h
  cases x with
  | error t => cases h; exact hx a rfl
  | ok v => exact hf v rfl a h

theorem BusErrorsIn.map {x : Except Trap α} (hx : BusErrorsIn mm rs x) (f : α → β) :
    BusErrorsIn mm rs (x.map f) := by
  intro a h
  cases x with
  | error t => cases h; exact hx a rfl
  | ok v => cases h

/-- A range that lies in one of the ranges. -/
theorem BusErrorsIn.within {x : Except Trap α} {b n : Nat} (hx : BusErrorsIn mm [⟨b, n⟩] x) {y : Range} (hy : y ∈ rs)
    (hlo : y.base ≤ b) (hhi : b + n ≤ y.base + y.len) : BusErrorsIn mm rs x := by
  intro a h
  obtain ⟨hvalid, z, hz, hin⟩ := hx a h
  obtain rfl := List.mem_singleton.1 hz
  rw [inRange_iff] at hin
  simp only at hin
  exact ⟨hvalid, y, hy, inRange_iff.2 (by omega)⟩

theorem BusErrorsIn.mono {x : Except Trap α} {rs' : List Range} (hx : BusErrorsIn mm rs x) (h : rs ⊆ rs') :
    BusErrorsIn mm rs' x := by
  intro a ha
  obtain ⟨hvalid, y, hy, hin⟩ := hx a ha
  exact ⟨hvalid, y, h hy, hin⟩

end Sequencing

/-! ## Strings of bytes -/

theorem readByte_busErrors (mm : List Region) (m : Memory) (a : Nat) : BusErrorsIn mm [⟨a, 1⟩] (readByte mm m a) := by
  intro b h
  unfold readByte at h
  split at h
  · cases h
  · next hv => cases h; exact ⟨by simpa using hv, _, .head _, inRange_iff.2 (by simp)⟩

theorem storeByte_busErrors (mm : List Region) (m : Memory) (a : Nat) (v : Byte) :
    BusErrorsIn mm [⟨a, 1⟩] (storeByte mm m a v) := by
  intro b h
  unfold storeByte at h
  split at h
  · cases h
  · next hv => cases h; exact ⟨by simpa using hv, _, .head _, inRange_iff.2 (by simp)⟩

/-- A string that is read faults inside itself only. -/
theorem readBytes_busErrors (mm : List Region) (m : Memory) (a n : Nat) :
    BusErrorsIn mm [⟨a, n⟩] (readBytes mm m a n) := by
  induction n generalizing a with
  | zero => exact busErrorsIn_ok _
  | succ n ih =>
    refine .bind ((readByte_busErrors mm m a).within (.head _) le_rfl (by simp only; omega)) fun b _ => ?_
    refine .bind ((ih (a + 1)).within (.head _) (by simp) (by simp only; omega)) fun bs _ => ?_
    exact busErrorsIn_ok _

/-- A string that is stored faults inside itself only. -/
theorem storeBytes_busErrors (mm : List Region) (m : Memory) (a : Nat) (bs : List Byte) :
    BusErrorsIn mm [⟨a, bs.length⟩] (storeBytes mm m a bs) := by
  induction bs generalizing m a with
  | nil => exact busErrorsIn_ok _
  | cons b bs ih =>
    have hlen : (b :: bs).length = bs.length + 1 := rfl
    refine .bind ((storeByte_busErrors mm m a b).within (.head _) le_rfl (by simp only; omega)) fun m1 _ => ?_
    exact (ih m1 (a + 1)).within (.head _) (by simp) (by simp only; omega)

/-! ## The block decompressor and the normaliser -/

/-- A rule whose run faults `BUS_ERROR` for an invalid entitled address only, and whose start checks never do
(60_exceptions R429, R433). -/
structure Rule.NamesEntitled (r : Rule) : Prop where
  check : ∀ o a, r.check o ≠ some (.busError a)
  run : ∀ mm o m, r.check o = none → BusErrorsIn mm (r.source o :: r.outputs o) (r.run mm o m)

/-- The answer of a list of checks is the fault of one of them. -/
theorem firstTrap_mem {l : List (Bool × Trap)} {t : Trap} (h : firstTrap l = some t) : t ∈ l.map Prod.snd := by
  induction l with
  | nil => cases h
  | cons c l ih =>
    obtain ⟨b, x⟩ := c
    rcases firstTrap_cons_eq_some.1 h with ⟨-, rfl⟩ | ⟨-, h⟩
    · exact .head _
    · exact .tail _ (ih h)

section Tiles

variable {block : List Byte → List Texel} {size : Nat} {mm : List Region} {o : Operands}

/-- A stored tile faults inside the plane's extent (40_bcd_common_bc1 R155). -/
theorem storeTile_busErrors (k i : Nat) (ts : List Texel) (m : Memory) :
    BusErrorsIn mm ((bcdRule block size).outputs o) (storeTile mm o k i ts m) := by
  induction ts generalizing i m with
  | nil => exact busErrorsIn_ok _
  | cons t ts ih =>
    unfold storeTile
    split
    · next hin =>
      obtain ⟨hlo, hhi⟩ := texelAddr_in_extent hin.1 hin.2
      exact .bind ((storeBytes_busErrors mm m _ _).within (.head _) hlo hhi) fun m1 _ => ih (i + 1) m1
    · exact ih (i + 1) m

/-- A block of the plane is fetched from the entitled source bytes (40_bcd_common_bc1 R153, R154). -/
theorem fetchBlock_busErrors {k : Nat} (hk : k < tileCount o) (m : Memory) :
    BusErrorsIn mm [(bcdRule block size).source o] (fetchBlock size mm o k m) := by
  have hblocks : k * size + size ≤ tileCount o * size := by
    rw [← Nat.add_one_mul]
    exact Nat.mul_le_mul_right _ hk
  unfold fetchBlock blockOffset
  split
  · exact busErrorsIn_error nofun
  · refine (readBytes_busErrors mm m _ size).within (.head _) ?_ ?_ <;> simp only [bcdRule, sourceFrom] <;> omega

theorem bcdLoop_busErrors {n k : Nat} (hk : k + n ≤ tileCount o) (m : Memory) :
    BusErrorsIn mm ((bcdRule block size).source o :: (bcdRule block size).outputs o)
      (bcdLoop block size mm o n k m) := by
  induction n generalizing k m with
  | zero => exact busErrorsIn_ok _
  | succ n ih =>
    refine .bind (.bind ?_ fun bs _ => ?_) fun m1 _ => ih (by omega) m1
    · exact (fetchBlock_busErrors (block := block) (by omega) m).mono (by simp)
    · exact (storeTile_busErrors k 0 (block bs) m).mono (List.subset_cons_self _ _)

end Tiles

theorem bcdRule_namesEntitled (block : List Byte → List Texel) (size : Nat) :
    (bcdRule block size).NamesEntitled where
  check o a h := by simpa using firstTrap_mem h
  run mm o m _ := (bcdLoop_busErrors (Nat.zero_add _).le m).map _

theorem unsupportedRule_namesEntitled (op : Nat) : (unsupportedRule op).NamesEntitled where
  check o a h := by cases h
  run mm o m h := by cases h

section Pixels

variable {fmt : NrmFormat} {mm : List Region} {o : Operands}

/-- A pixel is read from the entitled source bytes and stored in the destination (46_nrm_normalizer R375). -/
theorem nrmOne_busErrors (hcheck : nrmCheck fmt o = none) {k : Nat} (hk : k < countOf o) (m : Memory) :
    BusErrorsIn mm ((nrmRule fmt).source o :: (nrmRule fmt).outputs o) (nrmOne fmt mm o k m) := by
  obtain ⟨-, hlong⟩ := nrmCheck_eq_none.1 hcheck
  have hpixels : k * pixelBytes fmt + pixelBytes fmt ≤ pixelBytes fmt * countOf o := by
    rw [← Nat.add_one_mul, Nat.mul_comm]
    exact Nat.mul_le_mul_left _ hk
  unfold SourceShort at hlong
  refine .bind ((readBytes_busErrors mm m _ _).within (.head _) ?_ ?_) fun bs _ =>
    (storeBytes_busErrors mm m _ _).within (.tail _ (.head _)) ?_ ?_
  · simp only [nrmRule, sourceFrom]; omega
  · simp only [nrmRule, sourceFrom]; omega
  · simp
  · rw [pixelOut_length]; simp only; omega

theorem nrmLoop_busErrors (hcheck : nrmCheck fmt o = none) {n k : Nat} (hk : k + n ≤ countOf o) (m : Memory) :
    BusErrorsIn mm ((nrmRule fmt).source o :: (nrmRule fmt).outputs o) (nrmLoop fmt mm o n k m) := by
  induction n generalizing k m with
  | zero => exact busErrorsIn_ok _
  | succ n ih => exact .bind (nrmOne_busErrors hcheck (by omega) m) fun m1 _ => ih (by omega) m1

end Pixels

theorem nrmRule_namesEntitled (fmt : NrmFormat) : (nrmRule fmt).NamesEntitled where
  check o a h := by simpa using firstTrap_mem h
  run mm o m h := (nrmLoop_busErrors h (Nat.zero_add _).le m).map _

/-! ## The filters -/

/-- The input of a filter is read from the entitled source bytes (44_zpf_filters R280, R281). -/
theorem filterInput_busErrors {b : Bool} {o : Operands} (hcheck : filterCheck b o = none) (mm : List Region)
    (m : Memory) : BusErrorsIn mm [sourceFrom o (countOf o)] (filterInput mm o m) := by
  obtain ⟨-, hlong⟩ := filterCheck_eq_none.1 hcheck
  unfold SourceShort at hlong
  refine (readBytes_busErrors mm m _ _).within (.head _) ?_ ?_ <;> simp only [sourceFrom] <;> omega

theorem filterRule_namesEntitled {f : List Byte → List Byte} (hf : ∀ bs, (f bs).length = bs.length) :
    (filterRule f).NamesEntitled where
  check o a h := by simpa using firstTrap_mem h
  run mm o m h := by
    refine .bind ((filterInput_busErrors h mm m).mono (by simp [filterRule])) fun bs hin => ?_
    refine .bind ((storeBytes_busErrors mm m _ _).within (.tail _ (.head _)) le_rfl ?_) fun m1 _ => busErrorsIn_ok _
    rw [hf, filterInput_length hin]

theorem filtRule_namesEntitled : filtRule.NamesEntitled where
  check o a h := by simpa using firstTrap_mem h
  run mm o m h := by
    refine .bind ((filterInput_busErrors h mm m).mono (by simp [filtRule])) fun bs hin => ?_
    have hlen := filterInput_length hin
    refine .bind ((storeBytes_busErrors mm m _ _).within (.tail _ (.tail _ (.head _))) le_rfl ?_) fun m1 _ => ?_
    · rw [reord_length, hlen]
    refine .bind ((storeBytes_busErrors mm m1 _ _).within (.tail _ (.head _)) le_rfl ?_) fun m2 _ => busErrorsIn_ok _
    rw [decon_length, reord_length, hlen]

/-! ## The inflater -/

/-- What a stream may read and write: the source from the cursor on, and its output window up to the limit
(60_exceptions R429, 45_zpf_inflate R331). -/
def InflateEnv.entitled (e : InflateEnv) : List Range := [streamSource e.ops, ⟨e.outBase, e.limit⟩]

section Stream

variable {e : InflateEnv}

theorem sourceByte_busErrors {off : Nat} (hoff : e.ops.srcPos.toNat ≤ off) :
    BusErrorsIn e.mm e.entitled (sourceByte e off) := by
  unfold sourceByte
  split
  · exact busErrorsIn_truncated _
  · refine (readByte_busErrors e.mm e.mem _).within (.head _) ?_ ?_ <;> simp only [streamSource, sourceFrom] <;> omega

/-- The byte that is emitted stands in the output window (45_zpf_inflate R312, R331). -/
theorem emit_busErrors (b : Byte) (st : Inf) : BusErrorsIn e.mm e.entitled (emit e b st) := by
  unfold emit
  split
  · exact busErrorsIn_error nofun
  · next hroom =>
    split
    · exact busErrorsIn_ok _
    · next hv =>
      rintro a ⟨⟩
      exact ⟨by simpa using hv, _, .tail _ (.head _), inRange_iff.2 (by simp only; omega)⟩

theorem copyBytes_busErrors (dist n : Nat) (st : Inf) : BusErrorsIn e.mm e.entitled (copyBytes e dist n st) := by
  induction n generalizing st with
  | zero => exact busErrorsIn_ok _
  | succ n ih => exact .bind (emit_busErrors _ _) fun st' _ => ih st'

section Bits

variable (hs : e.ops.srcPos.toNat ≤ e.start)

include hs

theorem streamBit_busErrors (q : Nat) : BusErrorsIn e.mm e.entitled (streamBit e q) :=
  .bind (sourceByte_busErrors (by omega)) fun _ _ => busErrorsIn_ok _

theorem streamBits_busErrors (n q : Nat) : BusErrorsIn e.mm e.entitled (streamBits e n q) := by
  induction n generalizing q with
  | zero => exact busErrorsIn_ok _
  | succ n ih => exact .bind (streamBit_busErrors hs q) fun _ _ => .bind (ih (q + 1)) fun _ _ => busErrorsIn_ok _

theorem decodeSym_busErrors (cs : List Codeword) (fuel l c q : Nat) :
    BusErrorsIn e.mm e.entitled (decodeSym e cs fuel l c q) := by
  induction fuel generalizing l c q with
  | zero => exact busErrorsIn_malformed 10
  | succ fuel ih =>
    unfold decodeSym
    split
    · refine .bind (streamBit_busErrors hs q) fun b _ => ?_
      split
      · exact busErrorsIn_ok _
      · exact ih _ _ _
    · exact busErrorsIn_malformed 10

theorem nextSym_busErrors (cs : List Codeword) (q : Nat) : BusErrorsIn e.mm e.entitled (nextSym e cs q) :=
  decodeSym_busErrors hs cs 16 0 0 q

/-! ### Blocks -/

theorem storedBytes_busErrors (n : Nat) (st : Inf) : BusErrorsIn e.mm e.entitled (storedBytes e n st) := by
  induction n generalizing st with
  | zero => exact busErrorsIn_ok _
  | succ n ih =>
    exact .bind (streamBits_busErrors hs 8 st.q) fun _ _ => .bind (emit_busErrors _ _) fun st' _ => ih st'

theorem storedBlock_busErrors (st : Inf) : BusErrorsIn e.mm e.entitled (storedBlock e st) := by
  refine .bind (streamBits_busErrors hs _ _) fun len _ => .bind (streamBits_busErrors hs _ _) fun nlen _ => ?_
  split
  · exact busErrorsIn_malformed 2
  · exact storedBytes_busErrors hs _ _

theorem lengthSymbol_busErrors (dd : List Codeword) (s : Nat) (st : Inf) :
    BusErrorsIn e.mm e.entitled (lengthSymbol e dd s st) := by
  refine .bind (streamBits_busErrors hs _ _) fun lx _ => .bind (nextSym_busErrors hs dd _) fun (d, q) _ => ?_
  dsimp only
  split
  · exact busErrorsIn_malformed 10
  · refine .bind (streamBits_busErrors hs _ _) fun dx _ => ?_
    split
    · exact busErrorsIn_malformed 11
    · exact copyBytes_busErrors _ _ _

theorem huffmanBlock_busErrors (ll dd : List Codeword) (fuel : Nat) (st : Inf) :
    BusErrorsIn e.mm e.entitled (huffmanBlock e ll dd fuel st) := by
  induction fuel generalizing st with
  | zero => exact busErrorsIn_truncated _
  | succ fuel ih =>
    refine .bind (nextSym_busErrors hs ll _) fun (s, q) _ => ?_
    dsimp only
    split
    · exact .bind (emit_busErrors _ _) fun st' _ => ih st'
    · split
      · exact busErrorsIn_ok _
      · split
        · exact busErrorsIn_malformed 10
        · exact .bind (lengthSymbol_busErrors hs dd s _) fun st' _ => ih st'

theorem readCodeLengths_busErrors (ss cl : List Nat) (q : Nat) :
    BusErrorsIn e.mm e.entitled (readCodeLengths e ss cl q) := by
  induction ss generalizing cl q with
  | nil => exact busErrorsIn_ok _
  | cons s ss ih => exact .bind (streamBits_busErrors hs 3 q) fun _ _ => ih _ _

theorem applyCodeLength_busErrors (s : Nat) (rev : List Nat) (q : Nat) :
    BusErrorsIn e.mm e.entitled (applyCodeLength e s rev q) := by
  unfold applyCodeLength
  split
  · exact busErrorsIn_ok _
  · split
    · cases rev with
      | nil => exact busErrorsIn_malformed 5
      | cons v rev => exact .bind (streamBits_busErrors hs 2 q) fun _ _ => busErrorsIn_ok _
    · split
      · exact .bind (streamBits_busErrors hs 3 q) fun _ _ => busErrorsIn_ok _
      · exact .bind (streamBits_busErrors hs 7 q) fun _ _ => busErrorsIn_ok _

theorem readLengths_busErrors (cl : List Codeword) (total fuel : Nat) (rev : List Nat) (q : Nat) :
    BusErrorsIn e.mm e.entitled (readLengths e cl total fuel rev q) := by
  induction fuel generalizing rev q with
  | zero => exact busErrorsIn_malformed 6
  | succ fuel ih =>
    unfold readLengths
    split
    · exact busErrorsIn_ok _
    · refine .bind (nextSym_busErrors hs cl q) fun (s, q1) _ => ?_
      refine .bind (applyCodeLength_busErrors hs s rev q1) fun (rev', q2) _ => ?_
      dsimp only
      split
      · exact busErrorsIn_malformed 6
      · exact ih rev' q2

omit hs in
theorem dynamicCodes_busErrors (hlit : Nat) (lens : List Nat) :
    BusErrorsIn e.mm e.entitled (dynamicCodes hlit lens) := by
  unfold dynamicCodes
  split
  · exact busErrorsIn_malformed 7
  · split
    · exact busErrorsIn_malformed 8
    · split
      · exact busErrorsIn_malformed 9
      · exact busErrorsIn_ok _

theorem dynamicHeader_busErrors (q : Nat) : BusErrorsIn e.mm e.entitled (dynamicHeader e q) := by
  refine .bind (streamBits_busErrors hs _ _) fun hlit _ => .bind (streamBits_busErrors hs _ _) fun hdist _ =>
    .bind (streamBits_busErrors hs _ _) fun hclen _ => ?_
  split
  · exact busErrorsIn_malformed 3
  · refine .bind (readCodeLengths_busErrors hs _ _ _) fun (cl, q1) _ => ?_
    dsimp only
    split
    · exact busErrorsIn_malformed 4
    · refine .bind (readLengths_busErrors hs _ _ _ _ _) fun (lens, q2) _ => ?_
      exact .bind (dynamicCodes_busErrors _ _) fun _ _ => busErrorsIn_ok _

/-- A block of any type (45_zpf_inflate R312). -/
theorem blockBody_busErrors (btype : Nat) (st : Inf) : BusErrorsIn e.mm e.entitled (blockBody btype e st) := by
  match btype with
  | 0 => exact storedBlock_busErrors hs st
  | 1 => exact huffmanBlock_busErrors hs _ _ _ st
  | 2 => exact .bind (dynamicHeader_busErrors hs st.q) fun _ _ => huffmanBlock_busErrors hs _ _ _ _
  | _ + 3 => exact busErrorsIn_malformed 1

theorem inflateBlocks_busErrors (fuel : Nat) (st : Inf) : BusErrorsIn e.mm e.entitled (inflateBlocks e fuel st) := by
  induction fuel generalizing st with
  | zero => exact busErrorsIn_truncated _
  | succ fuel ih =>
    refine .bind (streamBits_busErrors hs 1 _) fun bfinal _ => .bind (streamBits_busErrors hs 2 _) fun btype _ =>
      .bind (blockBody_busErrors hs btype _) fun st' _ => ?_
    split
    · exact busErrorsIn_ok _
    · exact ih st'

omit hs in
/-- The zlib header stands at the cursor (45_zpf_inflate R326). -/
theorem readHeader_busErrors : BusErrorsIn e.mm e.entitled (readHeader e) := by
  unfold readHeader
  split
  · refine .bind (sourceByte_busErrors le_rfl) fun cmf _ => .bind (sourceByte_busErrors (Nat.le_succ _)) fun flg _ => ?_
    split
    · exact busErrorsIn_ok _
    · exact busErrorsIn_malformed 12
  · exact busErrorsIn_ok _

/-- The zlib trailer stands after the stream's last bit (45_zpf_inflate R326). -/
theorem readTrailer_busErrors (q : Nat) (ab : Nat × Nat) : BusErrorsIn e.mm e.entitled (readTrailer e q ab) := by
  unfold readTrailer
  split
  · refine .bind (sourceByte_busErrors (by omega)) fun t0 _ => .bind (sourceByte_busErrors (by omega)) fun t1 _ =>
      .bind (sourceByte_busErrors (by omega)) fun t2 _ => .bind (sourceByte_busErrors (by omega)) fun t3 _ => ?_
    split
    · exact busErrorsIn_ok _
    · exact busErrorsIn_malformed 13
  · exact busErrorsIn_ok _

theorem inflateStream_busErrors : BusErrorsIn e.mm e.entitled (inflateStream e) :=
  .bind readHeader_busErrors fun _ _ => .bind (inflateBlocks_busErrors hs _ _) fun st _ =>
    .bind (readTrailer_busErrors hs st.q _) fun _ _ => busErrorsIn_ok _

end Bits

end Stream

/-- A stream starts at the cursor, or after the zlib header there (45_zpf_inflate R311). -/
theorem srcPos_le_streamStart (o : Operands) : o.srcPos.toNat ≤ streamStart o := by
  unfold streamStart
  split <;> omega

theorem inflateRule_namesEntitled : inflateRule.NamesEntitled where
  check o a h := by simpa using firstTrap_mem h
  run mm o m _ := by
    have hstream := inflateStream_busErrors (e := inflateEnv mm o m) (srcPos_le_streamStart o)
    refine .bind hstream fun (out, used) h => ?_
    have hlen : out.length ≤ o.dstLen.toNat := (inflateStream_bound h).1
    exact .bind ((storeBytes_busErrors mm m _ _).within (.tail _ (.head _)) le_rfl (Nat.add_le_add_left hlen _))
      fun _ _ => busErrorsIn_ok _

theorem unzipRule_namesEntitled : unzipRule.NamesEntitled where
  check o a h := by simpa using firstTrap_mem h
  run mm o m _ := by
    have hstream := inflateStream_busErrors (e := unzipEnv mm o m) (srcPos_le_streamStart o)
    refine .bind (hstream.mono (by simp [InflateEnv.entitled, unzipEnv, unzipRule])) fun (out, used) h => ?_
    have hlen : out.length ≤ unzipLimit o := (inflateStream_bound h).1
    have hfiltered : (intlv (recon out)).length ≤ unzipLimit o := by rwa [intlv_length, recon_length]
    refine .bind ((storeBytes_busErrors mm m _ _).within (.tail _ (.tail _ (.head _))) le_rfl
      (Nat.add_le_add_left hlen _)) fun m1 _ => ?_
    exact .bind ((storeBytes_busErrors mm m1 _ _).within (.tail _ (.head _)) le_rfl
      (Nat.add_le_add_left hfiltered _)) fun _ _ => busErrorsIn_ok _

/-! ## The commands -/

/-- The rule of every command. -/
theorem ruleOf_namesEntitled {i : Instr} {r : Rule} (h : ruleOf i = some r) : r.NamesEntitled := by
  cases i <;> cases h
  case bcdBc1 => exact bcdRule_namesEntitled _ _
  case bcdBc2 => exact unsupportedRule_namesEntitled _
  case bcdBc3 => exact bcdRule_namesEntitled _ _
  case bcdBc4 => exact bcdRule_namesEntitled _ _
  case bcdBc5 => exact bcdRule_namesEntitled _ _
  case bcdBc7 => exact bcdRule_namesEntitled _ _
  case bcdBc7s => exact unsupportedRule_namesEntitled _
  case zpfRecon => exact filterRule_namesEntitled recon_length
  case zpfIntlv => exact filterRule_namesEntitled intlv_length
  case zpfReord => exact filterRule_namesEntitled reord_length
  case zpfDecon => exact filterRule_namesEntitled decon_length
  case zpfInflate => exact inflateRule_namesEntitled
  case zpfUnzip => exact unzipRule_namesEntitled
  case zpfFilt => exact filtRule_namesEntitled
  case nrmF32 => exact nrmRule_namesEntitled _
  case nrmF16 => exact nrmRule_namesEntitled _
  case nrmU32 => exact nrmRule_namesEntitled _

/-- The address that may replace the written-order outcome is an invalid entitled one (60_exceptions R429; log 8). -/
theorem busChoice_invalidIn {r : Rule} {o : Operands} {s : State} {a : Nat} (h : busChoice r o s = some a) :
    InvalidIn s.memMap (r.source o :: r.outputs o) a := by
  unfold busChoice at h
  simp only at h
  split at h
  · cases h
  · split at h
    · next hchosen =>
      cases h
      simp only [Bool.and_eq_true, Bool.not_eq_true', List.any_eq_true] at hchosen
      exact ⟨hchosen.2, hchosen.1⟩
    · cases h

/-- The faults a command can end with: that of a start check, the free `BUS_ERROR`, or that of its run
(60_exceptions R429, R433). -/
theorem endCommand_fault {r : Rule} {o : Operands} {s : State} (hs : s.err = false)
    (h : (endCommand r o s).err = true) :
    ∃ t, (endCommand r o s).ecode = trapCode t ∧ (endCommand r o s).einfo = trapInfo t ∧
      (r.check o = some t ∨ r.check o = none ∧
        ((∃ a, busChoice r o s = some a ∧ t = .busError a) ∨ r.run s.memMap o s.mem = .error t)) := by
  cases hcheck : r.check o with
  | some t => exact ⟨t, by simp [endCommand_check hcheck], by simp [endCommand_check hcheck], .inl rfl⟩
  | none =>
    cases hbus : busChoice r o s with
    | some a =>
      have hend : endCommand r o s = faultRunning r o (.busError a) s := by simp [endCommand, hcheck, hbus]
      exact ⟨_, by simp [hend], by simp [hend], .inr ⟨rfl, .inl ⟨a, rfl, rfl⟩⟩⟩
    | none =>
      cases hrun : r.run s.memMap o s.mem with
      | error t =>
        have hend := endCommand_error hcheck hbus hrun
        exact ⟨t, by simp [hend], by simp [hend], .inr ⟨rfl, .inr rfl⟩⟩
      | ok f => simp [endCommand_ok hcheck hbus hrun, hs] at h

/-- Only `BUS_ERROR` has the code 0x08 (60_exceptions R421). -/
theorem eq_busError_of_trapCode {t : Trap} (h : trapCode t = 0x08) : ∃ a, t = .busError a := by
  cases t
  case busError a => exact ⟨a, rfl⟩
  all_goals exact absurd h (by simp [trapCode])

/-- Settles O30: the fault with that code is the free `BUS_ERROR` or that of the run, and both name such an address. -/
theorem busErrorNamesInvalidAddress : Obligations.BusErrorNamesInvalidAddress := by
  intro i r s t o hr hat hexec herr hcode
  rw [exec_atCommand hat hr, Host.Outcome.next.injEq] at hexec
  subst hexec
  obtain ⟨x, hx, hinfo, hfault⟩ := endCommand_fault (by rw [atStart_err]; exact hat.1) herr
  obtain ⟨a, rfl⟩ := eq_busError_of_trapCode (hx.symm.trans hcode)
  have hnames := ruleOf_namesEntitled hr
  have hinvalid : InvalidIn s.memMap (r.source o :: r.outputs o) a := by
    rcases hfault with hcheck | ⟨hcheck, ⟨_, hbus, ⟨⟩⟩ | hrun⟩
    · exact absurd hcheck (hnames.check o a)
    · simpa using busChoice_invalidIn hbus
    · rw [atStart_memMap] at hrun
      exact hnames.run _ _ _ hcheck a hrun
  obtain ⟨hvalid, y, hy, hin⟩ := hinvalid
  exact ⟨y, hy, a, hin, hvalid, hinfo⟩

end Sys2Proof.Machine
end
